-- ==== Sys2Proof/Word.lean ====
section
/-! DEFINITION. The words of the block: the widths that R9 of 00_scope.md fixes. -/

namespace Sys2Proof

/-- One payload byte. -/
abbrev Byte := BitVec 8

/-- A standard CAN identifier, 11 bits (R9, R111); filter addresses and masks have the same width. -/
abbrev CanId := BitVec 11

/-- A channel name. Equality is the only operation the spec uses (R8, `ChanName`); its word form has
64 bits (R140, D50). -/
abbrev ChanName := BitVec 64

end Sys2Proof
end

