-- ==== Sys2Proof/Config.lean ====
section
/-! DEFINITION. The implementation parameters of 00_scope.md rule R8, and the free environment that
supplies operations once the scheduled ones are used up. -/

namespace Sys2Proof

/-- `CHAN_FULL_POLICY` (R8, R88, D6). -/
inductive ChanFullPolicy where
  | dropNewest
  | block
deriving DecidableEq, Repr

/-- `POWER_ROUNDING` (R8, R270, D26). -/
inductive Rounding where
  | trunc
  | floor
deriving DecidableEq, Repr

/-- The five EPC quantities that have hardware bounds and a limit pair (R8, R52). -/
inductive Quantity where
  | lsVolt
  | lsCurr
  | lsPwr
  | hsVolt
  | temp
deriving DecidableEq, Repr

/-- A closed range of integers. -/
structure Bounds where
  min : Int
  max : Int
deriving DecidableEq, Repr

/-- `HW_BOUNDS`: `[HW_MIN_q, HW_MAX_q]` of each quantity (R8, D37; OPEN). -/
structure HwBounds where
  lsVolt : Bounds
  lsCurr : Bounds
  lsPwr : Bounds
  hsVolt : Bounds
  temp : Bounds
deriving DecidableEq, Repr

/-- The bounds of quantity `q`. -/
def HwBounds.of (h : HwBounds) : Quantity → Bounds
  | .lsVolt => h.lsVolt
  | .lsCurr => h.lsCurr
  | .lsPwr => h.lsPwr
  | .hsVolt => h.hsVolt
  | .temp => h.temp

/-- `MODE_CODE`: the number of each EPC mode in the 3-bit field (R8, R117, D14). -/
structure ModeCodes where
  wait : BitVec 3
  cc : BitVec 3
  cv : BitVec 3
  cp : BitVec 3
  idle : BitVec 3
  error : BitVec 3
deriving DecidableEq, Repr

/-- The decided numbers (R117). -/
def ModeCodes.decided : ModeCodes := ⟨0, 1, 2, 3, 4, 5⟩

/-- The codes in the order of R117. -/
def ModeCodes.list (c : ModeCodes) : List (BitVec 3) := [c.wait, c.cc, c.cv, c.cp, c.idle, c.error]

/-- The modes have different codes, none of them the reserved 6 or 7 (R117). -/
def ModeCodes.wf (c : ModeCodes) : Bool := decide c.list.Nodup && c.list.all (fun k => decide (k.toNat ≤ 5))

/-- `LIMIT_CODE`: the number of each limit type in the 2-bit field (R8, R118, D15). -/
structure LimitCodes where
  time : BitVec 2
  voltage : BitVec 2
  current : BitVec 2
  power : BitVec 2
deriving DecidableEq, Repr

/-- The decided numbers (R118). -/
def LimitCodes.decided : LimitCodes := ⟨0, 1, 2, 3⟩

/-- The limit types have different codes, so that all four codes are legal (R118). -/
def LimitCodes.wf (c : LimitCodes) : Bool := decide [c.time, c.voltage, c.current, c.power].Nodup

/-- The parameters of R8, fixed when the block is built (R450). `BMS_FILTER` is an operand of BMS.NEW and
`ChanName` a type of Word.lean. -/
structure Config where
  /-- `N_FILTERS`, OPEN, at least 1 (D3). -/
  nFilters : Nat
  /-- `CMD_DEPTH`, OPEN, at least 1. -/
  cmdDepth : Nat
  /-- `CMD_ITEM_BYTES`, at least 12 (R142, D57); no operation reads it. -/
  cmdItemBytes : Nat
  /-- `CHAN_DEPTH`, OPEN, at least 1. -/
  chanDepth : Nat
  /-- `CHAN_MSG_BYTES`, at least 10 (R142, D57); no operation reads it. -/
  chanMsgBytes : Nat
  /-- `CHAN_FULL_POLICY`, OPEN (D6). -/
  chanFullPolicy : ChanFullPolicy
  /-- `EPC_DRAIN_MAX`, OPEN, at least 1 (D34). -/
  epcDrainMax : Nat
  /-- `BMS_DRAIN_MAX`, OPEN, at least 1 (D46). -/
  bmsDrainMax : Nat
  /-- `BMS_TIMEOUT_MS`; source: 30 s (R412, D2). -/
  bmsTimeoutMs : Nat
  /-- `HW_BOUNDS`, OPEN (D37). -/
  hwBounds : HwBounds
  /-- `MODE_CODE`, decided values `ModeCodes.decided` (D14). -/
  modeCode : ModeCodes
  /-- `LIMIT_CODE`, decided values `LimitCodes.decided` (D15). -/
  limitCode : LimitCodes
  /-- `POWER_ROUNDING`, decided TRUNC, alternative FLOOR (D26). -/
  powerRounding : Rounding
  /-- `POLL_TIMEOUT_MS`; timing only, no rule reads it (R471). -/
  pollTimeoutMs : Nat
  /-- `BITRATE` in bits per second; timing only, no rule reads it (R471). -/
  bitrate : Nat
deriving DecidableEq, Repr

/-- Well-formedness of a configuration: the capacities are at least 1 (R8), the item sizes hold the largest
encodings (R142, D57), and the code tables name every mode and limit type apart (R117, R118; log 18). -/
def Config.wf (c : Config) : Bool :=
  decide (1 ≤ c.nFilters) && decide (1 ≤ c.cmdDepth) && decide (12 ≤ c.cmdItemBytes) &&
  decide (1 ≤ c.chanDepth) && decide (10 ≤ c.chanMsgBytes) && decide (1 ≤ c.epcDrainMax) &&
  decide (1 ≤ c.bmsDrainMax) && c.modeCode.wf && c.limitCode.wf

/-- The configuration of the test vectors (95_test_vectors.md section 0). State.reset uses it (DESIGN
CHOICE, log 2); the spec leaves most of these parameters OPEN. -/
def Config.reference : Config where
  nFilters := 4
  cmdDepth := 8
  cmdItemBytes := 150
  chanDepth := 4
  chanMsgBytes := 150
  chanFullPolicy := .dropNewest
  epcDrainMax := 8
  bmsDrainMax := 8
  bmsTimeoutMs := 30000
  hwBounds :=
    { lsVolt := ⟨0, 6000⟩, lsCurr := ⟨-20000, 20000⟩, lsPwr := ⟨-10000, 10000⟩,
      hsVolt := ⟨0, 20000⟩, temp := ⟨-500, 1000⟩ }
  modeCode := .decided
  limitCode := .decided
  powerRounding := .trunc
  pollTimeoutMs := 10
  bitrate := 125000

/-- The `format` column of opcode_table.json: how an operation's bits are laid out. -/
inductive Format where
  | internal
  | hostOp
  | commandWord
  | workerStep
  | busEvent
  | canId
  | bmsFrame
deriving DecidableEq, Repr, Inhabited

/-- One operation as it reaches the block: its format and its bytes, the first at the lowest address. The
layouts stand in Decode.lean (log 3). -/
structure Message where
  format : Format
  bytes : List Byte
deriving DecidableEq, Repr, Inhabited

/-- The free environment: the operation that the scheduler, the host, the bus and the clock supply at the
n-th step past the end of the agenda (R73, R406, R420, R421). It has no body: nothing is known of it, so a
statement about every state holds for every such sequence (log 1). -/
opaque Config.environment : Nat → Message

end Sys2Proof
end

