-- ==== Sys2Proof/Syntax.lean ====
section
/-! DEFINITION. The operations of the block: one constructor of `Instr` for each row of
spec/opcode_table.json, and the values that are their operands. -/

namespace Sys2Proof

/-- A CAN frame (R42): the DLC is the number of data bytes (R110), at most 8 (`Frame.wf`). -/
structure Frame where
  id : CanId
  data : List Byte
deriving DecidableEq, Repr

/-- The data length code (R42, R110). -/
abbrev Frame.dlc (f : Frame) : Nat := f.data.length

/-- A filter entry (R37). -/
structure FilterEntry where
  address : CanId
  mask : CanId
  chan : ChanName
deriving DecidableEq, Repr

/-- A command (R43). -/
inductive Command where
  | send (fr : Frame)
  | addFilter (fe : FilterEntry)
  | removeFilter (fe : FilterEntry)
deriving DecidableEq, Repr

/-- The limit types (R118). -/
inductive LimitType where
  | time
  | voltage
  | current
  | power
deriving DecidableEq, Repr

/-- `EpcProperties` (R52); a limit of LS_CURR, LS_PWR or TEMP is read as two's complement, of LS_VOLT or
HS_VOLT as unsigned (R52, R124). -/
structure EpcProps where
  canId : BitVec 6
  fwVer : BitVec 5
  hwVer : BitVec 13
  sn : BitVec 8
  lsVoltMax : BitVec 16
  lsVoltMin : BitVec 16
  lsCurrMax : BitVec 16
  lsCurrMin : BitVec 16
  lsPwrMax : BitVec 16
  lsPwrMin : BitVec 16
  hsVoltMax : BitVec 16
  hsVoltMin : BitVec 16
  tempMax : BitVec 16
  tempMin : BitVec 16
deriving DecidableEq, Repr

/-- What `BusRx()` returns (R191, R421); a `frame` is a valid frame, its identifier has 11 bits (R112). -/
inductive BusEvent where
  | none
  | frame (fr : Frame)
  | errorFrame
  | invalid
deriving DecidableEq, Repr

/-- What `BusTx(fr)` returns (R173, R421). -/
inductive TxAnswer where
  | ok
  | fail
deriving DecidableEq, Repr

/-- Which of its two transitions a waiting host call takes (R420, D12, log 5): `issue` submits its command
and begins the wait, `resume seq` is the same caller looking for the outcome of command `seq`. -/
inductive Turn where
  | issue
  | resume (seq : Nat)
deriving DecidableEq, Repr

/-- Which transition a monitoring call with argument `arg` takes (log 8): `whole` is the call in one transition
(R30); `start` and `finish` are the beginning and the return of the same call, between which the frames its drain has
read are decoded one at a time by the frame rows (R211, R260, R300, R309). -/
inductive MonitorCall (α : Type) where
  | whole (arg : α)
  | start (arg : α)
  | finish
deriving DecidableEq, Repr

/-- The operations, one constructor for each row of opcode_table.json, in the table's order. An operand
`e` or `b` is the handle of an EPC or BMS instance (log 4); the integers of the host calls are unbounded
here, because their rules check them (R228, R231). -/
inductive Instr where
  -- internal
  | filterMatch (id address mask : CanId)
  -- host operations (R143)
  | nodeSubmit (word : BitVec 96)
  | nodeStop
  | chanRead (chan : ChanName)
  | epcSetCvMode (e : Nat) (ref : Int) (limitType : LimitType) (limitRef : Int)
  | epcSetCcMode (e : Nat) (ref : Int) (limitType : LimitType) (limitRef : Int)
  | epcSetCpMode (e : Nat) (ref : Int) (limitType : LimitType) (limitRef : Int)
  | epcSetWaitMode (e : Nat) (limitRef : Int)
  | epcDisable (e : Nat)
  | epcSetPeriodic (e : Nat) (ackEn ackPeriod electEn electPeriod tempEn tempPeriod : Int)
  | epcSetLsVoltLimit (e : Nat) (max min : Int)
  | epcSetLsCurrLimit (e : Nat) (max min : Int)
  | epcSetHsVoltLimit (e : Nat) (max min : Int)
  | epcSetLsPwrLimit (e : Nat) (max min : Int)
  | epcSetTempLimit (e : Nat) (max min : Int)
  | epcGetData (e : Nat) (call : MonitorCall Bool)
  | epcGetProperties (e : Nat) (update : Bool)
  | epcOpen (e : Nat) (turn : Turn)
  | epcClose (e : Nat) (turn : Turn)
  | epcNew (devId : Nat) (chan : ChanName) (props : EpcProps)
  | bmsNew (chan : ChanName) (address mask : CanId) (now : Nat) (turn : Turn)
  | bmsGetData (b : Nat) (call : MonitorCall Nat)
  | bmsClose (b : Nat) (turn : Turn)
  -- command words (R140, R141)
  | cmdSend (fr : Frame) (tx : TxAnswer)
  | cmdAddFilter (fe : FilterEntry)
  | cmdRemoveFilter (fe : FilterEntry)
  | cmdReserved (rest : BitVec 94)
  -- worker steps (R144)
  | wrkStart
  | wrkApply (tx : TxAnswer)
  | wrkDrainEnd
  | wrkPoll (ev : BusEvent)
  | wrkDeliver
  | wrkShutdown
  | wrkFatal
  -- bus events (R112, R191)
  | rxData (fr : Frame)
  | rxNone
  | rxErrorFrame
  | rxInvalid
  -- EPC frames (R114): `dev` is identifier bits 10..4, the message type is fixed by the row
  | epcRxMode (e : Nat) (dev : BitVec 7) (data : List Byte)
  | epcRxLsVoltLim (e : Nat) (dev : BitVec 7) (data : List Byte)
  | epcRxLsCurrLim (e : Nat) (dev : BitVec 7) (data : List Byte)
  | epcRxHsVoltLim (e : Nat) (dev : BitVec 7) (data : List Byte)
  | epcRxLsPwrLim (e : Nat) (dev : BitVec 7) (data : List Byte)
  | epcRxTempLim (e : Nat) (dev : BitVec 7) (data : List Byte)
  | epcRxPeriodic (e : Nat) (dev : BitVec 7) (data : List Byte)
  | epcRxInfo (e : Nat) (dev : BitVec 7) (data : List Byte)
  | epcRxStatus (e : Nat) (dev : BitVec 7) (data : List Byte)
  | epcRxElecMeas (e : Nat) (dev : BitVec 7) (data : List Byte)
  | epcRxTempMeas (e : Nat) (dev : BitVec 7) (data : List Byte)
  | epcRxIgnored (e : Nat) (dev : BitVec 7) (data : List Byte)
  | epcRxIgnored89 (e : Nat) (dev : BitVec 7) (low : BitVec 1) (data : List Byte)
  | epcRxIgnoredEF (e : Nat) (dev : BitVec 7) (low : BitVec 1) (data : List Byte)
  -- BMS frames (R300): `fr` is the frame read from the instance's channel
  | bmsRxEmpty (b : Nat) (id : CanId)
  | bmsRxMarker (b : Nat) (id : CanId) (free errCode : Byte)
  | bmsRxSeqFault (b : Nat) (fr : Frame)
  | bmsRxFragment (b : Nat) (fr : Frame)
  | bmsRxLast (b : Nat) (fr : Frame) (now : Nat)
  | bmsRxOdd (b : Nat) (fr : Frame)
deriving DecidableEq, Repr

end Sys2Proof
end

