-- ==== Sys2Proof/WellFormed.lean ====
section
/-! DEFINITION. Which operations are well formed: their operands fit the encodings of Decode.lean and their
frames are frames (R110). -/

namespace Sys2Proof

/-- R110: at most 8 data bytes. -/
def Frame.wf (f : Frame) : Bool := decide (f.data.length ≤ 8)

/-- R43: the frame of a Send is a frame. -/
def Command.wf : Command → Bool
  | .send fr => fr.wf
  | .addFilter _ => true
  | .removeFilter _ => true

/-- A frame that has a header byte (R130): it can be a fragment. Whether it is the ERROR marker, and whether
its index is the expected one, is a condition of the rows (R300), not of the operand. -/
def Frame.hasHeader (f : Frame) : Bool := f.wf && decide (1 ≤ f.data.length)

/-- A handle of an instance fits its 4 bytes (log 3, log 4). -/
def handleOk (n : Nat) : Bool := decide (n < 2 ^ 32)

/-- A time, a device-id argument fits its 8 bytes (log 3). -/
def nat64Ok (n : Nat) : Bool := decide (n < 2 ^ 64)

/-- An integer argument fits its 8 bytes in two's complement (log 3). -/
def int64Ok (x : Int) : Bool := decide (-2 ^ 63 ≤ x) && decide (x < 2 ^ 63)

/-- A turn fits its 8 bytes: 0 is `issue`, seq + 1 is `resume seq` (log 3). -/
def Turn.wf : Turn → Bool
  | .issue => true
  | .resume seq => decide (seq + 1 < 2 ^ 64)

/-- The argument of a monitoring call fits its field; `finish` has none. -/
def MonitorCall.fits {α : Type} (ok : α → Bool) : MonitorCall α → Bool
  | .whole arg => ok arg
  | .start arg => ok arg
  | .finish => true

/-- A bus event carries a frame or nothing. -/
def BusEvent.wf : BusEvent → Bool
  | .frame fr => fr.wf
  | .none => true
  | .errorFrame => true
  | .invalid => true

/-- An EPC frame row: the handle fits and the data are at most 8 bytes. -/
def epcRowOk (e : Nat) (data : List Byte) : Bool := handleOk e && decide (data.length ≤ 8)

/-- The operation is well formed. -/
def Instr.wf : Instr → Bool
  | .filterMatch _ _ _ => true
  | .nodeSubmit _ => true
  | .nodeStop => true
  | .chanRead _ => true
  | .epcSetCvMode e ref _ lr => handleOk e && int64Ok ref && int64Ok lr
  | .epcSetCcMode e ref _ lr => handleOk e && int64Ok ref && int64Ok lr
  | .epcSetCpMode e ref _ lr => handleOk e && int64Ok ref && int64Ok lr
  | .epcSetWaitMode e lr => handleOk e && int64Ok lr
  | .epcDisable e => handleOk e
  | .epcSetPeriodic e ae ap ee ep te tp =>
      handleOk e && int64Ok ae && int64Ok ap && int64Ok ee && int64Ok ep && int64Ok te && int64Ok tp
  | .epcSetLsVoltLimit e mx mn => handleOk e && int64Ok mx && int64Ok mn
  | .epcSetLsCurrLimit e mx mn => handleOk e && int64Ok mx && int64Ok mn
  | .epcSetHsVoltLimit e mx mn => handleOk e && int64Ok mx && int64Ok mn
  | .epcSetLsPwrLimit e mx mn => handleOk e && int64Ok mx && int64Ok mn
  | .epcSetTempLimit e mx mn => handleOk e && int64Ok mx && int64Ok mn
  | .epcGetData e _ => handleOk e
  | .epcGetProperties e _ => handleOk e
  | .epcOpen e t => handleOk e && t.wf
  | .epcClose e t => handleOk e && t.wf
  | .epcNew d _ _ => nat64Ok d
  | .bmsNew _ _ _ now t => nat64Ok now && t.wf
  | .bmsGetData b call => handleOk b && call.fits nat64Ok
  | .bmsClose b t => handleOk b && t.wf
  | .cmdSend fr _ => fr.wf
  | .cmdAddFilter _ => true
  | .cmdRemoveFilter _ => true
  | .cmdReserved _ => true
  | .wrkStart => true
  | .wrkApply _ => true
  | .wrkDrainEnd => true
  | .wrkPoll ev => ev.wf
  | .wrkDeliver => true
  | .wrkShutdown => true
  | .wrkFatal => true
  | .rxData fr => fr.wf
  | .rxNone => true
  | .rxErrorFrame => true
  | .rxInvalid => true
  | .epcRxMode e _ data => epcRowOk e data
  | .epcRxLsVoltLim e _ data => epcRowOk e data
  | .epcRxLsCurrLim e _ data => epcRowOk e data
  | .epcRxHsVoltLim e _ data => epcRowOk e data
  | .epcRxLsPwrLim e _ data => epcRowOk e data
  | .epcRxTempLim e _ data => epcRowOk e data
  | .epcRxPeriodic e _ data => epcRowOk e data
  | .epcRxInfo e _ data => epcRowOk e data
  | .epcRxStatus e _ data => epcRowOk e data
  | .epcRxElecMeas e _ data => epcRowOk e data
  | .epcRxTempMeas e _ data => epcRowOk e data
  | .epcRxIgnored e _ data => epcRowOk e data
  | .epcRxIgnored89 e _ _ data => epcRowOk e data
  | .epcRxIgnoredEF e _ _ data => epcRowOk e data
  | .bmsRxEmpty b _ => handleOk b
  | .bmsRxMarker b _ _ _ => handleOk b
  | .bmsRxSeqFault b fr => handleOk b && fr.hasHeader
  | .bmsRxFragment b fr => handleOk b && fr.hasHeader
  | .bmsRxLast b fr now => handleOk b && fr.hasHeader && nat64Ok now
  | .bmsRxOdd b fr => handleOk b && fr.hasHeader

end Sys2Proof
end

