-- ==== Sys2Proof/Decode.lean ====
section
/-! DEFINITION. The bit fields, the decoder and the encoder: command words (R140, R141), frame words (R142),
operation codes (R143), the identifier's message type (R114), the BMS marker (R131), and the byte layout of an
operation message (log 3). Decoding is total and refuses, with `none`, whatever the layouts do not admit. -/

namespace Sys2Proof

/-! ## Byte order and fields -/

/-- `LE` of R12: byte 0 is the least significant. -/
def leNat : List Byte → Nat
  | [] => 0
  | b :: bs => b.toNat + 256 * leNat bs

/-- `toLE(W, n)` of R12. -/
def toLE : Nat → Nat → List Byte
  | 0, _ => []
  | n + 1, w => BitVec.ofNat 8 (w % 256) :: toLE n (w / 256)

/-- `v[hi:lo]` of R10, an unsigned integer. -/
def bits (v hi lo : Nat) : Nat := v / 2 ^ lo % 2 ^ (hi + 1 - lo)

/-- `uN(v)` of R11: `v mod 2^N`. -/
def uMod (n : Nat) (v : Int) : Nat := (v % (2 ^ n : Int)).toNat

/-- `sN(v)` of R11: the N-bit field `v` read as two's complement. -/
def sVal (n : Nat) (v : Nat) : Int := if v < 2 ^ (n - 1) then (v : Int) else (v : Int) - 2 ^ n

/-! ## Identifiers, frames, commands as words -/

/-- The identifier `(dev << 4) | type` (R111, R113). -/
def identifier (dev type : Nat) : CanId := BitVec.ofNat 11 (dev * 16 + type)

/-- The message type, identifier bits 3..0 (R111). -/
def messageType (id : CanId) : Nat := bits id.toNat 3 0

/-- The device id, identifier bits 10..4 (R111). -/
def deviceId (id : CanId) : BitVec 7 := BitVec.ofNat 7 (bits id.toNat 10 4)

/-- The bytes of "ERROR" (R131; G1 of 93_implementation_defined.md). -/
abbrev errorText : List Byte := [0x45, 0x52, 0x52, 0x4F, 0x52]

/-- The frame of the ERROR marker (R131): header 0x10, the text, the free byte 6, the fault code. -/
def markerFrame (id : CanId) (free errCode : Byte) : Frame :=
  ⟨id, 0x10 :: (errorText ++ [free, errCode])⟩

/-- Bytes at and above the DLC are zero in a word form (R140, R142). -/
def padData (data : List Byte) : List Byte := data ++ List.replicate (8 - data.length) 0

/-- The data bytes in eight payload bytes of a word form, none if the DLC is above 8 or a byte at or above
it is not zero (R140 to R142). -/
def unpadData (dlc : Nat) (bytes : List Byte) : Option (List Byte) :=
  if dlc ≤ 8 ∧ (bytes.drop dlc).all (· == 0) then some (bytes.take dlc) else none

/-- The command word of R140. -/
def commandWord : Command → BitVec 96
  | .send fr =>
      BitVec.ofNat 96 (0 + 4 * fr.id.toNat + 2 ^ 13 * fr.dlc + 2 ^ 32 * leNat (padData fr.data))
  | .addFilter fe =>
      BitVec.ofNat 96 (1 + 4 * fe.address.toNat + 2 ^ 13 * fe.mask.toNat + 2 ^ 32 * fe.chan.toNat)
  | .removeFilter fe =>
      BitVec.ofNat 96 (2 + 4 * fe.address.toNat + 2 ^ 13 * fe.mask.toNat + 2 ^ 32 * fe.chan.toNat)

/-- The command a word stands for (R140); none for a malformed word: tag 0b11, a SEND dlc above 8, a
nonzero bit in a zero field (R141). -/
def commandOfWord (word : BitVec 96) : Option Command :=
  let w := word.toNat
  let filter : FilterEntry :=
    ⟨BitVec.ofNat 11 (bits w 12 2), BitVec.ofNat 11 (bits w 23 13), BitVec.ofNat 64 (bits w 95 32)⟩
  match bits w 1 0 with
  | 0 =>
      if bits w 31 17 = 0 then
        match unpadData (bits w 16 13) (toLE 8 (bits w 95 32)) with
        | some data => some (.send ⟨BitVec.ofNat 11 (bits w 12 2), data⟩)
        | none => none
      else none
  | 1 => if bits w 31 24 = 0 then some (.addFilter filter) else none
  | 2 => if bits w 31 24 = 0 then some (.removeFilter filter) else none
  | _ => none

/-- The command word with tag 0b11 and the other bits `rest` (R141). -/
def reservedWord (rest : BitVec 94) : BitVec 96 := BitVec.ofNat 96 (3 + 4 * rest.toNat)

/-! ## Reading an operation message -/

/-- An unsigned integer of `n` bytes and the bytes after it. -/
def takeNat (n : Nat) (bs : List Byte) : Option (Nat × List Byte) :=
  if n ≤ bs.length then some (leNat (bs.take n), bs.drop n) else none

/-- A field of `w` bits in `n` bytes; the bits above it must be zero. -/
def takeBits (n w : Nat) (bs : List Byte) : Option (BitVec w × List Byte) :=
  match takeNat n bs with
  | some (v, rest) => if v < 2 ^ w then some (BitVec.ofNat w v, rest) else none
  | none => none

/-- An integer of 8 bytes, two's complement. -/
def takeInt (bs : List Byte) : Option (Int × List Byte) :=
  match takeNat 8 bs with
  | some (v, rest) => some (sVal 64 v, rest)
  | none => none

/-- A Boolean of one byte, 0 or 1. -/
def takeBool (bs : List Byte) : Option (Bool × List Byte) :=
  match takeNat 1 bs with
  | some (0, rest) => some (false, rest)
  | some (1, rest) => some (true, rest)
  | _ => none

/-- A limit type of one byte, numbered as R118 numbers it. -/
def takeLimitType (bs : List Byte) : Option (LimitType × List Byte) :=
  match takeNat 1 bs with
  | some (0, rest) => some (.time, rest)
  | some (1, rest) => some (.voltage, rest)
  | some (2, rest) => some (.current, rest)
  | some (3, rest) => some (.power, rest)
  | _ => none

/-- A turn of 8 bytes: 0 is `issue`, seq + 1 is `resume seq`. -/
def takeTurn (bs : List Byte) : Option (Turn × List Byte) :=
  match takeNat 8 bs with
  | some (0, rest) => some (.issue, rest)
  | some (seq + 1, rest) => some (.resume seq, rest)
  | none => none

/-- A monitoring call, one byte and then its argument as `take` reads it (log 3): 0 is `whole`, 1 is `start`, and
2 is `finish`, which has no argument. -/
def takeCall {α : Type} (take : List Byte → Option (α × List Byte)) (bs : List Byte) :
    Option (MonitorCall α × List Byte) := do
  let (form, bs) ← takeNat 1 bs
  match form with
  | 0 => do
      let (arg, bs) ← take bs
      some (.whole arg, bs)
  | 1 => do
      let (arg, bs) ← take bs
      some (.start arg, bs)
  | 2 => some (.finish, bs)
  | _ => none

/-- The bus's answer to a transmission, one byte: 0 is TX_OK, 1 is TX_FAIL. -/
def takeTx (bs : List Byte) : Option (TxAnswer × List Byte) :=
  match takeNat 1 bs with
  | some (0, rest) => some (.ok, rest)
  | some (1, rest) => some (.fail, rest)
  | _ => none

/-- A frame word of 10 bytes (R142): bits 10..0 the identifier, 14..11 the DLC, bit 15 zero, then the
payload with zeros at and above the DLC. -/
def takeFrame (bs : List Byte) : Option (Frame × List Byte) :=
  match takeNat 2 bs with
  | some (h, rest) =>
      if h < 2 ^ 15 ∧ 8 ≤ rest.length then
        match unpadData (bits h 14 11) (rest.take 8) with
        | some data => some (⟨BitVec.ofNat 11 (bits h 10 0), data⟩, rest.drop 8)
        | none => none
      else none
  | none => none

/-- A filter entry: address, mask, channel name. -/
def takeFilter (bs : List Byte) : Option (FilterEntry × List Byte) := do
  let (address, bs) ← takeBits 2 11 bs
  let (mask, bs) ← takeBits 2 11 bs
  let (chan, bs) ← takeBits 8 64 bs
  some (⟨address, mask, chan⟩, bs)

/-- A limit pair of the properties: max, then min. -/
def takePair (bs : List Byte) : Option ((BitVec 16 × BitVec 16) × List Byte) := do
  let (mx, bs) ← takeBits 2 16 bs
  let (mn, bs) ← takeBits 2 16 bs
  some ((mx, mn), bs)

/-- The identification fields of the properties: `can_id`, `fw_ver`, `hw_ver`, `sn`. -/
def takeIdent (bs : List Byte) :
    Option ((BitVec 6 × BitVec 5 × BitVec 13 × BitVec 8) × List Byte) := do
  let (canId, bs) ← takeBits 1 6 bs
  let (fwVer, bs) ← takeBits 1 5 bs
  let (hwVer, bs) ← takeBits 2 13 bs
  let (sn, bs) ← takeBits 1 8 bs
  some ((canId, fwVer, hwVer, sn), bs)

/-- The properties argument of EPC.NEW, every field of R52 in its order there, each in whole bytes. -/
def takeProps (bs : List Byte) : Option (EpcProps × List Byte) := do
  let ((canId, fwVer, hwVer, sn), bs) ← takeIdent bs
  let ((lsVoltMax, lsVoltMin), bs) ← takePair bs
  let ((lsCurrMax, lsCurrMin), bs) ← takePair bs
  let ((hsVoltMax, hsVoltMin), bs) ← takePair bs
  let ((lsPwrMax, lsPwrMin), bs) ← takePair bs
  let ((tempMax, tempMin), bs) ← takePair bs
  some (⟨canId, fwVer, hwVer, sn, lsVoltMax, lsVoltMin, lsCurrMax, lsCurrMin, lsPwrMax, lsPwrMin,
    hsVoltMax, hsVoltMin, tempMax, tempMin⟩, bs)

/-- The arguments of a CV, CC or CP call: instance, reference, limit type, limit reference (R143). -/
def takeModeArgs (f : Nat → Int → LimitType → Int → Instr) (bs : List Byte) :
    Option (Instr × List Byte) := do
  let (e, bs) ← takeNat 4 bs
  let (ref, bs) ← takeInt bs
  let (lt, bs) ← takeLimitType bs
  let (lr, bs) ← takeInt bs
  some (f e ref lt lr, bs)

/-- The arguments of a limit call: instance, max, min (R143). -/
def takeLimitArgs (f : Nat → Int → Int → Instr) (bs : List Byte) : Option (Instr × List Byte) := do
  let (e, bs) ← takeNat 4 bs
  let (mx, bs) ← takeInt bs
  let (mn, bs) ← takeInt bs
  some (f e mx mn, bs)

/-- The arguments of EPC.GET_PROPERTIES: instance, update (R143). -/
def takeUpdateArgs (f : Nat → Bool → Instr) (bs : List Byte) : Option (Instr × List Byte) := do
  let (e, bs) ← takeNat 4 bs
  let (update, bs) ← takeBool bs
  some (f e update, bs)

/-- The arguments of a call that waits: instance, turn (R143, log 5). -/
def takeTurnArgs (f : Nat → Turn → Instr) (bs : List Byte) : Option (Instr × List Byte) := do
  let (e, bs) ← takeNat 4 bs
  let (turn, bs) ← takeTurn bs
  some (f e turn, bs)

/-- The arguments of each operation code of R143; a code that is not in that table is refused. -/
def decodeArgs (op : Nat) (bs : List Byte) : Option (Instr × List Byte) :=
  match op with
  | 0x00 => do
      let (word, bs) ← takeBits 12 96 bs
      some (.nodeSubmit word, bs)
  | 0x01 => some (.nodeStop, bs)
  | 0x02 => do
      let (chan, bs) ← takeBits 8 64 bs
      some (.chanRead chan, bs)
  | 0x10 => takeModeArgs .epcSetCvMode bs
  | 0x11 => takeModeArgs .epcSetCcMode bs
  | 0x12 => takeModeArgs .epcSetCpMode bs
  | 0x13 => do
      let (e, bs) ← takeNat 4 bs
      let (lr, bs) ← takeInt bs
      some (.epcSetWaitMode e lr, bs)
  | 0x14 => do
      let (e, bs) ← takeNat 4 bs
      some (.epcDisable e, bs)
  | 0x15 => do
      let (e, bs) ← takeNat 4 bs
      let (ae, bs) ← takeInt bs
      let (ap, bs) ← takeInt bs
      let (ee, bs) ← takeInt bs
      let (ep, bs) ← takeInt bs
      let (te, bs) ← takeInt bs
      let (tp, bs) ← takeInt bs
      some (.epcSetPeriodic e ae ap ee ep te tp, bs)
  | 0x16 => takeLimitArgs .epcSetLsVoltLimit bs
  | 0x17 => takeLimitArgs .epcSetLsCurrLimit bs
  | 0x18 => takeLimitArgs .epcSetHsVoltLimit bs
  | 0x19 => takeLimitArgs .epcSetLsPwrLimit bs
  | 0x1A => takeLimitArgs .epcSetTempLimit bs
  | 0x1B => do
      let (e, bs) ← takeNat 4 bs
      let (call, bs) ← takeCall takeBool bs
      some (.epcGetData e call, bs)
  | 0x1C => takeUpdateArgs .epcGetProperties bs
  | 0x1D => takeTurnArgs .epcOpen bs
  | 0x1E => takeTurnArgs .epcClose bs
  | 0x1F => do
      let (devId, bs) ← takeNat 8 bs
      let (chan, bs) ← takeBits 8 64 bs
      let (props, bs) ← takeProps bs
      some (.epcNew devId chan props, bs)
  | 0x20 => do
      let (fe, bs) ← takeFilter bs
      let (now, bs) ← takeNat 8 bs
      let (turn, bs) ← takeTurn bs
      some (.bmsNew fe.chan fe.address fe.mask now turn, bs)
  | 0x21 => do
      let (b, bs) ← takeNat 4 bs
      let (call, bs) ← takeCall (takeNat 8) bs
      some (.bmsGetData b call, bs)
  | 0x22 => takeTurnArgs .bmsClose bs
  | _ => none

/-- A host operation: one byte of operation code, then its arguments (R143, log 3). -/
def decodeHostOp (bs : List Byte) : Option (Instr × List Byte) := do
  let (op, bs) ← takeNat 1 bs
  decodeArgs op bs

/-- FILTER.MATCH: identifier, address, mask. -/
def decodeInternal (bs : List Byte) : Option (Instr × List Byte) := do
  let (id, bs) ← takeBits 2 11 bs
  let (address, bs) ← takeBits 2 11 bs
  let (mask, bs) ← takeBits 2 11 bs
  some (.filterMatch id address mask, bs)

/-- A command word of R140, selected by its tag; after a SEND stands the bus's answer. -/
def decodeCommand (bs : List Byte) : Option (Instr × List Byte) := do
  let (word, bs) ← takeBits 12 96 bs
  if bits word.toNat 1 0 = 3 then
    some (.cmdReserved (BitVec.ofNat 94 (word.toNat / 4)), bs)
  else
    match commandOfWord word with
    | some (.send fr) => do
        let (tx, bs) ← takeTx bs
        some (.cmdSend fr tx, bs)
    | some (.addFilter fe) => some (.cmdAddFilter fe, bs)
    | some (.removeFilter fe) => some (.cmdRemoveFilter fe, bs)
    | none => none

/-- A bus event after its frame word: 0 FRAME, and with an empty frame word 1 NONE, 2 ERROR_FRAME,
3 INVALID. -/
def takeEvent (bs : List Byte) : Option (BusEvent × List Byte) := do
  let (fr, bs) ← takeFrame bs
  let (kind, bs) ← takeNat 1 bs
  if kind = 0 then some (.frame fr, bs)
  else if fr = ⟨0, []⟩ then
    match kind with
    | 1 => some (.none, bs)
    | 2 => some (.errorFrame, bs)
    | 3 => some (.invalid, bs)
    | _ => none
  else none

/-- The bus event rows. -/
def decodeBusEvent (bs : List Byte) : Option (Instr × List Byte) := do
  let (ev, bs) ← takeEvent bs
  match ev with
  | .frame fr => some (.rxData fr, bs)
  | .none => some (.rxNone, bs)
  | .errorFrame => some (.rxErrorFrame, bs)
  | .invalid => some (.rxInvalid, bs)

/-- The worker steps, numbered in the table's order. -/
def decodeWorkerStep (bs : List Byte) : Option (Instr × List Byte) := do
  let (k, bs) ← takeNat 1 bs
  match k with
  | 0 => some (.wrkStart, bs)
  | 1 => do
      let (tx, bs) ← takeTx bs
      some (.wrkApply tx, bs)
  | 2 => some (.wrkDrainEnd, bs)
  | 3 => do
      let (ev, bs) ← takeEvent bs
      some (.wrkPoll ev, bs)
  | 4 => some (.wrkDeliver, bs)
  | 5 => some (.wrkShutdown, bs)
  | 6 => some (.wrkFatal, bs)
  | _ => none

/-- The EPC row that a message type selects (R114, R260). -/
def epcRow (type : Nat) (e : Nat) (dev : BitVec 7) (data : List Byte) : Option Instr :=
  match type with
  | 0x0 => some (.epcRxMode e dev data)
  | 0x1 => some (.epcRxIgnored e dev data)
  | 0x2 => some (.epcRxLsVoltLim e dev data)
  | 0x3 => some (.epcRxLsCurrLim e dev data)
  | 0x4 => some (.epcRxHsVoltLim e dev data)
  | 0x5 => some (.epcRxLsPwrLim e dev data)
  | 0x6 => some (.epcRxTempLim e dev data)
  | 0x7 => some (.epcRxPeriodic e dev data)
  | 0x8 => some (.epcRxIgnored89 e dev 0 data)
  | 0x9 => some (.epcRxIgnored89 e dev 1 data)
  | 0xA => some (.epcRxInfo e dev data)
  | 0xB => some (.epcRxStatus e dev data)
  | 0xC => some (.epcRxElecMeas e dev data)
  | 0xD => some (.epcRxTempMeas e dev data)
  | 0xE => some (.epcRxIgnoredEF e dev 0 data)
  | 0xF => some (.epcRxIgnoredEF e dev 1 data)
  | _ => none

/-- An EPC frame: its frame word, then the handle of the instance whose channel delivered it. -/
def decodeEpcFrame (bs : List Byte) : Option (Instr × List Byte) := do
  let (fr, bs) ← takeFrame bs
  let (e, bs) ← takeNat 4 bs
  match epcRow (messageType fr.id) e (deviceId fr.id) fr.data with
  | some i => some (i, bs)
  | none => none

/-- A BMS frame: its frame word, the handle of the instance, the row (0 EMPTY, 1 MARKER, 2 SEQ_FAULT,
3 FRAGMENT, 4 LAST, 5 ODD: which of 2 to 5 holds depends on the instance's state, R300), and for LAST the
time. -/
def decodeBmsFrame (bs : List Byte) : Option (Instr × List Byte) := do
  let (fr, bs) ← takeFrame bs
  let (b, bs) ← takeNat 4 bs
  let (row, bs) ← takeNat 1 bs
  match row, fr.data with
  | 0, [] => some (.bmsRxEmpty b fr.id, bs)
  | 1, [_, _, _, _, _, _, free, code] =>
      if fr = markerFrame fr.id free code then some (.bmsRxMarker b fr.id free code, bs) else none
  | 2, _ :: _ => some (.bmsRxSeqFault b fr, bs)
  | 3, _ :: _ => some (.bmsRxFragment b fr, bs)
  | 4, _ :: _ => do
      let (now, bs) ← takeNat 8 bs
      some (.bmsRxLast b fr now, bs)
  | 5, _ :: _ => some (.bmsRxOdd b fr, bs)
  | _, _ => none

/-- An operation and the bytes after it, by format. -/
def decodeBytes : Format → List Byte → Option (Instr × List Byte)
  | .internal => decodeInternal
  | .hostOp => decodeHostOp
  | .commandWord => decodeCommand
  | .workerStep => decodeWorkerStep
  | .busEvent => decodeBusEvent
  | .canId => decodeEpcFrame
  | .bmsFrame => decodeBmsFrame

/-- The operation a message stands for. Every byte after the operation must be zero (a message may be
padded); anything else is refused. -/
def decode (m : Message) : Option Instr :=
  match decodeBytes m.format m.bytes with
  | some (i, rest) => if rest.all (· == 0) then some i else none
  | none => none

/-! ## Writing an operation message -/

/-- 8 bytes, two's complement. -/
def putInt (x : Int) : List Byte := toLE 8 (uMod 64 x)

def putBool (x : Bool) : List Byte := toLE 1 (if x then 1 else 0)

def putLimitType : LimitType → List Byte
  | .time => toLE 1 0
  | .voltage => toLE 1 1
  | .current => toLE 1 2
  | .power => toLE 1 3

def putTurn : Turn → List Byte
  | .issue => toLE 8 0
  | .resume seq => toLE 8 (seq + 1)

def putCall {α : Type} (put : α → List Byte) : MonitorCall α → List Byte
  | .whole arg => toLE 1 0 ++ put arg
  | .start arg => toLE 1 1 ++ put arg
  | .finish => toLE 1 2

def putTx : TxAnswer → List Byte
  | .ok => toLE 1 0
  | .fail => toLE 1 1

/-- The frame word of R142. -/
def putFrame (fr : Frame) : List Byte :=
  toLE 2 (fr.id.toNat + 2 ^ 11 * fr.dlc) ++ padData fr.data

def putFilter (fe : FilterEntry) : List Byte :=
  toLE 2 fe.address.toNat ++ (toLE 2 fe.mask.toNat ++ toLE 8 fe.chan.toNat)

def putPair (mx mn : BitVec 16) : List Byte := toLE 2 mx.toNat ++ toLE 2 mn.toNat

def putIdent (p : EpcProps) : List Byte :=
  toLE 1 p.canId.toNat ++ (toLE 1 p.fwVer.toNat ++ (toLE 2 p.hwVer.toNat ++ toLE 1 p.sn.toNat))

def putProps (p : EpcProps) : List Byte :=
  putIdent p ++ (putPair p.lsVoltMax p.lsVoltMin ++ (putPair p.lsCurrMax p.lsCurrMin ++
  (putPair p.hsVoltMax p.hsVoltMin ++ (putPair p.lsPwrMax p.lsPwrMin ++ putPair p.tempMax p.tempMin))))

def putEvent : BusEvent → List Byte
  | .frame fr => putFrame fr ++ toLE 1 0
  | .none => putFrame ⟨0, []⟩ ++ toLE 1 1
  | .errorFrame => putFrame ⟨0, []⟩ ++ toLE 1 2
  | .invalid => putFrame ⟨0, []⟩ ++ toLE 1 3

/-- A host operation's message: the operation code of R143, then the arguments. -/
def hostMessage (op : Nat) (args : List Byte) : Message := ⟨.hostOp, toLE 1 op ++ args⟩

def modeMessage (op e : Nat) (ref : Int) (lt : LimitType) (lr : Int) : Message :=
  hostMessage op (toLE 4 e ++ (putInt ref ++ (putLimitType lt ++ putInt lr)))

def limitMessage (op e : Nat) (mx mn : Int) : Message :=
  hostMessage op (toLE 4 e ++ (putInt mx ++ putInt mn))

def commandMessage (c : Command) (after : List Byte) : Message :=
  ⟨.commandWord, toLE 12 (commandWord c).toNat ++ after⟩

def workerMessage (k : Nat) (args : List Byte) : Message := ⟨.workerStep, toLE 1 k ++ args⟩

def epcMessage (type e : Nat) (dev : BitVec 7) (data : List Byte) : Message :=
  ⟨.canId, putFrame ⟨identifier dev.toNat type, data⟩ ++ toLE 4 e⟩

def bmsMessage (row b : Nat) (fr : Frame) (after : List Byte) : Message :=
  ⟨.bmsFrame, putFrame fr ++ (toLE 4 b ++ (toLE 1 row ++ after))⟩

/-- The message of an operation. -/
def encode : Instr → Message
  | .filterMatch id address mask =>
      ⟨.internal, toLE 2 id.toNat ++ (toLE 2 address.toNat ++ toLE 2 mask.toNat)⟩
  | .nodeSubmit word => hostMessage 0x00 (toLE 12 word.toNat)
  | .nodeStop => hostMessage 0x01 []
  | .chanRead chan => hostMessage 0x02 (toLE 8 chan.toNat)
  | .epcSetCvMode e ref lt lr => modeMessage 0x10 e ref lt lr
  | .epcSetCcMode e ref lt lr => modeMessage 0x11 e ref lt lr
  | .epcSetCpMode e ref lt lr => modeMessage 0x12 e ref lt lr
  | .epcSetWaitMode e lr => hostMessage 0x13 (toLE 4 e ++ putInt lr)
  | .epcDisable e => hostMessage 0x14 (toLE 4 e)
  | .epcSetPeriodic e ae ap ee ep te tp =>
      hostMessage 0x15 (toLE 4 e ++ (putInt ae ++ (putInt ap ++ (putInt ee ++ (putInt ep ++
        (putInt te ++ putInt tp))))))
  | .epcSetLsVoltLimit e mx mn => limitMessage 0x16 e mx mn
  | .epcSetLsCurrLimit e mx mn => limitMessage 0x17 e mx mn
  | .epcSetHsVoltLimit e mx mn => limitMessage 0x18 e mx mn
  | .epcSetLsPwrLimit e mx mn => limitMessage 0x19 e mx mn
  | .epcSetTempLimit e mx mn => limitMessage 0x1A e mx mn
  | .epcGetData e call => hostMessage 0x1B (toLE 4 e ++ putCall putBool call)
  | .epcGetProperties e update => hostMessage 0x1C (toLE 4 e ++ putBool update)
  | .epcOpen e turn => hostMessage 0x1D (toLE 4 e ++ putTurn turn)
  | .epcClose e turn => hostMessage 0x1E (toLE 4 e ++ putTurn turn)
  | .epcNew devId chan props => hostMessage 0x1F (toLE 8 devId ++ (toLE 8 chan.toNat ++ putProps props))
  | .bmsNew chan address mask now turn =>
      hostMessage 0x20 (putFilter ⟨address, mask, chan⟩ ++ (toLE 8 now ++ putTurn turn))
  | .bmsGetData b call => hostMessage 0x21 (toLE 4 b ++ putCall (toLE 8) call)
  | .bmsClose b turn => hostMessage 0x22 (toLE 4 b ++ putTurn turn)
  | .cmdSend fr tx => commandMessage (.send fr) (putTx tx)
  | .cmdAddFilter fe => commandMessage (.addFilter fe) []
  | .cmdRemoveFilter fe => commandMessage (.removeFilter fe) []
  | .cmdReserved rest => ⟨.commandWord, toLE 12 (reservedWord rest).toNat⟩
  | .wrkStart => workerMessage 0 []
  | .wrkApply tx => workerMessage 1 (putTx tx)
  | .wrkDrainEnd => workerMessage 2 []
  | .wrkPoll ev => workerMessage 3 (putEvent ev)
  | .wrkDeliver => workerMessage 4 []
  | .wrkShutdown => workerMessage 5 []
  | .wrkFatal => workerMessage 6 []
  | .rxData fr => ⟨.busEvent, putEvent (.frame fr)⟩
  | .rxNone => ⟨.busEvent, putEvent .none⟩
  | .rxErrorFrame => ⟨.busEvent, putEvent .errorFrame⟩
  | .rxInvalid => ⟨.busEvent, putEvent .invalid⟩
  | .epcRxMode e dev data => epcMessage 0x0 e dev data
  | .epcRxLsVoltLim e dev data => epcMessage 0x2 e dev data
  | .epcRxLsCurrLim e dev data => epcMessage 0x3 e dev data
  | .epcRxHsVoltLim e dev data => epcMessage 0x4 e dev data
  | .epcRxLsPwrLim e dev data => epcMessage 0x5 e dev data
  | .epcRxTempLim e dev data => epcMessage 0x6 e dev data
  | .epcRxPeriodic e dev data => epcMessage 0x7 e dev data
  | .epcRxInfo e dev data => epcMessage 0xA e dev data
  | .epcRxStatus e dev data => epcMessage 0xB e dev data
  | .epcRxElecMeas e dev data => epcMessage 0xC e dev data
  | .epcRxTempMeas e dev data => epcMessage 0xD e dev data
  | .epcRxIgnored e dev data => epcMessage 0x1 e dev data
  | .epcRxIgnored89 e dev low data => epcMessage (0x8 + low.toNat) e dev data
  | .epcRxIgnoredEF e dev low data => epcMessage (0xE + low.toNat) e dev data
  | .bmsRxEmpty b id => bmsMessage 0 b ⟨id, []⟩ []
  | .bmsRxMarker b id free code => bmsMessage 1 b (markerFrame id free code) []
  | .bmsRxSeqFault b fr => bmsMessage 2 b fr []
  | .bmsRxFragment b fr => bmsMessage 3 b fr []
  | .bmsRxLast b fr now => bmsMessage 4 b fr (toLE 8 now)
  | .bmsRxOdd b fr => bmsMessage 5 b fr []

/-! ## The words of opcode_table.json -/

/-- The length of a padded message: no operation is longer. -/
def slotBytes : Nat := 64

/-- The operation codes of R143. -/
def isPortCode (op : Nat) : Bool :=
  decide (op ≤ 0x02) || (decide (0x10 ≤ op) && decide (op ≤ 0x22))

/-- Under which format a bare table word is read. The table gives 8 bits to the rows of three formats whose
words overlap, and a bare word does not say its format: a word that is an operation code of R143 is read at
the operation port, another one of 8 bits as a CAN identifier; the wider words are the frame word of a bus
event and the command word (log 13). -/
def tableFormat (nbits w : Nat) : Format :=
  if nbits ≤ 8 then (if isPortCode w then .hostOp else .canId)
  else if nbits ≤ 80 then .busEvent
  else .commandWord

/-- The padded message of a bare table word. -/
def tableMessage (nbits w : Nat) : Message := ⟨tableFormat nbits w, toLE slotBytes w⟩

/-- The operation the decoder reads from a bare table word. -/
def decodeTableWord (nbits w : Nat) : Option Instr := decode (tableMessage nbits w)

end Sys2Proof
end

