-- ==== Sys2Proof/Machine/State.lean ====
section
/-! DEFINITION. The state of the block (10_state.md), the errors and answers of its operations (R400 to R402),
the outcome types of a step, and reset (R450 to R454). -/

namespace Sys2Proof.Machine

open Sys2Proof

/-! ## Errors and outcomes -/

/-- The error and outcome codes of R400, by name; their numbers are `ErrorCode.number` of Flags.lean. -/
inductive ErrorCode where
  | ok
  | noop
  | configConflict
  | rangeError
  | invalidLimitError
  | busError
  | sequencingFault
  | commTimeout
  | decodeAnomaly
  | queueFull
  | frameError
  | capacityError
  | queueClosed
  | fatal
  | markerFault
deriving DecidableEq, Repr

/-- What the worker records for a command (R40, R170), with the information R400 says is recorded. `fe` is the
entry of the command itself, not an installed one (DESIGN CHOICE, log 14). -/
inductive CmdOutcome where
  | ok
  | noop
  | configConflict (fe : FilterEntry)
  | capacityError (fe : FilterEntry)
  | busError (fr : Frame)
deriving DecidableEq, Repr

/-- What a host operation raises to its caller (R401), with the information R400 says is recorded. -/
inductive HostError where
  | configConflict (fe : FilterEntry)
  | rangeError (value : Int)
  | invalidLimitError (lt : LimitType)
  | busError (fr : Frame)
  | queueFull
  /-- the malformed command word of R180, R141 -/
  | frameError (word : BitVec 96)
  /-- the FrameError of `MakeFrame` (R110) -/
  | badFrame (id dlc : Nat)
  | capacityError (fe : FilterEntry)
  | queueClosed
deriving DecidableEq, Repr

/-! ## Node record -/

/-- `node.phase` (R36). -/
inductive Phase where
  | start
  | drain
  | poll
deriving DecidableEq, Repr

/-- The node record (R34 to R41, R44). -/
structure Node where
  /-- R34 -/
  working : Bool
  /-- R35 -/
  halted : Bool
  /-- R36 -/
  phase : Phase
  /-- R37, in insertion order -/
  filters : List FilterEntry
  /-- R38, the head first -/
  cmdq : List (Nat × Command)
  /-- R38 -/
  cmdqOpen : Bool
  /-- R39, names strictly rising (log 20) -/
  chans : List (ChanName × List Frame)
  /-- R40, the oldest first -/
  results : List (Nat × CmdOutcome)
  /-- R40 -/
  seq : Nat
  /-- R41 -/
  busHeld : Bool
  /-- R44 -/
  held : Option (Frame × ChanName)
  /-- R193, R400 row 13: the recorded end state `Fatal` (log 12) -/
  fatal : Bool
deriving DecidableEq, Repr

/-! ## EPC records -/

/-- The EPC modes (R117). -/
inductive Mode where
  | wait
  | cc
  | cv
  | cp
  | idle
  | error
deriving DecidableEq, Repr

/-- `status_kind` (R53). -/
inductive StatusKind where
  | ok
  | commError
  | internalError
deriving DecidableEq, Repr

/-- `e.live` (R53); `ref`, `limitRef`, `lsCurr`, `lsPwr` and the temperatures are two's complement. -/
structure EpcLive where
  outputEnable : BitVec 1
  mode : Mode
  limitMode : LimitType
  limitRef : BitVec 32
  ref : BitVec 16
  lsVolt : BitVec 16
  lsCurr : BitVec 16
  lsPwr : BitVec 16
  hsVolt : BitVec 16
  tempBody : BitVec 16
  tempAnode : BitVec 16
  tempAmb : BitVec 16
  statusKind : StatusKind
  statusCode : BitVec 58
  statusFlags : BitVec 6
deriving DecidableEq, Repr

/-- `e.periodic` (R54). -/
structure EpcPeriodic where
  ackEn : BitVec 1
  ackPeriod : BitVec 15
  electEn : BitVec 1
  electPeriod : BitVec 15
  tempEn : BitVec 1
  tempPeriod : BitVec 15
deriving DecidableEq, Repr

/-- The records of one EPC instance (R50 to R54). -/
structure Epc where
  devId : BitVec 6
  chan : ChanName
  opened : Bool
  props : EpcProps
  live : EpcLive
  periodic : EpcPeriodic
deriving DecidableEq, Repr

/-- The reset live data (R53, R452, D35). -/
def EpcLive.reset : EpcLive where
  outputEnable := 0
  mode := .wait
  limitMode := .time
  limitRef := 0
  ref := 0
  lsVolt := 0
  lsCurr := 0
  lsPwr := 0
  hsVolt := 0
  tempBody := 0
  tempAnode := 0
  tempAmb := 0
  statusKind := .ok
  statusCode := 0
  statusFlags := 0

/-- The reset periodic record (R54, R452, D30). -/
def EpcPeriodic.reset : EpcPeriodic := ⟨0, 0, 0, 0, 0, 0⟩

/-- A newly constructed EPC instance (R226, R452). -/
def Epc.reset (devId : BitVec 6) (chan : ChanName) (props : EpcProps) : Epc where
  devId := devId
  chan := chan
  opened := false
  props := props
  live := EpcLive.reset
  periodic := EpcPeriodic.reset

/-! ## BMS records -/

/-- `b.status` (R70). -/
inductive BmsStatus where
  | ok
  | commError
deriving DecidableEq, Repr

/-- `b.cause` (R70). -/
inductive BmsCause where
  | none
  | sequence
  | oddLength
  | marker
  | timeout
deriving DecidableEq, Repr

/-- The records of one BMS instance (R65 to R71). `snap` has 19 slots; none is the spec's `absent`. -/
structure Bms where
  chan : ChanName
  address : CanId
  mask : CanId
  opened : Bool
  nextIdx : Nat
  buf : List Byte
  lastTs : Nat
  status : BmsStatus
  cause : BmsCause
  errCode : Byte
  snap : List (Option (BitVec 16))
deriving DecidableEq, Repr

/-- A newly constructed BMS instance before its filter is applied (R308, R453). -/
def Bms.reset (chan : ChanName) (address mask : CanId) (now : Nat) : Bms where
  chan := chan
  address := address
  mask := mask
  opened := false
  nextIdx := 0
  buf := []
  lastTs := now
  status := .ok
  cause := .none
  errCode := 0
  snap := List.replicate 19 none

/-! ## The model's own fields -/

/-- What a host operation answers its caller (the `return` and `raise` of the rules; log 6). -/
inductive Reply where
  /-- FILTER.MATCH: the value of the predicate (R160) -/
  | matched (value : Bool)
  /-- NODE.SUBMIT: the sequence number given to the command (R180) -/
  | accepted (seq : Nat)
  /-- the call returned without a value -/
  | done
  /-- the call raised an error (R401) -/
  | raised (err : HostError)
  /-- CHAN.READ: FRAME(fr) (R182) -/
  | frame (fr : Frame)
  /-- CHAN.READ: EMPTY (R182) -/
  | empty
  /-- CHAN.READ: CLOSED (R182) -/
  | closed
  /-- EPC.GET_DATA: `e.live` (R223) -/
  | live (live : EpcLive)
  /-- EPC.GET_PROPERTIES: `e.props` (R227) -/
  | props (props : EpcProps)
  /-- BMS.GET_DATA: `(b.snap, b.status)` (R309) -/
  | snapshot (snap : List (Option (BitVec 16))) (status : BmsStatus)
  /-- EPC.NEW, BMS.NEW: the handle of the new instance (log 4) -/
  | handle (n : Nat)
  /-- the call is held until command `seq` has an outcome or the node halts (R420) -/
  | waiting (seq : Nat)
  /-- EPC.GET_DATA, BMS.GET_DATA: the call is in progress and has `left` frames still to decode (log 8) -/
  | draining (left : Nat)
  /-- NODE.STOP is held until the node halts (R192) -/
  | stopping
deriving DecidableEq, Repr

/-- The host calls that are held for a command's outcome (R224, R225, R308, R311). -/
inductive WaitKind where
  | epcOpen
  | epcClose
  | bmsNew
  | bmsClose
deriving DecidableEq, Repr

/-- One held call: the command it waits for, which call it is, and the handle of its instance. -/
structure Wait where
  seq : Nat
  kind : WaitKind
  target : Nat
deriving DecidableEq, Repr

/-- An instance, by its handle (log 4). -/
inductive Device where
  | epc (e : Nat)
  | bms (b : Nat)
deriving DecidableEq, Repr

/-- A monitoring call in progress on an instance (log 8): the frames that its drain has read from the channel and
that are still to be decoded, the oldest first, and the time the call was given (R309; 0 for an EPC). -/
structure Drain where
  device : Device
  frames : List Frame
  now : Nat
deriving DecidableEq, Repr

/-- The state of the block: the node record, the EPC and BMS records in the order of construction, and the
model's own fields (INVENTORY.md, State). -/
structure State where
  /-- the parameters of R8; no operation writes them (R73, log 2) -/
  cfg : Config
  node : Node
  epcs : List Epc
  bmses : List Bms
  /-- the answer the last host operation gave its caller (log 6) -/
  reply : Option Reply
  /-- the held host calls (R420, log 5) -/
  waits : List Wait
  /-- the monitoring calls in progress, at most one for each instance (R100, R211, R309, log 8) -/
  drains : List Drain
  /-- the operations scheduled next, the first one first (R406, log 1) -/
  agenda : List Message
  /-- how many operations the free environment has supplied (log 1) -/
  draws : Nat
deriving DecidableEq, Repr

/-- Why a step may stop with a fault: there is no such reason. No operation of the block traps (R407), a worker
fault is a transition (R193), and every error has a reporting path of its own (R401). -/
inductive Fault
deriving DecidableEq, Repr

/-- Why a step may be refused. -/
inductive Refusal where
  /-- An arm of `exec` without a meaning; none is left. Safe: the machine stops. -/
  | notModelled (mnemonic : String)
  /-- Raised by `step` for a message that is no operation: an operation code that R143 does not list or a
  malformed layout. Safe: the machine stops where the port refuses. -/
  | unknownOperation
  /-- Raised by a worker step, command row, bus row or BMS frame row whose selecting condition does not hold
  (R144, R196, R300): the block has no such transition there. Safe. -/
  | notSelected
  /-- Raised by an operation on an instance that was never constructed (log 4). Safe. -/
  | noSuchInstance
  /-- Raised by the second turn of a call that is not held (log 5), and by the return of a monitoring call that is not
  in progress (log 8). Safe. -/
  | noSuchCall
  /-- Raised by a host call on an instance while an `open`, a `close` or the construction of that instance is held or
  a monitoring call on it is in progress: the spec defines no overlapping calls on one instance (R422, R469,
  93_implementation_defined.md row 25; log 17). Safe: the machine stops where the block has no behaviour. -/
  | overlappingCall
deriving DecidableEq, Repr

/-- The result of one operation. -/
abbrev Result := Host.Outcome State Fault Refusal

/-! ## Reset -/

/-- The node record at creation (R451). -/
def Node.reset : Node where
  working := true
  halted := false
  phase := .start
  filters := []
  cmdq := []
  cmdqOpen := true
  chans := []
  results := []
  seq := 0
  busHeld := true
  held := none
  fatal := false

/-- The block at creation under configuration `c` (R450, R451): no instance is constructed yet, nothing is
scheduled. -/
def State.initial (c : Config) : State where
  cfg := c
  node := Node.reset
  epcs := []
  bmses := []
  reply := none
  waits := []
  drains := []
  agenda := []
  draws := 0

/-- The machine right after reset, under the test configuration (log 2). -/
def State.reset : State := State.initial Config.reference

end Sys2Proof.Machine
end

