-- ==== Sys2Proof/Machine/Flags.lean ====
section
/-! DEFINITION. Every flag and status computation: the error numbers (R400), the EPC status flags (R122, R269),
the capability predicates (R55), the derived power (R270), the tests of a BMS frame (R300). -/

namespace Sys2Proof.Machine

open Sys2Proof

/-! ## Error numbers -/

/-- The codes of R400. -/
def ErrorCode.number : ErrorCode → Nat
  | .ok => 0
  | .noop => 1
  | .configConflict => 2
  | .rangeError => 3
  | .invalidLimitError => 4
  | .busError => 5
  | .sequencingFault => 6
  | .commTimeout => 7
  | .decodeAnomaly => 8
  | .queueFull => 9
  | .frameError => 10
  | .capacityError => 11
  | .queueClosed => 12
  | .fatal => 13
  | .markerFault => 14

/-- The code of a command outcome (R40, R400). -/
def CmdOutcome.code : CmdOutcome → ErrorCode
  | .ok => .ok
  | .noop => .noop
  | .configConflict _ => .configConflict
  | .capacityError _ => .capacityError
  | .busError _ => .busError

/-- The code of a raised error (R400, R401). -/
def HostError.code : HostError → ErrorCode
  | .configConflict _ => .configConflict
  | .rangeError _ => .rangeError
  | .invalidLimitError _ => .invalidLimitError
  | .busError _ => .busError
  | .queueFull => .queueFull
  | .frameError _ => .frameError
  | .badFrame _ _ => .frameError
  | .capacityError _ => .capacityError
  | .queueClosed => .queueClosed

/-- The code that a BMS cause stands for (R400 rows 6, 7 and 14; R403). R400 gives no code for the cause NONE; that
it stands for OK, the code of an applied command, is the model's choice (DESIGN CHOICE, log 14). -/
def BmsCause.code : BmsCause → ErrorCode
  | .none => .ok
  | .sequence => .sequencingFault
  | .oddLength => .sequencingFault
  | .marker => .markerFault
  | .timeout => .commTimeout

/-- The code recorded as the node's end state (R404, R400 row 13). The spec names Fatal only; that a node which
has not faulted, stopped or still running, answers OK is the model's choice (DESIGN CHOICE, log 12). -/
def Node.endState (n : Node) : ErrorCode := if n.fatal then .fatal else .ok

/-! ## EPC status -/

/-- The communication fault flag, bit 3 (R56, R122). -/
def commFlag (flags : BitVec 6) : Bool := flags.getLsbD 3

/-- `status_kind` as STATUS decode computes it from the flags (R269, D23). -/
def statusKindOf (flags : BitVec 6) : StatusKind :=
  if flags = 0 then .ok else if commFlag flags then .commError else .internalError

/-- `status_code`: bits `8*dlc-1 .. 6` of the payload if a flag is set, else 0 (R122, R269). -/
def statusCodeOf (flags : BitVec 6) (w dlc : Nat) : BitVec 58 :=
  if flags = 0 then 0 else BitVec.ofNat 58 (bits w (8 * dlc - 1) 6)

/-! ## Capabilities (R55) -/

def hasBody (hwVer : BitVec 13) : Bool := hwVer.getLsbD 9

def hasAnode (hwVer : BitVec 13) : Bool := bits hwVer.toNat 8 7 != 0

def hasAmb (hwVer : BitVec 13) : Bool := hwVer.getLsbD 10

/-! ## Derived power -/

/-- `PowerDiv(p, 100000)` of R270 under `POWER_ROUNDING` (D26). -/
def powerDiv (rounding : Rounding) (p : Int) : Int :=
  match rounding with
  | .trunc => Int.tdiv p 100000
  | .floor => Int.fdiv p 100000

/-! ## BMS frame tests -/

/-- `IsMarker` (R300, R131): DLC 8, header 0x10, "ERROR"; byte 6 is free. -/
def isMarker (fr : Frame) : Bool :=
  decide (fr.dlc = 8) && decide (fr.data.take 6 = 0x10 :: errorText)

/-- `fragment_index`, header bits 3..0 (R130). -/
def fragmentIndex (header : Byte) : Nat := bits header.toNat 3 0

/-- `fragment_count`, header bits 7..4 (R130). -/
def fragmentCount (header : Byte) : Nat := bits header.toNat 7 4

end Sys2Proof.Machine
end

