-- ==== Sys2Proof/Machine/Operands.lean ====
section
/-! DEFINITION. The operand forms: frame construction (R110), mode and limit codes (R117, R118), the payloads the
encoder writes (R116, R120, R124, R126, R229), and the checks of the host calls (R215, R217, R226, R228, R231). -/

namespace Sys2Proof.Machine

open Sys2Proof

/-- `MakeFrame(id, dlc, payload)` (R110). -/
def makeFrame (id dlc : Nat) (payload : List Byte) : Except HostError Frame :=
  if dlc > 8 ∨ id > 0x7FF ∨ payload.length ≠ dlc then .error (.badFrame id dlc)
  else .ok ⟨BitVec.ofNat 11 id, payload⟩

/-- `LE(f)` of a frame (R12, R82). -/
def frameWord (fr : Frame) : Nat := leNat fr.data

/-! ## Codes -/

/-- `MODE_CODE(m)` (R117, D14). -/
def modeCode (c : ModeCodes) : Mode → BitVec 3
  | .wait => c.wait
  | .cc => c.cc
  | .cv => c.cv
  | .cp => c.cp
  | .idle => c.idle
  | .error => c.error

/-- The modes (R117). -/
def modes : List Mode := [.wait, .cc, .cv, .cp, .idle, .error]

/-- The mode with `MODE_CODE = k`; none for the reserved codes 6 and 7 (R117, R129, R261). -/
def modeOfCode (c : ModeCodes) (k : Nat) : Option Mode :=
  if k > 5 then none else modes.find? (fun m => decide ((modeCode c m).toNat = k))

/-- `LIMIT_CODE(lt)` (R118, D15). -/
def limitCode (c : LimitCodes) : LimitType → BitVec 2
  | .time => c.time
  | .voltage => c.voltage
  | .current => c.current
  | .power => c.power

/-- The limit type with `LIMIT_CODE = k` (R118); under a well-formed table every 2-bit code is one. -/
def limitOfCode (c : LimitCodes) (k : Nat) : LimitType :=
  if c.time.toNat = k then .time
  else if c.voltage.toNat = k then .voltage
  else if c.current.toNat = k then .current
  else .power

/-- The EPC message types (R114). -/
def typeMode : Nat := 0x0
def typeRequest : Nat := 0x1
def typeLsVoltLim : Nat := 0x2
def typeLsCurrLim : Nat := 0x3
def typeHsVoltLim : Nat := 0x4
def typeLsPwrLim : Nat := 0x5
def typeTempLim : Nat := 0x6
def typePeriodic : Nat := 0x7
def typeInfo : Nat := 0xA
def typeStatus : Nat := 0xB
def typeElecMeas : Nat := 0xC
def typeTempMeas : Nat := 0xD

/-! ## Signedness of the limit pairs -/

/-- The sign of a quantity's 16-bit fields: only the voltages are unsigned (R52, R124). -/
def signedQuantity : Quantity → Bool
  | .lsVolt => false
  | .lsCurr => true
  | .lsPwr => true
  | .hsVolt => false
  | .temp => true

/-- The integer a 16-bit field of quantity `q` stands for (R11, R124). -/
def fieldValue (q : Quantity) (v : BitVec 16) : Int :=
  if signedQuantity q then v.toInt else (v.toNat : Int)

/-- The stored maximum of a quantity (R52). -/
def propMax (p : EpcProps) : Quantity → BitVec 16
  | .lsVolt => p.lsVoltMax
  | .lsCurr => p.lsCurrMax
  | .lsPwr => p.lsPwrMax
  | .hsVolt => p.hsVoltMax
  | .temp => p.tempMax

/-- The stored minimum of a quantity (R52). -/
def propMin (p : EpcProps) : Quantity → BitVec 16
  | .lsVolt => p.lsVoltMin
  | .lsCurr => p.lsCurrMin
  | .lsPwr => p.lsPwrMin
  | .hsVolt => p.hsVoltMin
  | .temp => p.tempMin

/-- Write the pair of a quantity (R274). -/
def setPair (p : EpcProps) (q : Quantity) (mx mn : BitVec 16) : EpcProps :=
  match q with
  | .lsVolt => { p with lsVoltMax := mx, lsVoltMin := mn }
  | .lsCurr => { p with lsCurrMax := mx, lsCurrMin := mn }
  | .lsPwr => { p with lsPwrMax := mx, lsPwrMin := mn }
  | .hsVolt => { p with hsVoltMax := mx, hsVoltMin := mn }
  | .temp => { p with tempMax := mx, tempMin := mn }

/-- The quantities in the order R226 checks them. -/
def quantities : List Quantity := [.lsVolt, .lsCurr, .lsPwr, .hsVolt, .temp]

/-! ## Checks -/

/-- `v` lies in a closed range. -/
def inBounds (b : Bounds) (v : Int) : Bool := decide (b.min ≤ v) && decide (v ≤ b.max)

/-- `Bounds(e, ·)` of R228; the VOLTAGE bound is the low-side pair (D59). -/
def limitBounds (p : EpcProps) : LimitType → Bounds
  | .time => ⟨0, 2 ^ 31 - 1⟩
  | .voltage => ⟨fieldValue .lsVolt p.lsVoltMin, fieldValue .lsVolt p.lsVoltMax⟩
  | .current => ⟨fieldValue .lsCurr p.lsCurrMin, fieldValue .lsCurr p.lsCurrMax⟩
  | .power => ⟨fieldValue .lsPwr p.lsPwrMin, fieldValue .lsPwr p.lsPwrMax⟩

/-- The range of an s16 field (R228, D20; R231). -/
def s16Bounds : Bounds := ⟨-32768, 32767⟩

/-- The range of a u16 field (R231). -/
def u16Bounds : Bounds := ⟨0, 65535⟩

/-- `ModeCheck(e, q, ref, lt, lr)` (R228): the error it raises, if any, in the rule's order. -/
def modeCheck (p : EpcProps) (q : LimitType) (ref : Int) (lt : LimitType) (lr : Int) : Option HostError :=
  if lt = q then some (.invalidLimitError lt)
  else if !(inBounds (limitBounds p q) ref && inBounds s16Bounds ref) then some (.rangeError ref)
  else if !inBounds (limitBounds p lt) lr then some (.rangeError lr)
  else none

/-- The check of `set_wait_mode` (R215). -/
def waitCheck (lr : Int) : Option HostError :=
  if inBounds (⟨0, 2 ^ 31 - 1⟩ : Bounds) lr then none else some (.rangeError lr)

/-- The first value that fails a test, as a RangeError. -/
def firstOutside (ok : Int → Bool) : List Int → Option HostError
  | [] => none
  | v :: vs => if ok v then firstOutside ok vs else some (.rangeError v)

/-- The checks of `set_periodic` (R217): the enables, then the periods. -/
def periodicCheck (ae ap ee ep te tp : Int) : Option HostError :=
  match firstOutside (inBounds (⟨0, 1⟩ : Bounds)) [ae, ee, te] with
  | some err => some err
  | none => firstOutside (inBounds (⟨0, 32767⟩ : Bounds)) [ap, ep, tp]

/-- The checks of `SetLimit` (R231) on one value: the hardware bounds and the field. -/
def limitValueOk (h : HwBounds) (q : Quantity) (v : Int) : Bool :=
  inBounds (h.of q) v && inBounds (if signedQuantity q then s16Bounds else u16Bounds) v

/-- The checks of `SetLimit` (R231): max, then min. -/
def limitCheck (h : HwBounds) (q : Quantity) (mx mn : Int) : Option HostError :=
  firstOutside (limitValueOk h q) [mx, mn]

/-- The pair of a quantity lies within the hardware bounds. -/
def pairWithin (h : HwBounds) (q : Quantity) (mx mn : BitVec 16) : Bool :=
  inBounds (h.of q) (fieldValue q mx) && inBounds (h.of q) (fieldValue q mn)

/-- The property checks of EPC.NEW (R226): each quantity in order, max before min. -/
def propsCheck (h : HwBounds) (p : EpcProps) : List Quantity → Option HostError
  | [] => none
  | q :: qs =>
      match firstOutside (inBounds (h.of q))
          [fieldValue q (propMax p q), fieldValue q (propMin p q)] with
      | some err => some err
      | none => propsCheck h p qs

/-- The checks of EPC.NEW (R226): the device id, then the properties. -/
def newCheck (h : HwBounds) (devId : Nat) (p : EpcProps) : Option HostError :=
  if devId > 63 then some (.rangeError devId) else propsCheck h p quantities

/-! ## Payloads the encoder writes -/

/-- `MakeFrame((dev_id << 4) | type, dlc, toLE(W, dlc))` of device `dev` (R110, R113). -/
def epcFrame (dev : BitVec 6) (type dlc w : Nat) : Except HostError Frame :=
  makeFrame (dev.toNat * 16 + type) dlc (toLE dlc w)

/-- `EncodeMode(e, en, m, lt, ref, lr)` (R229), the layout of R116; the fields are disjoint, so their sum is
their bitwise or. -/
def encodeMode (cfg : Config) (dev : BitVec 6) (en : Nat) (m : Mode) (lt : LimitType) (ref lr : Int) :
    Except HostError Frame :=
  epcFrame dev typeMode 8
    (en + 2 ^ 1 * (modeCode cfg.modeCode m).toNat + 2 ^ 4 * (limitCode cfg.limitCode lt).toNat +
      2 ^ 16 * uMod 16 ref + 2 ^ 32 * uMod 32 lr)

/-- The PERIODIC frame (R120, R217). -/
def encodePeriodic (dev : BitVec 6) (ae ap ee ep te tp : Int) : Except HostError Frame :=
  epcFrame dev typePeriodic 6
    (uMod 1 ae + 2 ^ 1 * uMod 15 ap + 2 ^ 16 * uMod 1 ee + 2 ^ 17 * uMod 15 ep + 2 ^ 32 * uMod 1 te +
      2 ^ 33 * uMod 15 tp)

/-- The limit frame (R124, R231). -/
def encodeLimit (dev : BitVec 6) (type : Nat) (mx mn : Int) : Except HostError Frame :=
  epcFrame dev type 4 (uMod 16 mx + 2 ^ 16 * uMod 16 mn)

/-- The REQUEST frame for a message type (R126). -/
def encodeRequest (dev : BitVec 6) (type : Nat) : Except HostError Frame := epcFrame dev typeRequest 1 type

/-- The frame of an EPC row: device `dev`, the row's message type, the data (R111, R114). -/
def rowFrame (dev : BitVec 7) (type : Nat) (data : List Byte) : Frame := ⟨identifier dev.toNat type, data⟩

/-- The types `get_data(true)` requests (R223). -/
def dataRequests : List Nat := [typeMode, typeStatus, typeElecMeas, typeTempMeas]

/-- The types `get_properties(true)` requests (R227). -/
def propertyRequests : List Nat :=
  [typeInfo, typeLsVoltLim, typeLsCurrLim, typeHsVoltLim, typeLsPwrLim, typeTempLim]

end Sys2Proof.Machine
end

