-- ==== Sys2Proof/Machine/Ops.lean ====
section
/-! DEFINITION. The shared operations: the channel map (R39), submit (R180), channel reads (R182), the worker's
command application (R170 to R175), dispatch (R161, R171), shutdown (R194), raising an error (R401), the
held calls (R420), the drains (R211), and the fetch of the next operation (log 1). -/

namespace Sys2Proof.Machine

open Sys2Proof

/-! ## Updates of the state -/

/-- Replace the node record. -/
def State.withNode (s : State) (n : Node) : State := { s with node := n }

/-- Replace the records of EPC instance `e`. -/
def State.withEpc (s : State) (e : Nat) (r : Epc) : State := { s with epcs := s.epcs.set e r }

/-- Replace the records of BMS instance `b`. -/
def State.withBms (s : State) (b : Nat) (r : Bms) : State := { s with bmses := s.bmses.set b r }

/-- Construct an EPC instance; its handle is the number of instances before it (log 4). -/
def State.addEpc (s : State) (r : Epc) : State := { s with epcs := s.epcs ++ [r] }

/-- Construct a BMS instance; its handle is the number of instances before it (log 4). -/
def State.addBms (s : State) (r : Bms) : State := { s with bmses := s.bmses ++ [r] }

/-- Return a value to the caller (log 6). -/
def State.answer (s : State) (r : Reply) : State := { s with reply := some r }

/-- `raise E(info)` (R13, R401, R407): the operation ends, the error goes to the caller, and nothing else
changes. The block has no other exception entry (R407), and no return from one (R408). -/
def State.raise (s : State) (err : HostError) : State := s.answer (.raised err)

/-- Begin to hold a call (R420, log 5). -/
def State.hold (s : State) (w : Wait) : State := { s with waits := s.waits ++ [w] }

/-- End the hold of a call. -/
def State.release (s : State) (w : Wait) : State := { s with waits := s.waits.filter (· ≠ w) }

/-- A monitoring call begins on an instance (log 8). -/
def State.beginDrain (s : State) (x : Drain) : State := { s with drains := s.drains ++ [x] }

/-- Replace the frames that the monitoring call on an instance has still to decode. -/
def State.putFrames (s : State) (d : Device) (q : List Frame) : State :=
  { s with drains := s.drains.map (fun x => if x.device = d then { x with frames := q } else x) }

/-- The monitoring call on an instance returns. -/
def State.endDrain (s : State) (d : Device) : State := { s with drains := s.drains.filter (fun x => x.device ≠ d) }

/-! ## The channel map (R39)

A list of (name, FIFO) with names strictly rising, so that equal maps are equal data (log 20). -/

/-- The FIFO of a name, none if the name is not in the map. -/
def chanGet : List (ChanName × List Frame) → ChanName → Option (List Frame)
  | [], _ => none
  | (k, q) :: m, n => if k = n then some q else chanGet m n

/-- Bind a name to a FIFO. -/
def chanPut : List (ChanName × List Frame) → ChanName → List Frame → List (ChanName × List Frame)
  | [], n, q => [(n, q)]
  | (k, p) :: m, n, q =>
      if n.toNat < k.toNat then (n, q) :: (k, p) :: m
      else if k = n then (n, q) :: m
      else (k, p) :: chanPut m n q

/-- Delete a name with its contents. -/
def chanDel (m : List (ChanName × List Frame)) (n : ChanName) : List (ChanName × List Frame) :=
  m.filter (fun p => p.1 ≠ n)

/-- The canonical form of the map: names strictly rising. -/
def chansSorted : List (ChanName × List Frame) → Bool
  | [] => true
  | (k, _) :: m => m.all (fun p => decide (k.toNat < p.1.toNat)) && chansSorted m

/-- What a channel read returns (R182). -/
inductive ReadResult where
  | closed
  | empty
  | frame (fr : Frame)
deriving DecidableEq, Repr

/-- `ChannelRead(n)` (R182): the result and the map after it; the read takes the head of the FIFO. -/
def chanRead (m : List (ChanName × List Frame)) (n : ChanName) :
    ReadResult × List (ChanName × List Frame) :=
  match chanGet m n with
  | none => (.closed, m)
  | some [] => (.empty, m)
  | some (fr :: q) => (.frame fr, chanPut m n q)

/-! ## The filter matcher -/

/-- `Match(id, f)` (R160). -/
def filterMatches (id address mask : CanId) : Bool := decide (id &&& mask = address &&& mask)

/-- `FirstMatch(id)` (R161): the first entry in insertion order. -/
def firstMatch : List FilterEntry → CanId → Option FilterEntry
  | [], _ => none
  | f :: fs, id => if filterMatches id f.address f.mask then some f else firstMatch fs id

/-- `Dispatch(fr)` (R171). -/
def dispatch (cfg : Config) (n : Node) (fr : Frame) : Node :=
  match firstMatch n.filters fr.id with
  | none => n
  | some f =>
      match chanGet n.chans f.chan with
      | none => n
      | some q =>
          if q.length < cfg.chanDepth then { n with chans := chanPut n.chans f.chan (q ++ [fr]) }
          else
            match cfg.chanFullPolicy with
            | .dropNewest => n
            | .block => { n with held := some (fr, f.chan) }

/-! ## Commands -/

/-- `Submit(c)` (R180) for a command: its sequence number and the node after it, or the error raised. -/
def submit (cfg : Config) (n : Node) (c : Command) : Except HostError (Nat × Node) :=
  if !n.cmdqOpen then .error .queueClosed
  else if n.cmdq.length = cfg.cmdDepth then .error .queueFull
  else .ok (n.seq, { n with cmdq := n.cmdq ++ [(n.seq, c)], seq := n.seq + 1 })

/-- `Submit` of a command word (R180, R141): closed, malformed, full, in that order (R405). -/
def submitWord (cfg : Config) (n : Node) (word : BitVec 96) : Except HostError (Nat × Node) :=
  if !n.cmdqOpen then .error .queueClosed
  else
    match commandOfWord word with
    | none => .error (.frameError word)
    | some c => submit cfg n c

/-- An entry with the same `(address, mask)`, compared literally (R172, D4). -/
def sameKey (fs : List FilterEntry) (fe : FilterEntry) : Option FilterEntry :=
  fs.find? (fun g => decide (g.address = fe.address) && decide (g.mask = fe.mask))

/-- `ApplyAdd(fe)` (R172). An error records the command's own entry `fe` (R400 says "the filter entry"; that it is
not the installed one is the model's choice, log 14). -/
def applyAdd (cfg : Config) (n : Node) (fe : FilterEntry) : CmdOutcome × Node :=
  match sameKey n.filters fe with
  | some g => if g.chan = fe.chan then (.noop, n) else (.configConflict fe, n)
  | none =>
      if n.filters.any (fun g => decide (g.chan = fe.chan)) then (.configConflict fe, n)
      else if n.filters.length = cfg.nFilters then (.capacityError fe, n)
      else (.ok, { n with filters := n.filters ++ [fe], chans := chanPut n.chans fe.chan [] })

/-- `ApplySend(fr)` (R173); `tx` is the bus's answer. -/
def applySend (n : Node) (fr : Frame) (tx : TxAnswer) : CmdOutcome × Node :=
  match tx with
  | .ok => (.ok, n)
  | .fail => (.busError fr, n)

/-- The held frame after channel `n` is deleted (R44, R175). -/
def discardHeld (held : Option (Frame × ChanName)) (n : ChanName) : Option (Frame × ChanName) :=
  match held with
  | some (fr, m) => if m = n then none else some (fr, m)
  | none => none

/-- `ApplyRemove(fe)` (R175). A conflict records the command's own entry `fe` (the model's choice, log 14). -/
def applyRemove (n : Node) (fe : FilterEntry) : CmdOutcome × Node :=
  match sameKey n.filters fe with
  | some g =>
      if g.chan = fe.chan then
        (.ok, { n with
          filters := n.filters.filter (· ≠ g)
          chans := chanDel n.chans g.chan
          held := discardHeld n.held g.chan })
      else (.configConflict fe, n)
  | none => (.noop, n)

/-- The application of one command (R170), by its tag. -/
def applyCommand (cfg : Config) (n : Node) (c : Command) (tx : TxAnswer) : CmdOutcome × Node :=
  match c with
  | .send fr => applySend n fr tx
  | .addFilter fe => applyAdd cfg n fe
  | .removeFilter fe => applyRemove n fe

/-- The worker applies the dequeued command and records its outcome (R170). -/
def applyHead (cfg : Config) (n : Node) (seq : Nat) (c : Command) (rest : List (Nat × Command))
    (tx : TxAnswer) : Node :=
  let r := applyCommand cfg { n with cmdq := rest } c tx
  { r.2 with results := r.2.results ++ [(seq, r.1)] }

/-! ## The worker -/

/-- The worker may take the steps of phase `p` (R196): not halted, no held frame, in that phase. -/
def workerAt (n : Node) (p : Phase) : Bool :=
  !n.halted && decide (n.held = none) && decide (n.phase = p)

/-- `Shutdown()` (R194). -/
def shutdown (n : Node) : Node :=
  { n with
    chans := []
    filters := []
    cmdq := []
    cmdqOpen := false
    held := none
    busHeld := false
    halted := true }

/-- WRK.START (R189). -/
def startStep (n : Node) : Node := if n.working then { n with phase := .drain } else shutdown n

/-- WRK.POLL (R191) with the bus event `ev`. -/
def pollStep (cfg : Config) (n : Node) (ev : BusEvent) : Node :=
  match ev with
  | .frame fr => { dispatch cfg n fr with phase := .start }
  | .none => { n with phase := .start }
  | .errorFrame => { n with phase := .start }
  | .invalid => { n with phase := .start }

/-- WRK.FATAL (R193); the end state is recorded (log 12). -/
def fatalStep (n : Node) : Node :=
  { n with working := false, held := none, phase := .start, fatal := true }

/-- A step of the worker in phase `p`; it is refused where it is not selected (R144, log 7). -/
def workerStep (p : Phase) (s : State) (f : Node → Node) : Result :=
  if workerAt s.node p then .next (s.withNode (f s.node)) else .refused .notSelected

/-- One application of the head command, when the head is one that `sel` selects (R170, log 9). -/
def applyStep (s : State) (tx : TxAnswer) (sel : Command → Bool) : Result :=
  if workerAt s.node .drain then
    match s.node.cmdq with
    | (seq, c) :: rest =>
        if sel c then .next (s.withNode (applyHead s.cfg s.node seq c rest tx))
        else .refused .notSelected
    | [] => .refused .notSelected
  else .refused .notSelected

/-! ## Host calls on an instance -/

/-- The held call is an `open` or a `close` of an EPC. -/
def WaitKind.onEpc : WaitKind → Bool
  | .epcOpen => true
  | .epcClose => true
  | .bmsNew => false
  | .bmsClose => false

/-- The monitoring call in progress on an instance, if there is one (log 8). -/
def drainOf (s : State) (d : Device) : Option Drain := s.drains.find? (fun x => decide (x.device = d))

/-- No monitoring call is in progress on an instance. -/
def drainFree (s : State) (d : Device) : Bool := s.drains.all (fun x => decide (x.device ≠ d))

/-- No call on EPC instance `e` is held or in progress (R469). -/
def epcFree (s : State) (e : Nat) : Bool :=
  s.waits.all (fun w => !(w.kind.onEpc && decide (w.target = e))) && drainFree s (.epc e)

/-- No call on BMS instance `b` is held or in progress (R469). -/
def bmsFree (s : State) (b : Nat) : Bool :=
  s.waits.all (fun w => !(!w.kind.onEpc && decide (w.target = b))) && drainFree s (.bms b)

/-- An operation on the records of EPC instance `e`: refused if it was never constructed (log 4). -/
def atEpc (s : State) (e : Nat) (f : Epc → Result) : Result :=
  match s.epcs[e]? with
  | some r => f r
  | none => .refused .noSuchInstance

/-- An operation on the records of BMS instance `b`, refused as `atEpc` says. -/
def atBms (s : State) (b : Nat) (f : Bms → Result) : Result :=
  match s.bmses[b]? with
  | some r => f r
  | none => .refused .noSuchInstance

/-- A new host call on EPC instance `e`: refused while another call on it is held or in progress (R469,
93_implementation_defined.md row 25). -/
def onEpc (s : State) (e : Nat) (f : Epc → Result) : Result :=
  atEpc s e (fun r => if epcFree s e then f r else .refused .overlappingCall)

/-- A new host call on BMS instance `b`, refused as `onEpc` says. -/
def onBms (s : State) (b : Nat) (f : Bms → Result) : Result :=
  atBms s b (fun r => if bmsFree s b then f r else .refused .overlappingCall)

/-! ## Drains -/

/-- The reads of a drain (R211, R309): at most `k` reads of channel `n`, ended by EMPTY or CLOSED; the frames read,
the oldest first, and the channels after them. Decoding touches no channel, so a drain may read first and decode
then. -/
def takeFrames : Nat → List (ChanName × List Frame) → ChanName → List Frame × List (ChanName × List Frame)
  | 0, m, _ => ([], m)
  | k + 1, m, n =>
      match chanRead m n with
      | (.frame fr, m') => (fr :: (takeFrames k m' n).1, (takeFrames k m' n).2)
      | (.empty, _) => ([], m)
      | (.closed, _) => ([], m)

/-- A monitoring call on an instance begins (log 8): its drain reads at most `k` frames of channel `n`, which stay
with the call until the frame rows decode them. -/
def startDrain (s : State) (d : Device) (n : ChanName) (k now : Nat) : State :=
  let t := takeFrames k s.node.chans n
  ((s.withNode { s.node with chans := t.2 }).beginDrain ⟨d, t.1, now⟩).answer (.draining t.1.length)

/-- A monitoring call on an instance returns (log 8): once every frame read is decoded, `f` answers with the time of
the call; before that the call stays in progress. -/
def finishDrain (s : State) (d : Device) (f : Nat → State → State) : Result :=
  match drainOf s d with
  | some x =>
      if x.frames = [] then .next (f x.now (s.endDrain d)) else .next (s.answer (.draining x.frames.length))
  | none => .refused .noSuchCall

/-- The next frame of the call in progress on an instance is `fr` (R211, R309): `f` runs with the time of the call on
the state without that frame. If it is not, or no call is in progress, the block has no such step (R100; log 7,
log 8). -/
def onFrame (s : State) (d : Device) (fr : Frame) (f : Nat → State → Result) : Result :=
  match drainOf s d with
  | some x =>
      match x.frames with
      | g :: q => if g = fr then f x.now (s.putFrames d q) else .refused .notSelected
      | [] => .refused .notSelected
  | none => .refused .notSelected

/-- The submit of a waiting call (R224, R225, R308, R311): the command goes into the queue and the call is
held, or the error is raised. -/
def issueCall (s : State) (c : Command) (kind : WaitKind) (target : Nat) : State :=
  match submit s.cfg s.node c with
  | .error err => s.raise err
  | .ok (seq, n) => ((s.withNode n).hold ⟨seq, kind, target⟩).answer (.waiting seq)

/-- What a held call finds (R224): the outcome of its command, or that the node halted without one, or
neither. -/
inductive WaitView where
  | outcome (o : CmdOutcome)
  | halted
  | pending
deriving DecidableEq, Repr

/-- Look for the outcome of command `seq` in `node.results`, then at `node.halted` (R224). -/
def waitView (n : Node) (seq : Nat) : WaitView :=
  match n.results.lookup seq with
  | some o => .outcome o
  | none => if n.halted then .halted else .pending

/-- The error that a waiting call raises for an outcome; none for OK and NOOP, with which it succeeds
(R224, R225, R308, R311). -/
def outcomeError : CmdOutcome → Option HostError
  | .ok => none
  | .noop => none
  | .configConflict fe => some (.configConflict fe)
  | .capacityError fe => some (.capacityError fe)
  | .busError fr => some (.busError fr)

/-- The second turn of a held call: while it is pending it stays held; on success `good` gives the state and
the answer, on an error outcome the error is raised, and `atHalt` says what a halt without an outcome does.
A call that is not held has no such turn (log 5). -/
def resumeCall (s : State) (seq : Nat) (kind : WaitKind) (target : Nat) (good : State → State)
    (atHalt : State → State) : Result :=
  if ⟨seq, kind, target⟩ ∈ s.waits then
    match waitView s.node seq with
    | .pending => .next (s.answer (.waiting seq))
    | .halted => .next (atHalt (s.release ⟨seq, kind, target⟩))
    | .outcome o =>
        match outcomeError o with
        | none => .next (good (s.release ⟨seq, kind, target⟩))
        | some err => .next ((s.release ⟨seq, kind, target⟩).raise err)
  else .refused .noSuchCall

/-- Write `e.opened`. -/
def State.setEpcOpened (s : State) (e : Nat) (v : Bool) : State :=
  { s with epcs := s.epcs.modify e (fun r => { r with opened := v }) }

/-- Write `b.opened`. -/
def State.setBmsOpened (s : State) (b : Nat) (v : Bool) : State :=
  { s with bmses := s.bmses.modify b (fun r => { r with opened := v }) }

/-- The filter of an EPC instance (R50, R113): `(dev_id << 4, 0x7F0, chan)`. -/
def epcFilter (r : Epc) : FilterEntry := ⟨identifier r.devId.toNat 0, 0x7F0, r.chan⟩

/-- The filter of a BMS instance (R65). -/
def bmsFilter (r : Bms) : FilterEntry := ⟨r.address, r.mask, r.chan⟩

/-! ## Fetch -/

/-- The next operation message and the state after taking it: the head of the agenda, or past its end what
the free environment supplies (log 1). -/
def fetch (s : State) : Message × State :=
  match s.agenda with
  | m :: rest => (m, { s with agenda := rest })
  | [] => (Config.environment s.draws, { s with draws := s.draws + 1 })

/-- A blank EPC or BMS instance, for `placed` only. -/
def blankEpc : Epc := Epc.reset 0 0 ⟨0, 0, 0, 0, 0, 0, 0, 0, 0, 0, 0, 0, 0, 0⟩

/-- See `blankEpc`. -/
def blankBms : Bms := Bms.reset 0 0 0 0

/-- The operations that act on an EPC instance. -/
def actsOnEpc : Instr → Bool
  | .epcSetCvMode .. | .epcSetCcMode .. | .epcSetCpMode .. | .epcSetWaitMode .. | .epcDisable ..
  | .epcSetPeriodic .. | .epcSetLsVoltLimit .. | .epcSetLsCurrLimit .. | .epcSetHsVoltLimit ..
  | .epcSetLsPwrLimit .. | .epcSetTempLimit .. | .epcGetData .. | .epcGetProperties .. | .epcOpen ..
  | .epcClose .. | .epcRxMode .. | .epcRxLsVoltLim .. | .epcRxLsCurrLim .. | .epcRxHsVoltLim ..
  | .epcRxLsPwrLim .. | .epcRxTempLim .. | .epcRxPeriodic .. | .epcRxInfo .. | .epcRxStatus ..
  | .epcRxElecMeas .. | .epcRxTempMeas .. | .epcRxIgnored .. | .epcRxIgnored89 ..
  | .epcRxIgnoredEF .. => true
  | _ => false

/-- The operations that act on a BMS instance. -/
def actsOnBms : Instr → Bool
  | .bmsGetData .. | .bmsClose .. => true
  | _ => false

/-- The node at which the worker's next step is the one that a command word or a bus event selects: the
command at the head of the queue in DRAIN, or POLL. -/
def placedNode (n : Node) : Instr → Node
  | .cmdSend fr _ =>
      { n with halted := false, held := none, phase := .drain, cmdq := (n.seq, .send fr) :: n.cmdq }
  | .cmdAddFilter fe =>
      { n with halted := false, held := none, phase := .drain, cmdq := (n.seq, .addFilter fe) :: n.cmdq }
  | .cmdRemoveFilter fe =>
      { n with halted := false, held := none, phase := .drain, cmdq := (n.seq, .removeFilter fe) :: n.cmdq }
  | .rxData _ => { n with halted := false, held := none, phase := .poll }
  | .rxNone => { n with halted := false, held := none, phase := .poll }
  | .rxErrorFrame => { n with halted := false, held := none, phase := .poll }
  | .rxInvalid => { n with halted := false, held := none, phase := .poll }
  | _ => n

/-- The instance and the frame of an EPC frame row; the frame's identifier has the row's message type (R114). -/
def rowOfEpc : Instr → Option (Nat × Frame)
  | .epcRxMode e dev data => some (e, rowFrame dev typeMode data)
  | .epcRxLsVoltLim e dev data => some (e, rowFrame dev typeLsVoltLim data)
  | .epcRxLsCurrLim e dev data => some (e, rowFrame dev typeLsCurrLim data)
  | .epcRxHsVoltLim e dev data => some (e, rowFrame dev typeHsVoltLim data)
  | .epcRxLsPwrLim e dev data => some (e, rowFrame dev typeLsPwrLim data)
  | .epcRxTempLim e dev data => some (e, rowFrame dev typeTempLim data)
  | .epcRxPeriodic e dev data => some (e, rowFrame dev typePeriodic data)
  | .epcRxInfo e dev data => some (e, rowFrame dev typeInfo data)
  | .epcRxStatus e dev data => some (e, rowFrame dev typeStatus data)
  | .epcRxElecMeas e dev data => some (e, rowFrame dev typeElecMeas data)
  | .epcRxTempMeas e dev data => some (e, rowFrame dev typeTempMeas data)
  | .epcRxIgnored e dev data => some (e, rowFrame dev typeRequest data)
  | .epcRxIgnored89 e dev low data => some (e, rowFrame dev (0x8 + low.toNat) data)
  | .epcRxIgnoredEF e dev low data => some (e, rowFrame dev (0xE + low.toNat) data)
  | _ => none

/-- The call in progress whose next frame is that of an EPC row. -/
def placedDrains (i : Instr) : List Drain :=
  match rowOfEpc i with
  | some (e, fr) => [⟨.epc e, [fr], 0⟩]
  | none => []

/-- What the operation read from a bare table word takes to be selected (log 13): the instance it acts on, if
none is constructed yet, with no call held, the worker's selection, and the call in progress that an EPC row takes its
frame from. -/
def placed (s : State) (i : Instr) : State :=
  { s with
    node := placedNode s.node i
    epcs := if actsOnEpc i && s.epcs.isEmpty then [blankEpc] else s.epcs
    bmses := if actsOnBms i && s.bmses.isEmpty then [blankBms] else s.bmses
    waits := if actsOnEpc i || actsOnBms i then [] else s.waits
    drains := if actsOnEpc i || actsOnBms i then placedDrains i else s.drains }

/-- Put a message at the head of the agenda, with what its operation takes to be selected. -/
def place (s : State) (m : Message) : State :=
  let t := match decode m with
    | some i => placed s i
    | none => s
  { t with agenda := m :: t.agenda }

end Sys2Proof.Machine
end

