-- ==== Sys2Proof/Machine/BmsFrame.lean ====
section
/-! DEFINITION. The BMS reassembler on one frame (R300 to R307), and the rows BMS.RX_*, each the processing of
the next frame of a drain of a host call in progress, which selects that row (R300, R309; log 8). -/

namespace Sys2Proof.Machine

open Sys2Proof

/-- The rows of R300, in the order in which they are selected. -/
inductive BmsRow where
  | empty
  | marker
  | seqFault
  | fragment
  | last
  | odd
deriving DecidableEq, Repr

/-- `AccReset(b)` (R305): the timestamp, the snapshot and the status stay. -/
def accReset (b : Bms) : Bms := { b with nextIdx := 0, buf := [] }

/-- One slot of `Pack` (R306, R83): little-endian, none where the body does not reach. -/
def packSlot (buf : List Byte) (k : Nat) : Option (BitVec 16) :=
  match buf.drop (2 * k) with
  | lo :: hi :: _ => some (BitVec.ofNat 16 (lo.toNat + 256 * hi.toNat))
  | _ => none

/-- `Pack(buf)` (R306): 19 slots; bytes from position 38 on are ignored. -/
def pack (buf : List Byte) : List (Option (BitVec 16)) := (List.range 19).map (packSlot buf)

/-- The data bytes of a fragment: all after the header (R130). -/
def fragmentData (fr : Frame) : List Byte := fr.data.drop 1

/-- Which row of R300 a frame selects: empty, then marker, then sequence, then the count and the parity of
the bytes gathered (R303, R304). A count of 0 never ends a message (D41). -/
def selectRow (b : Bms) (fr : Frame) : BmsRow :=
  match fr.data with
  | [] => .empty
  | header :: data =>
      if isMarker fr then .marker
      else if fragmentIndex header ≠ b.nextIdx then .seqFault
      else if fragmentIndex header + 1 ≠ fragmentCount header then .fragment
      else if (b.buf ++ data).length % 2 = 1 then .odd
      else .last

/-- `RxEmpty` (R307): no state change. -/
def rxEmpty (b : Bms) : Bms := b

/-- `RxMarker` (R301): the accumulator is not touched. -/
def rxMarker (b : Bms) (code : Byte) : Bms :=
  { b with status := .commError, cause := .marker, errCode := code }

/-- `RxSeqFault` (R302): the offending fragment is dropped with the bytes gathered (D40). -/
def rxSeqFault (b : Bms) : Bms := accReset { b with status := .commError, cause := .sequence }

/-- `RxAccept` of a fragment that does not end the message (R303). -/
def rxFragment (b : Bms) (fr : Frame) : Bms :=
  { b with buf := b.buf ++ fragmentData fr, nextIdx := b.nextIdx + 1 }

/-- `RxAccept` of the last fragment with an even length (R303). -/
def rxLast (b : Bms) (fr : Frame) (now : Nat) : Bms :=
  accReset { b with
    snap := pack (b.buf ++ fragmentData fr)
    status := .ok
    cause := .none
    lastTs := now }

/-- `RxOdd` (R304): the snapshot and the timestamp stay. -/
def rxOdd (b : Bms) : Bms := accReset { b with status := .commError, cause := .oddLength }

/-- The fault code of a marker, byte 7 (R131). -/
def markerCode (fr : Frame) : Byte := fr.data.getD 7 0

/-- `ProcessFrame(b, fr, now)` (R300). -/
def processFrame (b : Bms) (fr : Frame) (now : Nat) : Bms :=
  match selectRow b fr with
  | .empty => rxEmpty b
  | .marker => rxMarker b (markerCode fr)
  | .seqFault => rxSeqFault b
  | .fragment => rxFragment b fr
  | .last => rxLast b fr now
  | .odd => rxOdd b

/-- A BMS frame row: `get_data` on instance `b` is in progress, the next frame of its drain is `fr`, which selects
`row`, and `f` processes it with the time of the call (R100, R300, R309; log 8). -/
def bmsRx (s : State) (b : Nat) (fr : Frame) (row : BmsRow) (f : Nat → Bms → Option Bms) : Result :=
  atBms s b (fun r => onFrame s (.bms b) fr (fun now t =>
    if selectRow r fr = row then
      match f now r with
      | some r' => .next (t.withBms b r')
      | none => .refused .notSelected
    else .refused .notSelected))

/-- BMS.RX_EMPTY (R307). -/
def execBmsRxEmpty (b : Nat) (id : CanId) (s : State) : Result :=
  bmsRx s b ⟨id, []⟩ .empty (fun _ r => some (rxEmpty r))

/-- BMS.RX_MARKER (R301). -/
def execBmsRxMarker (b : Nat) (id : CanId) (free errCode : Byte) (s : State) : Result :=
  bmsRx s b (markerFrame id free errCode) .marker
    (fun _ r => some (rxMarker r (markerCode (markerFrame id free errCode))))

/-- BMS.RX_SEQ_FAULT (R302). -/
def execBmsRxSeqFault (b : Nat) (fr : Frame) (s : State) : Result :=
  bmsRx s b fr .seqFault (fun _ r => some (rxSeqFault r))

/-- BMS.RX_FRAGMENT (R303). -/
def execBmsRxFragment (b : Nat) (fr : Frame) (s : State) : Result :=
  bmsRx s b fr .fragment (fun _ r => some (rxFragment r fr))

/-- BMS.RX_LAST (R303); its time is that of the call (R309, D44). -/
def execBmsRxLast (b : Nat) (fr : Frame) (now : Nat) (s : State) : Result :=
  bmsRx s b fr .last (fun t r => if t = now then some (rxLast r fr now) else none)

/-- BMS.RX_ODD (R304). -/
def execBmsRxOdd (b : Nat) (fr : Frame) (s : State) : Result :=
  bmsRx s b fr .odd (fun _ r => some (rxOdd r))

end Sys2Proof.Machine
end

