-- ==== Sys2Proof/Machine/BmsHost.lean ====
section
/-! DEFINITION. The host calls of a BMS instance: BMS.NEW (R308), BMS.GET_DATA (R309, R310), BMS.CLOSE (R311). -/

namespace Sys2Proof.Machine

open Sys2Proof

/-- The channel map and the record after the drain of `get_data` (R309): the frames read, at most `BMS_DRAIN_MAX`,
are processed in order, every one stamped with the same `now` (D44). -/
def bmsDrained (s : State) (b : Bms) (now : Nat) : List (ChanName × List Frame) × Bms :=
  let t := takeFrames s.cfg.bmsDrainMax s.node.chans b.chan
  (t.2, t.1.foldl (fun x fr => processFrame x fr now) b)

/-- `TimeoutCheck(b, now)` (R310): strictly more than the timeout, and only from OK. A `now` before `lastTs`
breaks a host duty (R422) and is no timeout (log 17). -/
def timeoutCheck (cfg : Config) (b : Bms) (now : Nat) : Bms :=
  if now - b.lastTs > cfg.bmsTimeoutMs ∧ b.status = .ok then
    accReset { b with status := .commError, cause := .timeout }
  else b

/-- BMS.NEW (R308): a new instance, its filter submitted, and a wait; with OK or NOOP it is opened and its
handle is the answer. The record stays when the submit or the filter command fails (R401, R407; log 11). -/
def execBmsNew (chan : ChanName) (address mask : CanId) (now : Nat) (turn : Turn) (s : State) : Result :=
  match turn with
  | .issue =>
      .next (issueCall (s.addBms (Bms.reset chan address mask now))
        (.addFilter (bmsFilter (Bms.reset chan address mask now))) .bmsNew s.bmses.length)
  | .resume seq =>
      match s.waits.find? (fun w => decide (w.seq = seq) && decide (w.kind = .bmsNew)) with
      | some w =>
          resumeCall s seq .bmsNew w.target
            (fun t => (t.setBmsOpened w.target true).answer (.handle w.target))
            (fun t => t.raise .queueClosed)
      | none => .refused .noSuchCall

/-- The end of `get_data` (R309): the timeout check, then the answer. -/
def answerBms (s : State) (b : Nat) (r : Bms) (now : Nat) : State :=
  let r' := timeoutCheck s.cfg r now
  (s.withBms b r').answer (.snapshot r'.snap r'.status)

/-- BMS.GET_DATA (R309): drain, then the timeout check; never fails. In two transitions (log 8), the reads of the
drain come first, the timeout check and the answer last. -/
def execBmsGetData (b : Nat) (call : MonitorCall Nat) (s : State) : Result :=
  match call with
  | .whole now =>
      onBms s b (fun r =>
        let d := bmsDrained s r now
        .next (answerBms (s.withNode { s.node with chans := d.1 }) b d.2 now))
  | .start now => onBms s b (fun r => .next (startDrain s (.bms b) r.chan s.cfg.bmsDrainMax now))
  | .finish => atBms s b (fun r => finishDrain s (.bms b) (fun now t => answerBms t b r now))

/-- BMS.CLOSE (R311): submit the removal and wait; with OK, NOOP or a halt the instance is closed. -/
def execBmsClose (b : Nat) (turn : Turn) (s : State) : Result :=
  match turn with
  | .issue => onBms s b (fun r => .next (issueCall s (.removeFilter (bmsFilter r)) .bmsClose b))
  | .resume seq =>
      resumeCall s seq .bmsClose b
        (fun t => (t.setBmsOpened b false).answer .done)
        (fun t => (t.setBmsOpened b false).answer .done)

end Sys2Proof.Machine
end

