-- ==== Sys2Proof/Machine/EpcDecode.lean ====
section
/-! DEFINITION. The EPC decoder (42_epc_decode.md): the decoding of one frame by message type (R260), and the
rows EPC.RX_*, each the decoding of the next frame of a drain (R211) of a host call in progress (log 8). -/

namespace Sys2Proof.Machine

open Sys2Proof

/-- `DecodeMode` (R261); a short frame (R272) or a reserved mode code is ignored. -/
def decodeMode (cfg : Config) (r : Epc) (fr : Frame) : Epc :=
  if fr.dlc < 8 then r
  else
    match modeOfCode cfg.modeCode (bits (frameWord fr) 3 1) with
    | none => r
    | some m =>
        { r with live := { r.live with
            outputEnable := BitVec.ofNat 1 (bits (frameWord fr) 0 0)
            mode := m
            limitMode := limitOfCode cfg.limitCode (bits (frameWord fr) 5 4)
            ref := BitVec.ofNat 16 (bits (frameWord fr) 31 16)
            limitRef := BitVec.ofNat 32 (bits (frameWord fr) 63 32) } }

/-- `DecodeLimit(e, fr, q, sgn)` (R274); a short frame (R272) or a pair outside the hardware bounds is
ignored. -/
def decodeLimit (h : HwBounds) (q : Quantity) (r : Epc) (fr : Frame) : Epc :=
  if fr.dlc < 4 then r
  else
    let mx := BitVec.ofNat 16 (bits (frameWord fr) 15 0)
    let mn := BitVec.ofNat 16 (bits (frameWord fr) 31 16)
    if pairWithin h q mx mn then { r with props := setPair r.props q mx mn } else r

/-- `DecodePeriodic` (R267). -/
def decodePeriodic (r : Epc) (fr : Frame) : Epc :=
  if fr.dlc < 6 then r
  else
    { r with periodic :=
      { ackEn := BitVec.ofNat 1 (bits (frameWord fr) 0 0)
        ackPeriod := BitVec.ofNat 15 (bits (frameWord fr) 15 1)
        electEn := BitVec.ofNat 1 (bits (frameWord fr) 16 16)
        electPeriod := BitVec.ofNat 15 (bits (frameWord fr) 31 17)
        tempEn := BitVec.ofNat 1 (bits (frameWord fr) 32 32)
        tempPeriod := BitVec.ofNat 15 (bits (frameWord fr) 47 33) } }

/-- `DecodeInfo` (R268). -/
def decodeInfo (r : Epc) (fr : Frame) : Epc :=
  if fr.dlc < 4 then r
  else
    { r with props := { r.props with
        canId := BitVec.ofNat 6 (bits (frameWord fr) 5 0)
        fwVer := BitVec.ofNat 5 (bits (frameWord fr) 10 6)
        hwVer := BitVec.ofNat 13 (bits (frameWord fr) 23 11)
        sn := BitVec.ofNat 8 (bits (frameWord fr) 31 24) } }

/-- `DecodeStatus` (R269). -/
def decodeStatus (r : Epc) (fr : Frame) : Epc :=
  if fr.dlc < 1 then r
  else
    let flags := BitVec.ofNat 6 (bits (frameWord fr) 5 0)
    { r with live := { r.live with
        statusFlags := flags
        statusKind := statusKindOf flags
        statusCode := statusCodeOf flags (frameWord fr) fr.dlc } }

/-- `DecodeElec` (R270): the derived power is exact before its division. -/
def decodeElec (rounding : Rounding) (r : Epc) (fr : Frame) : Epc :=
  if fr.dlc < 6 then r
  else
    let v := bits (frameWord fr) 15 0
    let i := sVal 16 (bits (frameWord fr) 31 16)
    { r with live := { r.live with
        lsVolt := BitVec.ofNat 16 v
        lsCurr := BitVec.ofInt 16 i
        hsVolt := BitVec.ofNat 16 (bits (frameWord fr) 47 32)
        lsPwr := BitVec.ofInt 16 (powerDiv rounding (i * (v : Int))) } }

/-- `DecodeTemp` (R271): each field only if its capability bit is set and the DLC reaches it. -/
def decodeTemp (r : Epc) (fr : Frame) : Epc :=
  { r with live := { r.live with
      tempBody :=
        if hasBody r.props.hwVer ∧ fr.dlc ≥ 2 then BitVec.ofNat 16 (bits (frameWord fr) 15 0)
        else r.live.tempBody
      tempAnode :=
        if hasAnode r.props.hwVer ∧ fr.dlc ≥ 4 then BitVec.ofNat 16 (bits (frameWord fr) 31 16)
        else r.live.tempAnode
      tempAmb :=
        if hasAmb r.props.hwVer ∧ fr.dlc ≥ 6 then BitVec.ofNat 16 (bits (frameWord fr) 47 32)
        else r.live.tempAmb } }

/-- `Decode(e, fr)` (R260): dispatch on identifier bits 3..0; the device id is not compared (D56). -/
def decodeFrame (cfg : Config) (r : Epc) (fr : Frame) : Epc :=
  match messageType fr.id with
  | 0x0 => decodeMode cfg r fr
  | 0x2 => decodeLimit cfg.hwBounds .lsVolt r fr
  | 0x3 => decodeLimit cfg.hwBounds .lsCurr r fr
  | 0x4 => decodeLimit cfg.hwBounds .hsVolt r fr
  | 0x5 => decodeLimit cfg.hwBounds .lsPwr r fr
  | 0x6 => decodeLimit cfg.hwBounds .temp r fr
  | 0x7 => decodePeriodic r fr
  | 0xA => decodeInfo r fr
  | 0xB => decodeStatus r fr
  | 0xC => decodeElec cfg.powerRounding r fr
  | 0xD => decodeTemp r fr
  | _ => r

/-- An EPC frame row: a host call on instance `e` is in progress, and the next frame of its drain is `fr`, which is
decoded into the records (R100, R211, R260; log 8). -/
def epcRx (s : State) (e : Nat) (fr : Frame) (f : Epc → Frame → Epc) : Result :=
  atEpc s e (fun r => onFrame s (.epc e) fr (fun _ t => .next (t.withEpc e (f r fr))))

/-- EPC.RX_MODE (R261). -/
def execEpcRxMode (e : Nat) (dev : BitVec 7) (data : List Byte) (s : State) : Result :=
  epcRx s e (rowFrame dev typeMode data) (decodeMode s.cfg)

/-- EPC.RX_LS_VOLT_LIM (R262). -/
def execEpcRxLsVoltLim (e : Nat) (dev : BitVec 7) (data : List Byte) (s : State) : Result :=
  epcRx s e (rowFrame dev typeLsVoltLim data) (decodeLimit s.cfg.hwBounds .lsVolt)

/-- EPC.RX_LS_CURR_LIM (R263). -/
def execEpcRxLsCurrLim (e : Nat) (dev : BitVec 7) (data : List Byte) (s : State) : Result :=
  epcRx s e (rowFrame dev typeLsCurrLim data) (decodeLimit s.cfg.hwBounds .lsCurr)

/-- EPC.RX_HS_VOLT_LIM (R264). -/
def execEpcRxHsVoltLim (e : Nat) (dev : BitVec 7) (data : List Byte) (s : State) : Result :=
  epcRx s e (rowFrame dev typeHsVoltLim data) (decodeLimit s.cfg.hwBounds .hsVolt)

/-- EPC.RX_LS_PWR_LIM (R265). -/
def execEpcRxLsPwrLim (e : Nat) (dev : BitVec 7) (data : List Byte) (s : State) : Result :=
  epcRx s e (rowFrame dev typeLsPwrLim data) (decodeLimit s.cfg.hwBounds .lsPwr)

/-- EPC.RX_TEMP_LIM (R266). -/
def execEpcRxTempLim (e : Nat) (dev : BitVec 7) (data : List Byte) (s : State) : Result :=
  epcRx s e (rowFrame dev typeTempLim data) (decodeLimit s.cfg.hwBounds .temp)

/-- EPC.RX_PERIODIC (R267). -/
def execEpcRxPeriodic (e : Nat) (dev : BitVec 7) (data : List Byte) (s : State) : Result :=
  epcRx s e (rowFrame dev typePeriodic data) decodePeriodic

/-- EPC.RX_INFO (R268). -/
def execEpcRxInfo (e : Nat) (dev : BitVec 7) (data : List Byte) (s : State) : Result :=
  epcRx s e (rowFrame dev typeInfo data) decodeInfo

/-- EPC.RX_STATUS (R269). -/
def execEpcRxStatus (e : Nat) (dev : BitVec 7) (data : List Byte) (s : State) : Result :=
  epcRx s e (rowFrame dev typeStatus data) decodeStatus

/-- EPC.RX_ELEC_MEAS (R270). -/
def execEpcRxElecMeas (e : Nat) (dev : BitVec 7) (data : List Byte) (s : State) : Result :=
  epcRx s e (rowFrame dev typeElecMeas data) (decodeElec s.cfg.powerRounding)

/-- EPC.RX_TEMP_MEAS (R271). -/
def execEpcRxTempMeas (e : Nat) (dev : BitVec 7) (data : List Byte) (s : State) : Result :=
  epcRx s e (rowFrame dev typeTempMeas data) decodeTemp

/-- EPC.RX_IGNORED (R273): a REQUEST read back changes no record. -/
def execEpcRxIgnored (e : Nat) (dev : BitVec 7) (data : List Byte) (s : State) : Result :=
  epcRx s e (rowFrame dev typeRequest data) (decodeFrame s.cfg)

/-- EPC.RX_IGNORED_8_9 (R273): the unassigned types 0x8 and 0x9 change no record. -/
def execEpcRxIgnored89 (e : Nat) (dev : BitVec 7) (low : BitVec 1) (data : List Byte) (s : State) :
    Result :=
  epcRx s e (rowFrame dev (0x8 + low.toNat) data) (decodeFrame s.cfg)

/-- EPC.RX_IGNORED_E_F (R273): the unassigned types 0xE and 0xF change no record. -/
def execEpcRxIgnoredEF (e : Nat) (dev : BitVec 7) (low : BitVec 1) (data : List Byte) (s : State) :
    Result :=
  epcRx s e (rowFrame dev (0xE + low.toNat) data) (decodeFrame s.cfg)

end Sys2Proof.Machine
end

