-- ==== Sys2Proof/Machine/EpcControl.lean ====
section
/-! DEFINITION. The EPC control surface (41_epc_encode.md): control modes, configuration, monitoring,
lifecycle, and their shared bodies Tx (R210) and Drain (R211). -/

namespace Sys2Proof.Machine

open Sys2Proof

/-! ## Shared bodies -/

/-- The channel map and the record after `Drain(e)` (R211): the frames read, at most `EPC_DRAIN_MAX`, are decoded in
order. -/
def drained (s : State) (r : Epc) : List (ChanName × List Frame) × Epc :=
  let t := takeFrames s.cfg.epcDrainMax s.node.chans r.chan
  (t.2, t.1.foldl (decodeFrame s.cfg) r)

/-- `Drain(e)` (R211) of instance `e`, whose records are `r`. -/
def drainEpc (s : State) (e : Nat) (r : Epc) : State :=
  (s.withNode { s.node with chans := (drained s r).1 }).withEpc e (drained s r).2

/-- `Tx(e, MakeFrame(...))` (R110, R210): the error of `MakeFrame`, then the errors of the submit. -/
def transmit (cfg : Config) (n : Node) (frame : Except HostError Frame) : Except HostError (Nat × Node) :=
  match frame with
  | .error err => .error err
  | .ok fr => submit cfg n (.send fr)

/-- A call that checks, transmits and drains (R146): the error of the check is raised first, then the
errors of `MakeFrame` and `Tx` (R110, R210). -/
def sendAndDrain (s : State) (e : Nat) (r : Epc) (check : Option HostError)
    (frame : Except HostError Frame) : State :=
  match check with
  | some err => s.raise err
  | none =>
      match transmit s.cfg s.node frame with
      | .error err => s.raise err
      | .ok (_, n) => (drainEpc (s.withNode n) e r).answer .done

/-- A CV, CC or CP call (R212 to R214): `q` is the controlled quantity, `m` the mode sent. -/
def setMode (s : State) (e : Nat) (q : LimitType) (m : Mode) (ref : Int) (lt : LimitType) (lr : Int) :
    Result :=
  onEpc s e (fun r =>
    .next (sendAndDrain s e r (modeCheck r.props q ref lt lr) (encodeMode s.cfg r.devId 1 m lt ref lr)))

/-- `SetLimit(e, q, t, sgn, max, min)` (R231). -/
def setLimit (s : State) (e : Nat) (q : Quantity) (type : Nat) (mx mn : Int) : Result :=
  onEpc s e (fun r =>
    .next (sendAndDrain s e r (limitCheck s.cfg.hwBounds q mx mn) (encodeLimit r.devId type mx mn)))

/-- The REQUEST submits of a monitoring call, in order; a refused one is skipped (R223, R227). -/
def submitRequests (cfg : Config) (dev : BitVec 6) : List Nat → Node → Node
  | [], n => n
  | t :: ts, n =>
      match transmit cfg n (encodeRequest dev t) with
      | .ok (_, n') => submitRequests cfg dev ts n'
      | .error _ => submitRequests cfg dev ts n

/-- The state after the requests of a monitoring call, sent if `update` (R223, R227). -/
def requestState (s : State) (r : Epc) (update : Bool) (types : List Nat) : State :=
  if update then s.withNode (submitRequests s.cfg r.devId types s.node) else s

/-! ## Control modes -/

/-- EPC.SET_CV_MODE (R212). -/
def execEpcSetCvMode (e : Nat) (ref : Int) (lt : LimitType) (lr : Int) (s : State) : Result :=
  setMode s e .voltage .cv ref lt lr

/-- EPC.SET_CC_MODE (R213). -/
def execEpcSetCcMode (e : Nat) (ref : Int) (lt : LimitType) (lr : Int) (s : State) : Result :=
  setMode s e .current .cc ref lt lr

/-- EPC.SET_CP_MODE (R214). -/
def execEpcSetCpMode (e : Nat) (ref : Int) (lt : LimitType) (lr : Int) (s : State) : Result :=
  setMode s e .power .cp ref lt lr

/-- EPC.SET_WAIT_MODE (R215). -/
def execEpcSetWaitMode (e : Nat) (lr : Int) (s : State) : Result :=
  onEpc s e (fun r =>
    .next (sendAndDrain s e r (waitCheck lr) (encodeMode s.cfg r.devId 1 .wait .time 0 lr)))

/-- EPC.DISABLE (R216); all eight bytes are zero under the decided codes (D18). -/
def execEpcDisable (e : Nat) (s : State) : Result :=
  onEpc s e (fun r =>
    .next (sendAndDrain s e r none (encodeMode s.cfg r.devId 0 .wait .time 0 0)))

/-! ## Configuration -/

/-- EPC.SET_PERIODIC (R217). -/
def execEpcSetPeriodic (e : Nat) (ae ap ee ep te tp : Int) (s : State) : Result :=
  onEpc s e (fun r =>
    .next (sendAndDrain s e r (periodicCheck ae ap ee ep te tp) (encodePeriodic r.devId ae ap ee ep te tp)))

/-- EPC.SET_LS_VOLT_LIMIT (R218). -/
def execEpcSetLsVoltLimit (e : Nat) (mx mn : Int) (s : State) : Result :=
  setLimit s e .lsVolt typeLsVoltLim mx mn

/-- EPC.SET_LS_CURR_LIMIT (R219). -/
def execEpcSetLsCurrLimit (e : Nat) (mx mn : Int) (s : State) : Result :=
  setLimit s e .lsCurr typeLsCurrLim mx mn

/-- EPC.SET_HS_VOLT_LIMIT (R220). -/
def execEpcSetHsVoltLimit (e : Nat) (mx mn : Int) (s : State) : Result :=
  setLimit s e .hsVolt typeHsVoltLim mx mn

/-- EPC.SET_LS_PWR_LIMIT (R221). -/
def execEpcSetLsPwrLimit (e : Nat) (mx mn : Int) (s : State) : Result :=
  setLimit s e .lsPwr typeLsPwrLim mx mn

/-- EPC.SET_TEMP_LIMIT (R222). -/
def execEpcSetTempLimit (e : Nat) (mx mn : Int) (s : State) : Result :=
  setLimit s e .temp typeTempLim mx mn

/-! ## Monitoring -/

/-- EPC.GET_DATA (R223): never fails; the answer is the live data after the drain. In two transitions (log 8), the
requests and the reads of the drain come first and the answer last. -/
def execEpcGetData (e : Nat) (call : MonitorCall Bool) (s : State) : Result :=
  match call with
  | .whole update =>
      onEpc s e (fun r =>
        let t := requestState s r update dataRequests
        .next ((drainEpc t e r).answer (.live (drained t r).2.live)))
  | .start update =>
      onEpc s e (fun r =>
        .next (startDrain (requestState s r update dataRequests) (.epc e) r.chan s.cfg.epcDrainMax 0))
  | .finish => atEpc s e (fun r => finishDrain s (.epc e) (fun _ t => t.answer (.live r.live)))

/-- EPC.GET_PROPERTIES (R227): never fails; the answer is the properties after the drain. -/
def execEpcGetProperties (e : Nat) (update : Bool) (s : State) : Result :=
  onEpc s e (fun r =>
    let t := requestState s r update propertyRequests
    .next ((drainEpc t e r).answer (.props (drained t r).2.props)))

/-! ## Lifecycle -/

/-- EPC.OPEN (R224): submit the filter and wait; with OK or NOOP the instance is opened, with an error
outcome it is raised, at a halt without an outcome QueueClosed is raised. -/
def execEpcOpen (e : Nat) (turn : Turn) (s : State) : Result :=
  match turn with
  | .issue => onEpc s e (fun r => .next (issueCall s (.addFilter (epcFilter r)) .epcOpen e))
  | .resume seq =>
      resumeCall s seq .epcOpen e
        (fun t => (t.setEpcOpened e true).answer .done)
        (fun t => t.raise .queueClosed)

/-- EPC.CLOSE (R225): submit the removal and wait; with OK, NOOP or a halt the instance is closed. -/
def execEpcClose (e : Nat) (turn : Turn) (s : State) : Result :=
  match turn with
  | .issue => onEpc s e (fun r => .next (issueCall s (.removeFilter (epcFilter r)) .epcClose e))
  | .resume seq =>
      resumeCall s seq .epcClose e
        (fun t => (t.setEpcOpened e false).answer .done)
        (fun t => (t.setEpcOpened e false).answer .done)

/-- EPC.NEW (R226): the checks, then a new instance with its reset records (R452). -/
def execEpcNew (devId : Nat) (chan : ChanName) (props : EpcProps) (s : State) : Result :=
  match newCheck s.cfg.hwBounds devId props with
  | some err => .next (s.raise err)
  | none =>
      .next ((s.addEpc (Epc.reset (BitVec.ofNat 6 devId) chan props)).answer (.handle s.epcs.length))

end Sys2Proof.Machine
end

