-- ==== Sys2Proof/Machine/NodeHost.lean ====
section
/-! DEFINITION. FILTER.MATCH (R160) and the host operations on the node: NODE.SUBMIT (R180), NODE.STOP (R192),
CHAN.READ (R182). -/

namespace Sys2Proof.Machine

open Sys2Proof

/-- FILTER.MATCH (R160): a pure function; its value is the answer (log 6). -/
def execFilterMatch (id address mask : CanId) (s : State) : Result :=
  .next (s.answer (.matched (filterMatches id address mask)))

/-- NODE.SUBMIT (R180). -/
def execNodeSubmit (word : BitVec 96) (s : State) : Result :=
  match submitWord s.cfg s.node word with
  | .error err => .next (s.raise err)
  | .ok (seq, n) => .next ((s.withNode n).answer (.accepted seq))

/-- NODE.STOP (R192): the flag is cleared; the call returns if the node is halted and is held otherwise. A
held caller runs the operation again (log 5). -/
def execNodeStop (s : State) : Result :=
  .next ((s.withNode { s.node with working := false }).answer
    (if s.node.halted then .done else .stopping))

/-- CHAN.READ (R182). -/
def execChanRead (chan : ChanName) (s : State) : Result :=
  match chanRead s.node.chans chan with
  | (.closed, _) => .next (s.answer .closed)
  | (.empty, _) => .next (s.answer .empty)
  | (.frame fr, m) => .next ((s.withNode { s.node with chans := m }).answer (.frame fr))

end Sys2Proof.Machine
end

