-- ==== Sys2Proof/Machine/Worker.lean ====
section
/-! DEFINITION. The worker's operations: its steps (R170, R188 to R194), the command rows it applies (R172,
R173, R175, R141) and the bus events it polls (R171, R191). -/

namespace Sys2Proof.Machine

open Sys2Proof

/-! ## Worker steps -/

/-- WRK.START (R189): at the iteration boundary, shut down if `working` is clear, else begin to drain. -/
def execWrkStart (s : State) : Result := workerStep .start s startStep

/-- WRK.APPLY (R170): apply the head command, whatever it is. -/
def execWrkApply (tx : TxAnswer) (s : State) : Result := applyStep s tx (fun _ => true)

/-- WRK.DRAIN_END (R190): the drain finds the queue empty. -/
def execWrkDrainEnd (s : State) : Result :=
  if s.node.cmdq.isEmpty then workerStep .drain s (fun n => { n with phase := .poll })
  else .refused .notSelected

/-- WRK.POLL (R191): take at most one event from the bus. -/
def execWrkPoll (ev : BusEvent) (s : State) : Result := workerStep .poll s (fun n => pollStep s.cfg n ev)

/-- WRK.DELIVER (R188): the held frame goes into its channel once there is room. -/
def execWrkDeliver (s : State) : Result :=
  match s.node.held with
  | some (fr, name) =>
      match chanGet s.node.chans name with
      | some q =>
          if !s.node.halted && decide (q.length < s.cfg.chanDepth) then
            .next (s.withNode
              { s.node with chans := chanPut s.node.chans name (q ++ [fr]), held := none })
          else .refused .notSelected
      | none => .refused .notSelected
  | none => .refused .notSelected

/-- WRK.SHUTDOWN (R194): the branch of WRK.START that a clear `working` flag selects (R189). -/
def execWrkShutdown (s : State) : Result :=
  if s.node.working then .refused .notSelected else workerStep .start s shutdown

/-- WRK.FATAL (R193): enabled at any worker step while the node is not halted. -/
def execWrkFatal (s : State) : Result :=
  if s.node.halted then .refused .notSelected else .next (s.withNode (fatalStep s.node))

/-! ## Command rows: WRK.APPLY with that command at the head (R170, log 9) -/

/-- CMD.SEND (R173); `tx` is the bus's answer. -/
def execCmdSend (fr : Frame) (tx : TxAnswer) (s : State) : Result :=
  applyStep s tx (fun c => decide (c = .send fr))

/-- CMD.ADD_FILTER (R172). -/
def execCmdAddFilter (fe : FilterEntry) (s : State) : Result :=
  applyStep s .ok (fun c => decide (c = .addFilter fe))

/-- CMD.REMOVE_FILTER (R175). -/
def execCmdRemoveFilter (fe : FilterEntry) (s : State) : Result :=
  applyStep s .ok (fun c => decide (c = .removeFilter fe))

/-- CMD.RESERVED (R141): a word with tag 0b11 is refused at the submit boundary and never reaches the
queue. -/
def execCmdReserved (rest : BitVec 94) (s : State) : Result :=
  match submitWord s.cfg s.node (reservedWord rest) with
  | .error err => .next (s.raise err)
  | .ok (seq, n) => .next ((s.withNode n).answer (.accepted seq))

/-! ## Bus events: WRK.POLL with that event (R191) -/

/-- RX.DATA (R171): a valid frame is dispatched. -/
def execRxData (fr : Frame) (s : State) : Result :=
  workerStep .poll s (fun n => pollStep s.cfg n (.frame fr))

/-- RX.NONE (R191): the poll times out. -/
def execRxNone (s : State) : Result := workerStep .poll s (fun n => pollStep s.cfg n .none)

/-- RX.ERROR_FRAME (R191). -/
def execRxErrorFrame (s : State) : Result := workerStep .poll s (fun n => pollStep s.cfg n .errorFrame)

/-- RX.INVALID (R112, R191): an out-of-range or extended identifier, or a remote frame. -/
def execRxInvalid (s : State) : Result := workerStep .poll s (fun n => pollStep s.cfg n .invalid)

end Sys2Proof.Machine
end

