-- ==== Sys2Proof/Machine/Dispatch.lean ====
section
/-! DEFINITION. The dispatch of an operation to its meaning, one arm for each constructor of Instr. -/

namespace Sys2Proof.Machine

open Sys2Proof

def exec (i : Instr) (s : State) : Host.Outcome State Fault Refusal :=
  match i with
  | .filterMatch id address mask => Sys2Proof.Machine.execFilterMatch id address mask s
  | .nodeSubmit word => Sys2Proof.Machine.execNodeSubmit word s
  | .nodeStop => Sys2Proof.Machine.execNodeStop s
  | .chanRead chan => Sys2Proof.Machine.execChanRead chan s
  | .epcSetCvMode e ref limitType limitRef => Sys2Proof.Machine.execEpcSetCvMode e ref limitType limitRef s
  | .epcSetCcMode e ref limitType limitRef => Sys2Proof.Machine.execEpcSetCcMode e ref limitType limitRef s
  | .epcSetCpMode e ref limitType limitRef => Sys2Proof.Machine.execEpcSetCpMode e ref limitType limitRef s
  | .epcSetWaitMode e limitRef => Sys2Proof.Machine.execEpcSetWaitMode e limitRef s
  | .epcDisable e => Sys2Proof.Machine.execEpcDisable e s
  | .epcSetPeriodic e ackEn ackPeriod electEn electPeriod tempEn tempPeriod => Sys2Proof.Machine.execEpcSetPeriodic e ackEn ackPeriod electEn electPeriod tempEn tempPeriod s
  | .epcSetLsVoltLimit e max min => Sys2Proof.Machine.execEpcSetLsVoltLimit e max min s
  | .epcSetLsCurrLimit e max min => Sys2Proof.Machine.execEpcSetLsCurrLimit e max min s
  | .epcSetHsVoltLimit e max min => Sys2Proof.Machine.execEpcSetHsVoltLimit e max min s
  | .epcSetLsPwrLimit e max min => Sys2Proof.Machine.execEpcSetLsPwrLimit e max min s
  | .epcSetTempLimit e max min => Sys2Proof.Machine.execEpcSetTempLimit e max min s
  | .epcGetData e call => Sys2Proof.Machine.execEpcGetData e call s
  | .epcGetProperties e update => Sys2Proof.Machine.execEpcGetProperties e update s
  | .epcOpen e turn => Sys2Proof.Machine.execEpcOpen e turn s
  | .epcClose e turn => Sys2Proof.Machine.execEpcClose e turn s
  | .epcNew devId chan props => Sys2Proof.Machine.execEpcNew devId chan props s
  | .bmsNew chan address mask now turn => Sys2Proof.Machine.execBmsNew chan address mask now turn s
  | .bmsGetData b call => Sys2Proof.Machine.execBmsGetData b call s
  | .bmsClose b turn => Sys2Proof.Machine.execBmsClose b turn s
  | .cmdSend fr tx => Sys2Proof.Machine.execCmdSend fr tx s
  | .cmdAddFilter fe => Sys2Proof.Machine.execCmdAddFilter fe s
  | .cmdRemoveFilter fe => Sys2Proof.Machine.execCmdRemoveFilter fe s
  | .cmdReserved rest => Sys2Proof.Machine.execCmdReserved rest s
  | .wrkStart => Sys2Proof.Machine.execWrkStart s
  | .wrkApply tx => Sys2Proof.Machine.execWrkApply tx s
  | .wrkDrainEnd => Sys2Proof.Machine.execWrkDrainEnd s
  | .wrkPoll ev => Sys2Proof.Machine.execWrkPoll ev s
  | .wrkDeliver => Sys2Proof.Machine.execWrkDeliver s
  | .wrkShutdown => Sys2Proof.Machine.execWrkShutdown s
  | .wrkFatal => Sys2Proof.Machine.execWrkFatal s
  | .rxData fr => Sys2Proof.Machine.execRxData fr s
  | .rxNone => Sys2Proof.Machine.execRxNone s
  | .rxErrorFrame => Sys2Proof.Machine.execRxErrorFrame s
  | .rxInvalid => Sys2Proof.Machine.execRxInvalid s
  | .epcRxMode e dev data => Sys2Proof.Machine.execEpcRxMode e dev data s
  | .epcRxLsVoltLim e dev data => Sys2Proof.Machine.execEpcRxLsVoltLim e dev data s
  | .epcRxLsCurrLim e dev data => Sys2Proof.Machine.execEpcRxLsCurrLim e dev data s
  | .epcRxHsVoltLim e dev data => Sys2Proof.Machine.execEpcRxHsVoltLim e dev data s
  | .epcRxLsPwrLim e dev data => Sys2Proof.Machine.execEpcRxLsPwrLim e dev data s
  | .epcRxTempLim e dev data => Sys2Proof.Machine.execEpcRxTempLim e dev data s
  | .epcRxPeriodic e dev data => Sys2Proof.Machine.execEpcRxPeriodic e dev data s
  | .epcRxInfo e dev data => Sys2Proof.Machine.execEpcRxInfo e dev data s
  | .epcRxStatus e dev data => Sys2Proof.Machine.execEpcRxStatus e dev data s
  | .epcRxElecMeas e dev data => Sys2Proof.Machine.execEpcRxElecMeas e dev data s
  | .epcRxTempMeas e dev data => Sys2Proof.Machine.execEpcRxTempMeas e dev data s
  | .epcRxIgnored e dev data => Sys2Proof.Machine.execEpcRxIgnored e dev data s
  | .epcRxIgnored89 e dev low data => Sys2Proof.Machine.execEpcRxIgnored89 e dev low data s
  | .epcRxIgnoredEF e dev low data => Sys2Proof.Machine.execEpcRxIgnoredEF e dev low data s
  | .bmsRxEmpty b id => Sys2Proof.Machine.execBmsRxEmpty b id s
  | .bmsRxMarker b id free errCode => Sys2Proof.Machine.execBmsRxMarker b id free errCode s
  | .bmsRxSeqFault b fr => Sys2Proof.Machine.execBmsRxSeqFault b fr s
  | .bmsRxFragment b fr => Sys2Proof.Machine.execBmsRxFragment b fr s
  | .bmsRxLast b fr now => Sys2Proof.Machine.execBmsRxLast b fr now s
  | .bmsRxOdd b fr => Sys2Proof.Machine.execBmsRxOdd b fr s

end Sys2Proof.Machine
end

