-- ==== Sys2Proof/Machine/Step.lean ====
section
/-! DEFINITION. One step of the machine: the next operation is fetched, decoded and executed (log 1). -/

namespace Sys2Proof.Machine

open Sys2Proof

/-- One step (R30, R406): the operation that is scheduled next, or past the agenda's end the one the free
environment supplies. -/
def step (s : State) : Host.Outcome State Fault Refusal :=
  match decode (fetch s).1 with
  | some i => exec i (fetch s).2
  | none => .refused .unknownOperation

/-- The bare table word `w` where `step` fetches next, with what its operation takes to be selected
(log 13). -/
def State.withFetchWord (s : State) (nbits w : Nat) : State := place s (tableMessage nbits w)

end Sys2Proof.Machine
end

