-- ==== Sys2Proof/Safety.lean ====
section
/-! DEFINITION. The terms the statements use: the invariants of the block, the queue as a submit leaves it, and
the bytes of the frames written from the layouts of 30_encoding.md. -/

namespace Sys2Proof.Machine

open Sys2Proof

/-! ## Invariants of the node -/

/-- R37: at most `N_FILTERS` entries, no two with the same `(address, mask)`, no two with the same channel. -/
abbrev TableOk (cfg : Config) (n : Node) : Prop :=
  n.filters.length ≤ cfg.nFilters ∧
  n.filters.Pairwise (fun f g => ¬(f.address = g.address ∧ f.mask = g.mask) ∧ f.chan ≠ g.chan)

/-- R39: the map is in its canonical form, no FIFO is longer than `CHAN_DEPTH`, and a name is bound exactly
while a filter bound to it is installed. -/
abbrev ChansOk (cfg : Config) (n : Node) : Prop :=
  chansSorted n.chans = true ∧
  (∀ p ∈ n.chans, p.2.length ≤ cfg.chanDepth) ∧
  (∀ f ∈ n.filters, (chanGet n.chans f.chan).isSome = true) ∧
  (∀ p ∈ n.chans, ∃ f ∈ n.filters, f.chan = p.1)

/-- R38: the queue holds at most `CMD_DEPTH` commands. -/
abbrev QueueOk (cfg : Config) (n : Node) : Prop := n.cmdq.length ≤ cfg.cmdDepth

/-- R40, R465: the outcomes recorded and then the commands queued stand in the order of their sequence
numbers, all of them given out already. -/
abbrev SeqOk (n : Node) : Prop :=
  (n.results.map Prod.fst ++ n.cmdq.map Prod.fst).Pairwise (· < ·) ∧
  ∀ q ∈ n.results.map Prod.fst ++ n.cmdq.map Prod.fst, q < n.seq

/-- R35, R194: the queue is open and the bus held exactly while the node is not halted; a halted node has
nothing left. -/
abbrev HaltOk (n : Node) : Prop :=
  n.cmdqOpen = !n.halted ∧ n.busHeld = !n.halted ∧
  (n.halted = true → n.working = false ∧ n.filters = [] ∧ n.chans = [] ∧ n.cmdq = [] ∧ n.held = none)

/-- R44: a frame is held only under BLOCK, at the iteration boundary, for a channel that exists. -/
abbrev HeldOk (cfg : Config) (n : Node) : Prop :=
  ∀ p ∈ n.held.toList,
    cfg.chanFullPolicy = .block ∧ n.phase = .start ∧ (chanGet n.chans p.2).isSome = true

/-- R110: every frame in the node has at most 8 data bytes. -/
abbrev FramesOk (n : Node) : Prop :=
  (∀ p ∈ n.chans, ∀ fr ∈ p.2, fr.wf = true) ∧ (∀ c ∈ n.cmdq, c.2.wf = true) ∧
  (∀ p ∈ n.held.toList, p.1.wf = true)

/-- The node record is as 10_state.md says it always is. -/
abbrev NodeInv (cfg : Config) (n : Node) : Prop :=
  TableOk cfg n ∧ ChansOk cfg n ∧ QueueOk cfg n ∧ SeqOk n ∧ HaltOk n ∧ HeldOk cfg n ∧ FramesOk n

/-! ## Invariants of the instances -/

/-- R274 (D29): the properties of an EPC instance stay within the hardware bounds. -/
abbrev EpcInv (cfg : Config) (r : Epc) : Prop :=
  ∀ q ∈ quantities, pairWithin cfg.hwBounds q (propMax r.props q) (propMin r.props q) = true

/-- R67, R68, R70, R71: the accumulator is bounded, the snapshot has 19 slots, and a cause stands exactly while
the status is COMM_ERROR. -/
abbrev BmsInv (r : Bms) : Prop :=
  r.nextIdx ≤ 16 ∧ r.buf.length ≤ 7 * r.nextIdx ∧ r.snap.length = 19 ∧ (r.status = .ok ↔ r.cause = .none)

/-- The held calls wait for commands already submitted, each for its own. -/
abbrev WaitsOk (s : State) : Prop :=
  (s.waits.map Wait.seq).Nodup ∧ ∀ w ∈ s.waits, w.seq < s.node.seq

/-- How many frames the drain of one call on an instance may read (R211, R309). -/
def drainMax (cfg : Config) : Device → Nat
  | .epc _ => cfg.epcDrainMax
  | .bms _ => cfg.bmsDrainMax

/-- R469, R211, R309, R110 (log 8): at most one monitoring call is in progress on each instance, and it has no more
frames to decode than a drain may read, all of them frames. -/
abbrev DrainsOk (s : State) : Prop :=
  (s.drains.map Drain.device).Nodup ∧
  ∀ x ∈ s.drains, x.frames.length ≤ drainMax s.cfg x.device ∧ ∀ fr ∈ x.frames, fr.wf = true

/-- The whole invariant. -/
abbrev BlockInv (s : State) : Prop :=
  NodeInv s.cfg s.node ∧ (∀ r ∈ s.epcs, EpcInv s.cfg r) ∧ (∀ r ∈ s.bmses, BmsInv r) ∧ WaitsOk s ∧ DrainsOk s

/-! ## Instances and their calls -/

/-- EPC instance `e` is constructed with the records `r`, neither an `open` nor a `close` of it is held, and no
monitoring call on it is in progress (R469). -/
abbrev EpcIdle (s : State) (e : Nat) (r : Epc) : Prop :=
  s.epcs[e]? = some r ∧ (∀ w ∈ s.waits, w.target = e → w.kind ≠ .epcOpen ∧ w.kind ≠ .epcClose) ∧
  ∀ x ∈ s.drains, x.device ≠ .epc e

/-- BMS instance `k` is constructed with the records `b`, neither its construction nor a `close` of it is held, and
no `get_data` on it is in progress (R469). -/
abbrev BmsIdle (s : State) (k : Nat) (b : Bms) : Prop :=
  s.bmses[k]? = some b ∧ (∀ w ∈ s.waits, w.target = k → w.kind ≠ .bmsNew ∧ w.kind ≠ .bmsClose) ∧
  ∀ x ∈ s.drains, x.device ≠ .bms k

/-- `get_data` is in progress on EPC instance `e`, whose records are `r`; its drain has read `fr` and after it `q`,
which are still to be decoded (R100, R211, log 8). -/
abbrev EpcDraining (s : State) (e : Nat) (r : Epc) (fr : Frame) (q : List Frame) : Prop :=
  s.epcs[e]? = some r ∧ (drainOf s (.epc e)).map Drain.frames = some (fr :: q)

/-- `get_data` with time `now` is in progress on BMS instance `k`, as `EpcDraining` says (R100, R309, log 8). -/
abbrev BmsDraining (s : State) (k : Nat) (b : Bms) (fr : Frame) (q : List Frame) (now : Nat) : Prop :=
  s.bmses[k]? = some b ∧ drainOf s (.bms k) = some ⟨.bms k, fr :: q, now⟩

/-- The state in which the call in progress on an instance has only `q` still to decode. What its calls in progress
then are: the second clause of EpcDrainDecodesOldestFrames. -/
def afterRead (s : State) (d : Device) (q : List Frame) : State :=
  { s with drains := s.drains.map (fun x => if x.device = d then { x with frames := q } else x) }

/-! ## Submitting -/

/-- A submit of a well-formed command succeeds (R180): the queue is open and has room. -/
abbrev Accepting (s : State) : Prop := s.node.cmdqOpen = true ∧ s.node.cmdq.length ≠ s.cfg.cmdDepth

/-- The state after the submit of `c` (R180). -/
def enqueued (s : State) (c : Command) : State :=
  { s with node :=
    { s.node with cmdq := s.node.cmdq ++ [(s.node.seq, c)], seq := s.node.seq + 1 } }

/-- The worker is at a step of phase `p` (R196). -/
abbrev WorkerAt (s : State) (p : Phase) : Prop :=
  s.node.halted = false ∧ s.node.held = none ∧ s.node.phase = p

/-- A command word that R141 refuses: tag 0b11, or a SEND with a nonzero zero-field, a DLC above 8 or a
nonzero payload byte at or above the DLC, or a filter command with a nonzero zero-field (layout of R140). -/
def MalformedWord (w : BitVec 96) : Prop :=
  w.extractLsb' 0 2 = 3 ∨
  (w.extractLsb' 0 2 = 0 ∧
    (w.extractLsb' 17 15 ≠ 0 ∨ 8 < (w.extractLsb' 13 4).toNat ∨
      ∃ i < 8, (w.extractLsb' 13 4).toNat ≤ i ∧ w.extractLsb' (32 + 8 * i) 8 ≠ 0)) ∨
  ((w.extractLsb' 0 2 = 1 ∨ w.extractLsb' 0 2 = 2) ∧ w.extractLsb' 24 8 ≠ 0)

/-- An identifier matches a filter (R160). -/
def MatchesFilter (id : CanId) (f : FilterEntry) : Prop := id &&& f.mask = f.address &&& f.mask

/-- An entry has the key `(address, mask)` of another (R172). -/
def SameKey (g f : FilterEntry) : Prop := g.address = f.address ∧ g.mask = f.mask

/-! ## The frame rows -/

/-- Each EPC frame row with the message type that selects it (R114); the unassigned types 0x8, 0x9 and 0xE, 0xF by
their low bit. -/
def epcRows (e : Nat) (dev : BitVec 7) (low : BitVec 1) (data : List Byte) : List (BitVec 4 × Instr) :=
  [(0x0#4, .epcRxMode e dev data), (0x1#4, .epcRxIgnored e dev data), (0x2#4, .epcRxLsVoltLim e dev data),
    (0x3#4, .epcRxLsCurrLim e dev data), (0x4#4, .epcRxHsVoltLim e dev data), (0x5#4, .epcRxLsPwrLim e dev data),
    (0x6#4, .epcRxTempLim e dev data), (0x7#4, .epcRxPeriodic e dev data), (4#3 ++ low, .epcRxIgnored89 e dev low data),
    (0xA#4, .epcRxInfo e dev data), (0xB#4, .epcRxStatus e dev data), (0xC#4, .epcRxElecMeas e dev data),
    (0xD#4, .epcRxTempMeas e dev data), (7#3 ++ low, .epcRxIgnoredEF e dev low data)]

/-- Each BMS frame row with the row of R300 it stands for and its frame. -/
def bmsRows (k : Nat) (id : CanId) (free code : Byte) (fr : Frame) (now : Nat) : List (BmsRow × Frame × Instr) :=
  [(.empty, ⟨id, []⟩, .bmsRxEmpty k id),
    (.marker, ⟨id, [0x10, 0x45, 0x52, 0x52, 0x4F, 0x52, free, code]⟩, .bmsRxMarker k id free code),
    (.seqFault, fr, .bmsRxSeqFault k fr), (.fragment, fr, .bmsRxFragment k fr), (.last, fr, .bmsRxLast k fr now),
    (.odd, fr, .bmsRxOdd k fr)]

/-- Some EPC frame row on instance `e` takes `x` to `y`. -/
def EpcRowStep (e : Nat) (x y : State) : Prop :=
  ∃ dev low data, ∃ row ∈ epcRows e dev low data, exec row.2 x = .next y

/-- Some BMS frame row on instance `k` takes `x` to `y`. -/
def BmsRowStep (k : Nat) (x y : State) : Prop :=
  ∃ id free code fr now, ∃ row ∈ bmsRows k id free code fr now, exec row.2.2 x = .next y

/-- The record `b'` is `b` after the timeout check at `now` (R310): more than `BMS_TIMEOUT_MS` after the last completed
message an OK status becomes COMM_ERROR with cause TIMEOUT and the accumulator is emptied; else nothing changes. -/
abbrev TimeoutChecked (cfg : Config) (now : Nat) (b b' : Bms) : Prop :=
  (b.lastTs + cfg.bmsTimeoutMs < now ∧ b.status = .ok →
    b' = { b with status := .commError, cause := .timeout, nextIdx := 0, buf := [] }) ∧
  (¬(b.lastTs + cfg.bmsTimeoutMs < now ∧ b.status = .ok) → b' = b)

/-! ## Frames, byte by byte -/

/-- The identifier of an EPC: bit 10 is 0, then the device id, then the message type (R111, R113). -/
def epcId (dev : BitVec 6) (type : BitVec 4) : CanId := 0#1 ++ dev ++ type

/-- The 2-bit number of a limit type under `LIMIT_CODE` (R118). -/
def limitNumber (c : LimitCodes) : LimitType → BitVec 2
  | .time => c.time
  | .voltage => c.voltage
  | .current => c.current
  | .power => c.power

/-- The 3-bit number of a mode under `MODE_CODE` (R117). -/
def modeNumber (c : ModeCodes) : Mode → BitVec 3
  | .wait => c.wait
  | .cc => c.cc
  | .cv => c.cv
  | .cp => c.cp
  | .idle => c.idle
  | .error => c.error

/-- The code tables name every mode and every limit type apart, and leave the mode codes 6 and 7 reserved (R117,
R118). -/
abbrev CodesOk (cfg : Config) : Prop := cfg.modeCode.wf = true ∧ cfg.limitCode.wf = true

/-- The code tables are the decided ones (R117, R118). -/
abbrev CodesDecided (cfg : Config) : Prop := cfg.modeCode = ⟨0, 1, 2, 3, 4, 5⟩ ∧ cfg.limitCode = ⟨0, 1, 2, 3⟩

/-- Byte `k` of a value (R12). -/
def byteOf {w : Nat} (v : BitVec w) (k : Nat) : Byte := v.extractLsb' (8 * k) 8

/-- The eight bytes of a MODE frame (R116): bits 7..6 zero, limit type, mode, enable; a zero byte; the
reference; the limit reference. -/
def modeBytes (en : BitVec 1) (mode : BitVec 3) (lt : BitVec 2) (ref lr : Int) : List Byte :=
  [0#2 ++ lt ++ mode ++ en, 0,
    byteOf (BitVec.ofInt 16 ref) 0, byteOf (BitVec.ofInt 16 ref) 1,
    byteOf (BitVec.ofInt 32 lr) 0, byteOf (BitVec.ofInt 32 lr) 1,
    byteOf (BitVec.ofInt 32 lr) 2, byteOf (BitVec.ofInt 32 lr) 3]

/-- The four bytes of a limit frame (R124): max, then min. -/
def limitBytes (mx mn : Int) : List Byte :=
  [byteOf (BitVec.ofInt 16 mx) 0, byteOf (BitVec.ofInt 16 mx) 1,
    byteOf (BitVec.ofInt 16 mn) 0, byteOf (BitVec.ofInt 16 mn) 1]

/-- One 16-bit slot of a PERIODIC frame (R120): the period above its enable bit. -/
def periodicSlot (en period : Int) : BitVec 16 := BitVec.ofInt 15 period ++ BitVec.ofInt 1 en

/-- The six bytes of a PERIODIC frame (R120). -/
def periodicBytes (ae ap ee ep te tp : Int) : List Byte :=
  [byteOf (periodicSlot ae ap) 0, byteOf (periodicSlot ae ap) 1,
    byteOf (periodicSlot ee ep) 0, byteOf (periodicSlot ee ep) 1,
    byteOf (periodicSlot te tp) 0, byteOf (periodicSlot te tp) 1]

/-- A limit reference lies within the bounds of its limit type (R228). -/
def LimitRefOk (p : EpcProps) (lt : LimitType) (lr : Int) : Prop :=
  match lt with
  | .time => 0 ≤ lr ∧ lr ≤ 2147483647
  | .voltage => (p.lsVoltMin.toNat : Int) ≤ lr ∧ lr ≤ (p.lsVoltMax.toNat : Int)
  | .current => p.lsCurrMin.toInt ≤ lr ∧ lr ≤ p.lsCurrMax.toInt
  | .power => p.lsPwrMin.toInt ≤ lr ∧ lr ≤ p.lsPwrMax.toInt

/-- A reference fits its signed field (R228, D20). -/
def FitsS16 (v : Int) : Prop := -32768 ≤ v ∧ v ≤ 32767

/-- A frame carries the ERROR marker (R131). -/
def MarkerBytes (data : List Byte) : Prop :=
  data.length = 8 ∧ data.take 6 = [0x10, 0x45, 0x52, 0x52, 0x4F, 0x52]

/-- The 19 measurements of a message body (R306, R83). -/
def SnapOf (body : List Byte) (snap : List (Option (BitVec 16))) : Prop :=
  snap.length = 19 ∧
  ∀ k < 19, snap[k]? = some
    (if 2 * k + 1 < body.length then some (body.getD (2 * k + 1) 0 ++ body.getD (2 * k) 0) else none)

end Sys2Proof.Machine
end

