-- ==== Sys2Proof/Certificates/Slice0/Obligations.lean ====
section
/-! DEFINITION. The statements for the provers. An equation `exec i s = .next { s with … }` says the whole next
state, so it is the frame of the operation too: every field of State that is not named is unchanged. -/

open Sys2Proof Sys2Proof.Machine

/-! ## The filter matcher and the node's host operations -/

/-- R160: FILTER.MATCH always runs, its value is `(id & mask) == (address & mask)`, and that holds exactly when
every identifier bit under a set mask bit equals the address bit (R37). The value stands in `reply`, the
model's place for an answer (log 6). -/
def Obligations.FilterMatchComparesMaskedBits : Prop :=
  ∀ (id address mask : CanId) (s : State), ∃ v : Bool,
    exec (.filterMatch id address mask) s = .next { s with reply := some (.matched v) } ∧
    (v = true ↔ id &&& mask = address &&& mask) ∧
    (v = true ↔ ∀ k < 11, mask.getLsbD k = true → id.getLsbD k = address.getLsbD k)

/-- R161: the first entry in insertion order that matches, or none if no entry matches. -/
def Obligations.FirstMatchIsEarliestMatchingEntry : Prop :=
  ∀ (fs : List FilterEntry) (id : CanId),
    (∀ f, firstMatch fs id = some f ↔
      ∃ before after, fs = before ++ f :: after ∧ MatchesFilter id f ∧ ∀ g ∈ before, ¬MatchesFilter id g) ∧
    (firstMatch fs id = none ↔ ∀ g ∈ fs, ¬MatchesFilter id g)

/-- R180: the submit of the word (R140, the spec's decision D50) of any command, on an open queue with room,
appends it with the next sequence number, which is the answer (log 6). -/
def Obligations.SubmitQueuesEveryCommand : Prop :=
  ∀ (c : Command) (s : State), c.wf = true → Accepting s →
    exec (.nodeSubmit (commandWord c)) s =
      .next { s with
        node := { s.node with cmdq := s.node.cmdq ++ [(s.node.seq, c)], seq := s.node.seq + 1 }
        reply := some (.accepted s.node.seq) }

/-- R180, R140, R141, R405 (the spec's decisions D19, D49, D50): a submit reports QueueClosed before FrameError
before QueueFull and then changes nothing but the answer; any other word is the word of one command with a
proper frame, and that command is queued. -/
def Obligations.SubmitOutcomesInOrder : Prop :=
  ∀ (w : BitVec 96) (s : State),
    (s.node.cmdqOpen = false →
      exec (.nodeSubmit w) s = .next { s with reply := some (.raised .queueClosed) }) ∧
    (s.node.cmdqOpen = true → MalformedWord w →
      exec (.nodeSubmit w) s = .next { s with reply := some (.raised (.frameError w)) }) ∧
    (s.node.cmdqOpen = true → ¬MalformedWord w → s.node.cmdq.length = s.cfg.cmdDepth →
      exec (.nodeSubmit w) s = .next { s with reply := some (.raised .queueFull) }) ∧
    (Accepting s → ¬MalformedWord w →
      ∃ c, c.wf = true ∧ commandWord c = w ∧
        exec (.nodeSubmit w) s =
          .next { enqueued s c with reply := some (.accepted s.node.seq) })

/-- R141 (the spec's decision D50): every word with tag 0b11 is refused at submit with FrameError and never
reaches the queue; a closed queue is reported first (R405). -/
def Obligations.ReservedCommandWordIsRefused : Prop :=
  ∀ (rest : BitVec 94) (s : State),
    (s.node.cmdqOpen = true →
      exec (.cmdReserved rest) s = .next { s with reply := some (.raised (.frameError (rest ++ 3#2))) }) ∧
    (s.node.cmdqOpen = false →
      exec (.cmdReserved rest) s = .next { s with reply := some (.raised .queueClosed) })

/-- R192: stop clears `working` in every state and returns exactly when the node is halted; asked again it
does the same (log 5: a held caller asks again). -/
def Obligations.StopClearsWorkingAndReturnsWhenHalted : Prop :=
  ∀ s : State,
    exec .nodeStop s = .next { s with
      node := { s.node with working := false }
      reply := some (if s.node.halted then .done else .stopping) } ∧
    ∀ t, exec .nodeStop s = .next t → exec .nodeStop t = .next t

/-- R182, R92 (the spec's decision D7): a read of a bound name with frames takes the oldest and leaves the rest
in order; an empty one answers EMPTY, an unbound one CLOSED; every other name, and every other field of
the state, is as before. -/
def Obligations.ChannelReadTakesOldestFrame : Prop :=
  ∀ (n : ChanName) (s : State),
    (chanGet s.node.chans n = none → exec (.chanRead n) s = .next { s with reply := some .closed }) ∧
    (chanGet s.node.chans n = some [] → exec (.chanRead n) s = .next { s with reply := some .empty }) ∧
    (∀ fr q, chanGet s.node.chans n = some (fr :: q) →
      ∃ m, exec (.chanRead n) s =
          .next { s with node := { s.node with chans := m }, reply := some (.frame fr) } ∧
        chanGet m n = some q ∧ ∀ n', n' ≠ n → chanGet m n' = chanGet s.node.chans n')

/-! ## The worker -/

/-- R189, R194 (the spec's decision D54): at the boundary the worker begins to drain if `working` is set. With
`working` clear, WRK.START and the row WRK.SHUTDOWN both close every channel, clear the filters and the queue,
close the queue, release the bus and halt; the results and everything outside the node stay. -/
def Obligations.StartDrainsOrShutsDown : Prop :=
  ∀ s : State, WorkerAt s .start →
    (s.node.working = true →
      exec .wrkStart s = .next { s with node := { s.node with phase := .drain } }) ∧
    (s.node.working = false →
      ∃ t, exec .wrkStart s = .next t ∧ exec .wrkShutdown s = .next t ∧
        t = { s with node := { s.node with
          chans := [], filters := [], cmdq := [], cmdqOpen := false, held := none, busHeld := false,
          halted := true } })

/-- R170, R173: with a Send at the head the worker dequeues it and records OK or BusError by the bus's answer;
WRK.APPLY and the row CMD.SEND are the same transition (log 9). -/
def Obligations.ApplySendRecordsBusAnswer : Prop :=
  ∀ (s : State) (q : Nat) (fr : Frame) (rest : List (Nat × Command)) (tx : TxAnswer),
    WorkerAt s .drain → s.node.cmdq = (q, .send fr) :: rest →
    ∃ t, exec (.wrkApply tx) s = .next t ∧ exec (.cmdSend fr tx) s = .next t ∧
      t = { s with node := { s.node with
        cmdq := rest
        results := s.node.results ++ [(q, match tx with | .ok => .ok | .fail => .busError fr)] } }

/-- R170, R172, R405 (the spec's decisions D3, D4, D5): with an AddFilter at the head, in the rule's order: the
same key with the same channel is NOOP, with another one ConfigConflict; a channel already bound is
ConfigConflict; a full table is CapacityError; else the entry goes to the end of the table with an empty channel.
That the recorded ConfigConflict and CapacityError carry the command's own entry, not an installed one, is the model's
choice (DESIGN CHOICE, log 14). WRK.APPLY, whatever the bus would answer, and CMD.ADD_FILTER are the same transition
(log 9). -/
def Obligations.ApplyAddFilterOutcomes : Prop :=
  ∀ (s : State) (q : Nat) (fe : FilterEntry) (rest : List (Nat × Command)) (tx : TxAnswer),
    WorkerAt s .drain → s.node.cmdq = (q, .addFilter fe) :: rest → TableOk s.cfg s.node →
    ∃ t out, exec (.wrkApply tx) s = .next t ∧ exec (.cmdAddFilter fe) s = .next t ∧
      ((∃ g ∈ s.node.filters, SameKey g fe ∧ g.chan = fe.chan) → out = .noop) ∧
      ((∃ g ∈ s.node.filters, SameKey g fe ∧ g.chan ≠ fe.chan) → out = .configConflict fe) ∧
      ((∀ g ∈ s.node.filters, ¬SameKey g fe) → (∃ g ∈ s.node.filters, g.chan = fe.chan) →
        out = .configConflict fe) ∧
      ((∀ g ∈ s.node.filters, ¬SameKey g fe ∧ g.chan ≠ fe.chan) →
        s.node.filters.length = s.cfg.nFilters → out = .capacityError fe) ∧
      ((∀ g ∈ s.node.filters, ¬SameKey g fe ∧ g.chan ≠ fe.chan) →
        s.node.filters.length ≠ s.cfg.nFilters → out = .ok) ∧
      (out ≠ .ok → t = { s with node := { s.node with
        cmdq := rest, results := s.node.results ++ [(q, out)] } }) ∧
      (out = .ok → ∃ m, chanGet m fe.chan = some [] ∧
        (∀ n, n ≠ fe.chan → chanGet m n = chanGet s.node.chans n) ∧
        t = { s with node := { s.node with
          cmdq := rest, results := s.node.results ++ [(q, .ok)],
          filters := s.node.filters ++ [fe], chans := m } })

/-- R170, R175: with a RemoveFilter at the head: an absent key is NOOP, another channel is ConfigConflict, else
the entry leaves the table, the order of the rest is kept, and its channel is deleted with its contents; every
other channel is as before (no frame is held here, R196). That the recorded ConfigConflict carries the command's own
entry, not the installed one, is the model's choice (DESIGN CHOICE, log 14). -/
def Obligations.ApplyRemoveFilterOutcomes : Prop :=
  ∀ (s : State) (q : Nat) (fe : FilterEntry) (rest : List (Nat × Command)) (tx : TxAnswer),
    WorkerAt s .drain → s.node.cmdq = (q, .removeFilter fe) :: rest → TableOk s.cfg s.node →
    ∃ t, exec (.wrkApply tx) s = .next t ∧ exec (.cmdRemoveFilter fe) s = .next t ∧
      ((∀ g ∈ s.node.filters, ¬SameKey g fe) → t = { s with node := { s.node with
        cmdq := rest, results := s.node.results ++ [(q, .noop)] } }) ∧
      ((∃ g ∈ s.node.filters, SameKey g fe ∧ g.chan ≠ fe.chan) → t = { s with node := { s.node with
        cmdq := rest, results := s.node.results ++ [(q, .configConflict fe)] } }) ∧
      (∀ before after, s.node.filters = before ++ fe :: after →
        ∃ m, chanGet m fe.chan = none ∧
          (∀ n, n ≠ fe.chan → chanGet m n = chanGet s.node.chans n) ∧
          t = { s with node := { s.node with
            cmdq := rest, results := s.node.results ++ [(q, .ok)],
            filters := before ++ after, chans := m } })

/-- R190: in DRAIN with an empty queue the worker goes on to POLL; with a command queued that step does not
exist, so every queued command is applied before the next poll (R94). -/
def Obligations.DrainEndsOnlyOnEmptyQueue : Prop :=
  ∀ s : State,
    (WorkerAt s .drain → s.node.cmdq = [] →
      exec .wrkDrainEnd s = .next { s with node := { s.node with phase := .poll } }) ∧
    (s.node.cmdq ≠ [] → exec .wrkDrainEnd s = .refused .notSelected)

/-- R171, R191 (the spec's decision D6 on a full channel): a frame polled is appended to the channel of the first
matching entry if there is room; without a match it is dropped; with a full channel it is discarded under
DROP_NEWEST and held under BLOCK. The worker returns to START in each case, no other channel changes, and
RX.DATA is WRK.POLL with that frame. -/
def Obligations.PolledFrameGoesToFirstMatch : Prop :=
  ∀ (s : State) (fr : Frame), WorkerAt s .poll →
    ∃ t, exec (.wrkPoll (.frame fr)) s = .next t ∧ exec (.rxData fr) s = .next t ∧
      ((∀ g ∈ s.node.filters, ¬MatchesFilter fr.id g) →
        t = { s with node := { s.node with phase := .start } }) ∧
      (∀ before f after ch, s.node.filters = before ++ f :: after → MatchesFilter fr.id f →
        (∀ g ∈ before, ¬MatchesFilter fr.id g) → chanGet s.node.chans f.chan = some ch →
        (ch.length < s.cfg.chanDepth →
          ∃ m, chanGet m f.chan = some (ch ++ [fr]) ∧
            (∀ n, n ≠ f.chan → chanGet m n = chanGet s.node.chans n) ∧
            t = { s with node := { s.node with phase := .start, chans := m } }) ∧
        (¬ch.length < s.cfg.chanDepth → s.cfg.chanFullPolicy = .dropNewest →
          t = { s with node := { s.node with phase := .start } }) ∧
        (¬ch.length < s.cfg.chanDepth → s.cfg.chanFullPolicy = .block →
          t = { s with node := { s.node with phase := .start, held := some (fr, f.chan) } }))

/-- R191: a timeout, an error frame and an invalid frame change nothing but the phase, as WRK.POLL and as their
own rows. -/
def Obligations.PollWithoutFrameOnlyEndsIteration : Prop :=
  ∀ s : State, WorkerAt s .poll →
    ∃ t, t = { s with node := { s.node with phase := .start } } ∧
      exec (.wrkPoll .none) s = .next t ∧ exec .rxNone s = .next t ∧
      exec (.wrkPoll .errorFrame) s = .next t ∧ exec .rxErrorFrame s = .next t ∧
      exec (.wrkPoll .invalid) s = .next t ∧ exec .rxInvalid s = .next t

/-- R188 (the spec's decision D6): the held frame goes to the end of its channel as soon as there is room, and
is held no longer; while the channel is full the worker has no such step. -/
def Obligations.DeliverMovesHeldFrame : Prop :=
  ∀ (s : State) (fr : Frame) (n : ChanName) (q : List Frame),
    s.node.halted = false → s.node.held = some (fr, n) → chanGet s.node.chans n = some q →
    (q.length < s.cfg.chanDepth →
      ∃ m, exec .wrkDeliver s = .next { s with node := { s.node with chans := m, held := none } } ∧
        chanGet m n = some (q ++ [fr]) ∧ ∀ n', n' ≠ n → chanGet m n' = chanGet s.node.chans n') ∧
    (¬q.length < s.cfg.chanDepth → exec .wrkDeliver s = .refused .notSelected)

/-- R193, R404 (the spec's decision D11): a worker fault is possible in every state that is not halted; it clears
`working` and the held frame, returns to the boundary, records Fatal (log 12), and the next worker step
halts. -/
def Obligations.FatalLeadsToShutdown : Prop :=
  ∀ s : State, s.node.halted = false →
    ∃ t, exec .wrkFatal s = .next t ∧
      t = { s with node := { s.node with
        working := false, held := none, phase := .start, fatal := true } } ∧
      ∃ u, exec .wrkStart t = .next u ∧ u.node.halted = true ∧ u.node.endState = .fatal

/-- R196, R188: where each worker step exists in a state that is not halted. With no frame held it is exactly one of
WRK.START, WRK.APPLY, WRK.DRAIN_END and WRK.POLL, the one its phase and queue select; with a frame held it is none of
these but WRK.DELIVER, and that one exactly while the frame's channel has room, so that with a full channel the worker
has no step but WRK.FATAL, which always exists. -/
def Obligations.WorkerStepsAreExclusive : Prop :=
  ∀ (s : State) (tx : TxAnswer) (ev : BusEvent), s.node.halted = false →
    ((∃ t, exec .wrkStart s = .next t) ↔ s.node.held = none ∧ s.node.phase = .start) ∧
    ((∃ t, exec (.wrkApply tx) s = .next t) ↔
      s.node.held = none ∧ s.node.phase = .drain ∧ s.node.cmdq ≠ []) ∧
    ((∃ t, exec .wrkDrainEnd s = .next t) ↔
      s.node.held = none ∧ s.node.phase = .drain ∧ s.node.cmdq = []) ∧
    ((∃ t, exec (.wrkPoll ev) s = .next t) ↔ s.node.held = none ∧ s.node.phase = .poll) ∧
    ((∃ t, exec .wrkDeliver s = .next t) ↔
      ∃ fr n q, s.node.held = some (fr, n) ∧ chanGet s.node.chans n = some q ∧ q.length < s.cfg.chanDepth) ∧
    (∃ t, exec .wrkFatal s = .next t)

/-- R195: after the halt every worker operation and every row of one is refused, a submit raises QueueClosed and
a read answers CLOSED, with no other change. -/
def Obligations.HaltedNodeOnlyRefuses : Prop :=
  ∀ (s : State) (w : BitVec 96) (n : ChanName) (tx : TxAnswer) (ev : BusEvent) (fr : Frame)
    (fe : FilterEntry), s.node.halted = true → HaltOk s.node →
    exec (.nodeSubmit w) s = .next { s with reply := some (.raised .queueClosed) } ∧
    exec (.chanRead n) s = .next { s with reply := some .closed } ∧
    exec .nodeStop s = .next { s with reply := some .done } ∧
    (∀ i ∈ [Instr.wrkStart, .wrkApply tx, .wrkDrainEnd, .wrkPoll ev, .wrkDeliver, .wrkShutdown, .wrkFatal,
        .rxData fr, .rxNone, .rxErrorFrame, .rxInvalid, .cmdSend fr tx, .cmdAddFilter fe,
        .cmdRemoveFilter fe],
      exec i s = .refused .notSelected)

/-! ## The EPC control surface -/

/-- R212, R213, R214, R228 (bounds inclusive; mode and limit codes, byte order and the s16 cap are the spec's
decisions D13 to D16, D19, D20, D59): a CV, CC or CP call whose limit type is another quantity and whose
references lie within their bounds submits exactly the MODE frame of R116, with the numbers that `MODE_CODE` and
`LIMIT_CODE` give, and drains, whether or not the instance is open (R230); what the drain does is
EpcDrainDecodesOldestFrames. -/
def Obligations.ModeCallsSubmitTheirFrame : Prop :=
  ∀ (s : State) (e : Nat) (r : Epc) (ref lr : Int) (lt : LimitType),
    EpcIdle s e r → Accepting s → FitsS16 ref → LimitRefOk r.props lt lr →
    ∀ frame : BitVec 3 → Frame,
      (∀ code, frame code = ⟨epcId r.devId 0, modeBytes 1 code (limitNumber s.cfg.limitCode lt) ref lr⟩) →
    (lt ≠ .voltage → LimitRefOk r.props .voltage ref →
      exec (.epcSetCvMode e ref lt lr) s =
        .next ((drainEpc (enqueued s (.send (frame s.cfg.modeCode.cv))) e r).answer .done)) ∧
    (lt ≠ .current → LimitRefOk r.props .current ref →
      exec (.epcSetCcMode e ref lt lr) s =
        .next ((drainEpc (enqueued s (.send (frame s.cfg.modeCode.cc))) e r).answer .done)) ∧
    (lt ≠ .power → LimitRefOk r.props .power ref →
      exec (.epcSetCpMode e ref lt lr) s =
        .next ((drainEpc (enqueued s (.send (frame s.cfg.modeCode.cp))) e r).answer .done))

/-- R228, R405, R401 (the order is the spec's decision D19): InvalidLimitError first, then RangeError on the
reference, then RangeError on the limit reference; each changes nothing but the answer, even with a full or closed
queue. -/
def Obligations.ModeCallErrorsInOrder : Prop :=
  ∀ (s : State) (e : Nat) (r : Epc) (ref lr : Int) (lt : LimitType), EpcIdle s e r →
    ∀ call ∈ [(LimitType.voltage, Instr.epcSetCvMode e ref lt lr), (.current, .epcSetCcMode e ref lt lr),
        (.power, .epcSetCpMode e ref lt lr)],
      (lt = call.1 →
        exec call.2 s = .next { s with reply := some (.raised (.invalidLimitError lt)) }) ∧
      (lt ≠ call.1 → ¬(LimitRefOk r.props call.1 ref ∧ FitsS16 ref) →
        exec call.2 s = .next { s with reply := some (.raised (.rangeError ref)) }) ∧
      (lt ≠ call.1 → LimitRefOk r.props call.1 ref → FitsS16 ref → ¬LimitRefOk r.props lt lr →
        exec call.2 s = .next { s with reply := some (.raised (.rangeError lr)) })

/-- R215, R216 (frames are the spec's decisions D17, D18): `set_wait_mode` sends enable 1, WAIT, TIME, reference 0 and
the given time; `disable` sends enable 0, WAIT, TIME and two zero references, which under the decided codes are eight
zero bytes; both then drain. -/
def Obligations.WaitAndDisableSubmitTheirFrames : Prop :=
  ∀ (s : State) (e : Nat) (r : Epc) (lr : Int), EpcIdle s e r → Accepting s →
    ∀ frame : BitVec 1 → Int → Frame,
      (∀ en v, frame en v = ⟨epcId r.devId 0, modeBytes en s.cfg.modeCode.wait s.cfg.limitCode.time 0 v⟩) →
    (0 ≤ lr → lr ≤ 2147483647 →
      exec (.epcSetWaitMode e lr) s = .next ((drainEpc (enqueued s (.send (frame 1 lr))) e r).answer .done)) ∧
    exec (.epcDisable e) s = .next ((drainEpc (enqueued s (.send (frame 0 0))) e r).answer .done) ∧
    (CodesDecided s.cfg → (frame 0 0).data = [0, 0, 0, 0, 0, 0, 0, 0])

/-- R217, R120 (the layout is the spec's decision D22): `set_periodic` with enables in 0..1 and periods in 0..32767 sends
the six bytes of the PERIODIC frame with DLC 6 and drains. -/
def Obligations.SetPeriodicSubmitsItsFrame : Prop :=
  ∀ (s : State) (e : Nat) (r : Epc) (ae ap ee ep te tp : Int), EpcIdle s e r → Accepting s →
    (∀ x ∈ [ae, ee, te], x = 0 ∨ x = 1) → (∀ p ∈ [ap, ep, tp], 0 ≤ p ∧ p ≤ 32767) →
    exec (.epcSetPeriodic e ae ap ee ep te tp) s =
      .next ((drainEpc (enqueued s (.send ⟨epcId r.devId 7, periodicBytes ae ap ee ep te tp⟩)) e r).answer
        .done)

/-- R218 to R222, R231, R124 (the spec's decision D21): a limit call with both values within the hardware bounds and
their field sends the limit frame of its type with DLC 4 and drains; max below min is accepted, and the properties are
not written by the call itself. -/
def Obligations.LimitCallsSubmitTheirFrame : Prop :=
  ∀ (s : State) (e : Nat) (r : Epc) (mx mn : Int), EpcIdle s e r → Accepting s →
    ∀ call ∈ [(Quantity.lsVolt, 2#4, Instr.epcSetLsVoltLimit e mx mn), (.lsCurr, 3#4, .epcSetLsCurrLimit e mx mn),
        (.hsVolt, 4#4, .epcSetHsVoltLimit e mx mn), (.lsPwr, 5#4, .epcSetLsPwrLimit e mx mn),
        (.temp, 6#4, .epcSetTempLimit e mx mn)],
      (∀ v ∈ [mx, mn], (s.cfg.hwBounds.of call.1).min ≤ v ∧ v ≤ (s.cfg.hwBounds.of call.1).max ∧
        (if call.1 = .lsVolt ∨ call.1 = .hsVolt then 0 ≤ v ∧ v ≤ 65535 else FitsS16 v)) →
      exec call.2.2 s =
        .next ((drainEpc (enqueued s (.send ⟨epcId r.devId call.2.1, limitBytes mx mn⟩)) e r).answer .done)

/-- R215, R217, R231, R401: the configuration calls raise RangeError on the first value outside its range, and then
change nothing but the answer. `set_periodic` checks the enables in order before the periods in order, a limit call the
max before the min. -/
def Obligations.ConfigurationCallsRaiseRangeError : Prop :=
  ∀ (s : State) (e : Nat) (r : Epc), EpcIdle s e r →
    (∀ lr : Int, ¬(0 ≤ lr ∧ lr ≤ 2147483647) →
      exec (.epcSetWaitMode e lr) s = .next { s with reply := some (.raised (.rangeError lr)) }) ∧
    (∀ (ae ap ee ep te tp v : Int) (before after : List Int),
      ([ae, ee, te] = before ++ v :: after ∧ (∀ x ∈ before, x = 0 ∨ x = 1) ∧ ¬(v = 0 ∨ v = 1)) ∨
        ((∀ x ∈ [ae, ee, te], x = 0 ∨ x = 1) ∧ [ap, ep, tp] = before ++ v :: after ∧
          (∀ p ∈ before, 0 ≤ p ∧ p ≤ 32767) ∧ ¬(0 ≤ v ∧ v ≤ 32767)) →
      exec (.epcSetPeriodic e ae ap ee ep te tp) s =
        .next { s with reply := some (.raised (.rangeError v)) }) ∧
    (∀ mx mn : Int,
      ∀ call ∈ [(Quantity.lsVolt, Instr.epcSetLsVoltLimit e mx mn), (.lsCurr, .epcSetLsCurrLimit e mx mn),
          (.hsVolt, .epcSetHsVoltLimit e mx mn), (.lsPwr, .epcSetLsPwrLimit e mx mn),
          (.temp, .epcSetTempLimit e mx mn)],
        ∀ ok : Int → Prop,
          (∀ v, ok v ↔ (s.cfg.hwBounds.of call.1).min ≤ v ∧ v ≤ (s.cfg.hwBounds.of call.1).max ∧
            (if call.1 = .lsVolt ∨ call.1 = .hsVolt then 0 ≤ v ∧ v ≤ 65535 else FitsS16 v)) →
          (¬ok mx → exec call.2 s = .next { s with reply := some (.raised (.rangeError mx)) }) ∧
          (ok mx → ¬ok mn → exec call.2 s = .next { s with reply := some (.raised (.rangeError mn)) }))

/-- R210, R224, R225, R308, R311, R401: a `set_*` call that passes its checks, `open` and `close` raise QueueClosed or
QueueFull from their submit and then change nothing but the answer: no drain, no wait. BMS.NEW does too, but the record
it has constructed before its submit stays (the model's reading, log 11). -/
def Obligations.CallsRaiseSubmitErrors : Prop :=
  ∀ (s : State) (err : HostError),
    (s.node.cmdqOpen = false ∧ err = .queueClosed) ∨
      (s.node.cmdqOpen = true ∧ s.node.cmdq.length = s.cfg.cmdDepth ∧ err = .queueFull) →
    (∀ (e : Nat) (r : Epc) (ref lr mx mn ae ap ee ep te tp : Int) (lt : LimitType), EpcIdle s e r →
    ∀ call ∈ [(modeCheck r.props .voltage ref lt lr, Instr.epcSetCvMode e ref lt lr),
        (modeCheck r.props .current ref lt lr, .epcSetCcMode e ref lt lr),
        (modeCheck r.props .power ref lt lr, .epcSetCpMode e ref lt lr),
        (waitCheck lr, .epcSetWaitMode e lr), (none, .epcDisable e),
        (periodicCheck ae ap ee ep te tp, .epcSetPeriodic e ae ap ee ep te tp),
        (limitCheck s.cfg.hwBounds .lsVolt mx mn, .epcSetLsVoltLimit e mx mn),
        (limitCheck s.cfg.hwBounds .lsCurr mx mn, .epcSetLsCurrLimit e mx mn),
        (limitCheck s.cfg.hwBounds .hsVolt mx mn, .epcSetHsVoltLimit e mx mn),
        (limitCheck s.cfg.hwBounds .lsPwr mx mn, .epcSetLsPwrLimit e mx mn),
        (limitCheck s.cfg.hwBounds .temp mx mn, .epcSetTempLimit e mx mn),
        (none, .epcOpen e .issue), (none, .epcClose e .issue)],
      call.1 = none → exec call.2 s = .next { s with reply := some (.raised err) }) ∧
    (∀ (k : Nat) (b : Bms), BmsIdle s k b →
      exec (.bmsClose k .issue) s = .next { s with reply := some (.raised err) }) ∧
    (∀ (ch : ChanName) (address mask : CanId) (now : Nat),
      exec (.bmsNew ch address mask now .issue) s = .next { s with
        bmses := s.bmses ++ [Bms.reset ch address mask now], reply := some (.raised err) })

/-- R211, R260 (the bound is the OPEN parameter of D34): a drain decodes the oldest frames of the instance's channel, in
order and at most `EPC_DRAIN_MAX` of them, into its record, leaves the later ones queued, and changes nothing else; a
closed channel changes nothing at all. Each row EPC.RX_* is the decoding of one frame by such a drain: while `get_data`
is in progress on the instance, and its next frame is the row's (log 8), the row takes it from the frames still to decode
and writes what the drain's decoder gives for it, for each of the 16 message types; no channel and no other call
changes. -/
def Obligations.EpcDrainDecodesOldestFrames : Prop :=
  (∀ (s : State) (e : Nat) (r : Epc), s.epcs[e]? = some r →
    (chanGet s.node.chans r.chan = none → drainEpc s e r = s) ∧
    (∀ q, chanGet s.node.chans r.chan = some q →
      ∃ m, drainEpc s e r = { s with
          node := { s.node with chans := m }
          epcs := s.epcs.set e ((q.take s.cfg.epcDrainMax).foldl (decodeFrame s.cfg) r) } ∧
        chanGet m r.chan = some (q.drop s.cfg.epcDrainMax) ∧
        ∀ n, n ≠ r.chan → chanGet m n = chanGet s.node.chans n)) ∧
  (∀ (s : State) (d : Device) (q : List Frame),
    ∃ calls, afterRead s d q = { s with drains := calls } ∧ calls.length = s.drains.length ∧
      (∀ x, drainOf s d = some x → drainOf (afterRead s d q) d = some { x with frames := q }) ∧
      ∀ d', d' ≠ d → drainOf (afterRead s d q) d' = drainOf s d') ∧
  (∀ (s : State) (e : Nat) (r : Epc) (q : List Frame) (dev : BitVec 7) (low : BitVec 1) (data : List Byte),
    ∀ row ∈ epcRows e dev low data, EpcDraining s e r ⟨dev ++ row.1, data⟩ q →
      exec row.2 s = .next { afterRead s (.epc e) q with
        epcs := s.epcs.set e (decodeFrame s.cfg r ⟨dev ++ row.1, data⟩) })

/-- R223, R227, R462 (the request lists are the spec's decision D31): `get_data` and `get_properties` answer in every
state. Without `update`, or on a closed queue, they only drain; with it on an open queue they first queue the REQUEST
frames of their list in order, as many as there is room for, and skip the others. The answer is the record after the
drain. `get_data` in two transitions (the model's form of the same call, log 8) queues its requests and takes the frames
of its drain at its start, answers the live data at its return, once every frame is decoded, and then leaves exactly the
state that the call in one transition leaves. -/
def Obligations.MonitoringCallsAlwaysAnswer : Prop :=
  (∀ (s : State) (e : Nat) (r : Epc), EpcIdle s e r →
    ∀ types : List Byte, ∀ call : Bool → Instr, ∀ view : Epc → Reply,
      (types = [0x00, 0x0B, 0x0C, 0x0D] ∧ call = (fun u => .epcGetData e (.whole u)) ∧ view = (fun x => .live x.live)) ∨
      (types = [0x0A, 0x02, 0x03, 0x04, 0x05, 0x06] ∧ call = .epcGetProperties e ∧
        view = (fun x => .props x.props)) →
      exec (call false) s = .next ((drainEpc s e r).answer (view (drained s r).2)) ∧
      (s.node.cmdqOpen = false → exec (call true) s = exec (call false) s) ∧
      (s.node.cmdqOpen = true → s.node.cmdq.length ≤ s.cfg.cmdDepth →
        ∃ u, u = (types.take (s.cfg.cmdDepth - s.node.cmdq.length)).foldl
            (fun t b => enqueued t (.send ⟨epcId r.devId 1, [b]⟩)) s ∧
          exec (call true) s = .next ((drainEpc u e r).answer (view (drained u r).2)))) ∧
  (∀ (s : State) (e : Nat) (r : Epc) (update : Bool) (u : State), EpcIdle s e r →
    (u = s ∧ (update = false ∨ s.node.cmdqOpen = false)) ∨
      (u = ([0x00, 0x0B, 0x0C, 0x0D].take (s.cfg.cmdDepth - s.node.cmdq.length)).foldl
          (fun t b => enqueued t (.send ⟨epcId r.devId 1, [b]⟩)) s ∧
        update = true ∧ s.node.cmdqOpen = true ∧ s.node.cmdq.length ≤ s.cfg.cmdDepth) →
    ∃ m fs, exec (.epcGetData e (.start update)) s = .next { u with
        node := { u.node with chans := m }
        drains := s.drains ++ [⟨.epc e, fs, 0⟩]
        reply := some (.draining fs.length) } ∧
      (chanGet s.node.chans r.chan = none → m = s.node.chans ∧ fs = []) ∧
      (∀ q, chanGet s.node.chans r.chan = some q →
        fs = q.take s.cfg.epcDrainMax ∧ chanGet m r.chan = some (q.drop s.cfg.epcDrainMax)) ∧
      ∀ n, n ≠ r.chan → chanGet m n = chanGet s.node.chans n) ∧
  (∀ (s : State) (e : Nat) (r : Epc) (x : Drain), s.epcs[e]? = some r → drainOf s (.epc e) = some x →
    (x.frames ≠ [] →
      exec (.epcGetData e .finish) s = .next { s with reply := some (.draining x.frames.length) }) ∧
    (x.frames = [] → exec (.epcGetData e .finish) s = .next { s with
      drains := s.drains.filter (fun y => y.device ≠ .epc e), reply := some (.live r.live) })) ∧
  (∀ (s t u v : State) (e : Nat) (update : Bool), exec (.epcGetData e (.start update)) s = .next t →
    Relation.ReflTransGen (EpcRowStep e) t u → exec (.epcGetData e .finish) u = .next v →
    drainOf v (.epc e) = none → exec (.epcGetData e (.whole update)) s = .next v)

/-- R224 (waiting is the spec's decision D32, in two turns: log 5): `open` submits the instance's filter
`(dev_id << 4, 0x7F0, chan)` and is held; once its command has the outcome OK or NOOP it writes `opened` and returns. -/
def Obligations.EpcOpenInstallsFilterThenOpens : Prop :=
  ∀ (s : State) (e : Nat) (r : Epc), s.epcs[e]? = some r →
    (EpcIdle s e r → Accepting s → exec (.epcOpen e .issue) s =
      .next { enqueued s (.addFilter ⟨epcId r.devId 0, 0x7F0, r.chan⟩) with
        waits := s.waits ++ [⟨s.node.seq, .epcOpen, e⟩], reply := some (.waiting s.node.seq) }) ∧
    (∀ q out, ⟨q, .epcOpen, e⟩ ∈ s.waits → s.node.results.lookup q = some out → out = .ok ∨ out = .noop →
      exec (.epcOpen e (.resume q)) s =
        .next { s with
          epcs := s.epcs.set e { r with opened := true }
          waits := s.waits.filter (· ≠ ⟨q, .epcOpen, e⟩)
          reply := some .done })

/-- R225 (D32, log 5): `close` submits the removal of the instance's filter and is held; with OK or NOOP, or at a halt
without an outcome, it clears `opened` and returns. -/
def Obligations.EpcCloseRemovesFilterThenCloses : Prop :=
  ∀ (s : State) (e : Nat) (r : Epc), s.epcs[e]? = some r →
    (EpcIdle s e r → Accepting s → exec (.epcClose e .issue) s =
      .next { enqueued s (.removeFilter ⟨epcId r.devId 0, 0x7F0, r.chan⟩) with
        waits := s.waits ++ [⟨s.node.seq, .epcClose, e⟩], reply := some (.waiting s.node.seq) }) ∧
    (∀ q, ⟨q, .epcClose, e⟩ ∈ s.waits →
      s.node.results.lookup q = some .ok ∨ s.node.results.lookup q = some .noop ∨
        (s.node.results.lookup q = none ∧ s.node.halted = true) →
      exec (.epcClose e (.resume q)) s =
        .next { s with
          epcs := s.epcs.set e { r with opened := false }
          waits := s.waits.filter (· ≠ ⟨q, .epcClose, e⟩)
          reply := some .done })

/-- R224, R225, R308, R311, R423: a held call without an outcome on a running node stays held; a ConfigConflict or
CapacityError outcome is raised and ends the call; at a halt without an outcome `open` and the BMS construction raise
QueueClosed. Nothing else changes. -/
def Obligations.HeldCallsWaitOrRaise : Prop :=
  ∀ (s : State) (q k : Nat) (fe : FilterEntry) (ch : ChanName) (address mask : CanId) (now : Nat),
    (s.waits.map Wait.seq).Nodup →
    ∀ call ∈ [(WaitKind.epcOpen, Instr.epcOpen k (.resume q)), (.epcClose, .epcClose k (.resume q)),
        (.bmsNew, .bmsNew ch address mask now (.resume q)), (.bmsClose, .bmsClose k (.resume q))],
      ⟨q, call.1, k⟩ ∈ s.waits →
      (s.node.results.lookup q = none → s.node.halted = false →
        exec call.2 s = .next { s with reply := some (.waiting q) }) ∧
      (s.node.results.lookup q = some (.configConflict fe) →
        exec call.2 s = .next { s with
          waits := s.waits.filter (· ≠ ⟨q, call.1, k⟩), reply := some (.raised (.configConflict fe)) }) ∧
      (s.node.results.lookup q = some (.capacityError fe) →
        exec call.2 s = .next { s with
          waits := s.waits.filter (· ≠ ⟨q, call.1, k⟩), reply := some (.raised (.capacityError fe)) }) ∧
      (s.node.results.lookup q = none → s.node.halted = true → call.1 = .epcOpen ∨ call.1 = .bmsNew →
        exec call.2 s = .next { s with
          waits := s.waits.filter (· ≠ ⟨q, call.1, k⟩), reply := some (.raised .queueClosed) })

/-- R226, R452, R401 (the reset values are the spec's decisions D30, D35): with a device id up to 63 and every limit
within the hardware bounds a new instance is constructed, not open, with the given properties and the reset live data;
its handle (log 4) is the answer. Otherwise RangeError is raised and nothing is constructed: on a device id above 63, and
else on the first of the ten limits that lies outside the bounds of its quantity, in the order of the rule, max before
min. -/
def Obligations.EpcNewConstructsOrRaisesRangeError : Prop :=
  ∀ (s : State) (d : Nat) (ch : ChanName) (p : EpcProps) (limits : List (Quantity × Int)) (ok : Quantity × Int → Prop),
    limits = [(.lsVolt, (p.lsVoltMax.toNat : Int)), (.lsVolt, (p.lsVoltMin.toNat : Int)),
      (.lsCurr, p.lsCurrMax.toInt), (.lsCurr, p.lsCurrMin.toInt), (.lsPwr, p.lsPwrMax.toInt), (.lsPwr, p.lsPwrMin.toInt),
      (.hsVolt, (p.hsVoltMax.toNat : Int)), (.hsVolt, (p.hsVoltMin.toNat : Int)),
      (.temp, p.tempMax.toInt), (.temp, p.tempMin.toInt)] →
    (∀ x, ok x ↔ (s.cfg.hwBounds.of x.1).min ≤ x.2 ∧ x.2 ≤ (s.cfg.hwBounds.of x.1).max) →
    (63 < d → exec (.epcNew d ch p) s = .next { s with reply := some (.raised (.rangeError d)) }) ∧
    (d ≤ 63 → ∀ before x after, limits = before ++ x :: after → (∀ y ∈ before, ok y) → ¬ok x →
      exec (.epcNew d ch p) s = .next { s with reply := some (.raised (.rangeError x.2)) }) ∧
    (d ≤ 63 → (∀ x ∈ limits, ok x) →
      exec (.epcNew d ch p) s = .next { s with
        epcs := s.epcs ++ [{
          devId := BitVec.ofNat 6 d, chan := ch, opened := false, props := p
          live :=
            { outputEnable := 0, mode := .wait, limitMode := .time, limitRef := 0, ref := 0, lsVolt := 0,
              lsCurr := 0, lsPwr := 0, hsVolt := 0, tempBody := 0, tempAnode := 0, tempAmb := 0,
              statusKind := .ok, statusCode := 0, statusFlags := 0 }
          periodic := ⟨0, 0, 0, 0, 0, 0⟩ }]
        reply := some (.handle s.epcs.length) })

/-! ## The EPC decoder

Each statement on a row is about an instance on which `get_data` is in progress, with the row's frame the next one of its
drain (R100, R211, log 8): the row takes that frame from those still to decode and writes the record. -/

/-- R261, R116, R117, R118 (codes and byte order are the spec's decisions D13 to D16, D27): an eight-byte MODE frame writes
enable, mode, limit type, reference and limit reference from its bits, and ignores bits 15..6; mode and limit type are those
whose numbers the code tables give, under the decided tables the numbers written out here. The reserved codes 6 and 7 change
no record. As a row it takes the frame from those that the call in progress has still to decode (log 8); no other field of
the state changes. -/
def Obligations.ModeFrameUpdatesLiveData : Prop :=
  ∀ (s : State) (e : Nat) (r : Epc) (q : List Frame) (dev : BitVec 7) (b0 b1 b2 b3 b4 b5 b6 b7 : Byte),
    EpcDraining s e r ⟨dev ++ 0#4, [b0, b1, b2, b3, b4, b5, b6, b7]⟩ q → CodesOk s.cfg →
    (∀ m lt,
      (b0.extractLsb' 1 3 = modeNumber s.cfg.modeCode m ∧ b0.extractLsb' 4 2 = limitNumber s.cfg.limitCode lt) ∨
        (CodesDecided s.cfg ∧
          (b0.extractLsb' 1 3, m) ∈
            [(0#3, Mode.wait), (1#3, .cc), (2#3, .cv), (3#3, .cp), (4#3, .idle), (5#3, .error)] ∧
          (b0.extractLsb' 4 2, lt) ∈ [(0#2, LimitType.time), (1#2, .voltage), (2#2, .current), (3#2, .power)]) →
      exec (.epcRxMode e dev [b0, b1, b2, b3, b4, b5, b6, b7]) s =
        .next { afterRead s (.epc e) q with epcs := s.epcs.set e { r with live := { r.live with
          outputEnable := b0.extractLsb' 0 1
          mode := m
          limitMode := lt
          ref := b3 ++ b2
          limitRef := b7 ++ b6 ++ b5 ++ b4 } } }) ∧
    (5 < (b0.extractLsb' 1 3).toNat →
      exec (.epcRxMode e dev [b0, b1, b2, b3, b4, b5, b6, b7]) s = .next (afterRead s (.epc e) q))

/-- R262 to R266, R274 (the spec's decisions D13, D29): a limit frame writes the max and min of its quantity if both lie
within the hardware bounds (voltages unsigned, the others signed) and changes no record otherwise; bytes after the fourth
are ignored. As a row it takes the frame from those that the call in progress has still to decode (log 8). -/
def Obligations.LimitFramesUpdateTheirPair : Prop :=
  ∀ (s : State) (e : Nat) (r : Epc) (later : List Frame) (dev : BitVec 7) (b0 b1 b2 b3 : Byte) (rest : List Byte),
    ∀ q type call, (q, type, call) ∈ [(Quantity.lsVolt, 2#4, Instr.epcRxLsVoltLim e dev (b0 :: b1 :: b2 :: b3 :: rest)),
        (.lsCurr, 3#4, .epcRxLsCurrLim e dev (b0 :: b1 :: b2 :: b3 :: rest)),
        (.hsVolt, 4#4, .epcRxHsVoltLim e dev (b0 :: b1 :: b2 :: b3 :: rest)),
        (.lsPwr, 5#4, .epcRxLsPwrLim e dev (b0 :: b1 :: b2 :: b3 :: rest)),
        (.temp, 6#4, .epcRxTempLim e dev (b0 :: b1 :: b2 :: b3 :: rest))] →
      EpcDraining s e r ⟨dev ++ type, b0 :: b1 :: b2 :: b3 :: rest⟩ later →
      ∀ value : BitVec 16 → Int,
        (value = if q = .lsVolt ∨ q = .hsVolt then (fun v => (v.toNat : Int)) else (fun v => v.toInt)) →
        ∀ mx mn : BitVec 16, mx = b1 ++ b0 → mn = b3 ++ b2 →
        ((∀ v ∈ [mx, mn], (s.cfg.hwBounds.of q).min ≤ value v ∧ value v ≤ (s.cfg.hwBounds.of q).max) →
          exec call s = .next { afterRead s (.epc e) later with epcs := s.epcs.set e { r with props :=
            match q with
            | .lsVolt => { r.props with lsVoltMax := mx, lsVoltMin := mn }
            | .lsCurr => { r.props with lsCurrMax := mx, lsCurrMin := mn }
            | .lsPwr => { r.props with lsPwrMax := mx, lsPwrMin := mn }
            | .hsVolt => { r.props with hsVoltMax := mx, hsVoltMin := mn }
            | .temp => { r.props with tempMax := mx, tempMin := mn } } }) ∧
        ((∃ v ∈ [mx, mn], ¬((s.cfg.hwBounds.of q).min ≤ value v ∧ value v ≤ (s.cfg.hwBounds.of q).max)) →
          exec call s = .next (afterRead s (.epc e) later))

/-- R267 (layout: the spec's decision D22): a PERIODIC frame of at least six bytes writes the three enables and the three
15-bit periods. As a row it takes the frame from those that the call in progress has still to decode (log 8). -/
def Obligations.PeriodicFrameUpdatesPeriods : Prop :=
  ∀ (s : State) (e : Nat) (r : Epc) (q : List Frame) (dev : BitVec 7) (b0 b1 b2 b3 b4 b5 : Byte) (rest : List Byte),
    EpcDraining s e r ⟨dev ++ 7#4, b0 :: b1 :: b2 :: b3 :: b4 :: b5 :: rest⟩ q →
    exec (.epcRxPeriodic e dev (b0 :: b1 :: b2 :: b3 :: b4 :: b5 :: rest)) s =
      .next { afterRead s (.epc e) q with epcs := s.epcs.set e { r with periodic :=
        { ackEn := b0.extractLsb' 0 1, ackPeriod := (b1 ++ b0).extractLsb' 1 15
          electEn := b2.extractLsb' 0 1, electPeriod := (b3 ++ b2).extractLsb' 1 15
          tempEn := b4.extractLsb' 0 1, tempPeriod := (b5 ++ b4).extractLsb' 1 15 } } }

/-- R268: an INFO frame of at least four bytes writes the device id, firmware version, hardware version and serial number
into the properties; the device id of the instance is not compared or changed (D56). As a row it takes the frame from
those that the call in progress has still to decode (log 8). -/
def Obligations.InfoFrameUpdatesProperties : Prop :=
  ∀ (s : State) (e : Nat) (r : Epc) (q : List Frame) (dev : BitVec 7) (b0 b1 b2 b3 : Byte) (rest : List Byte),
    EpcDraining s e r ⟨dev ++ 10#4, b0 :: b1 :: b2 :: b3 :: rest⟩ q →
    exec (.epcRxInfo e dev (b0 :: b1 :: b2 :: b3 :: rest)) s =
      .next { afterRead s (.epc e) q with epcs := s.epcs.set e { r with props := { r.props with
        canId := (b3 ++ b2 ++ b1 ++ b0).extractLsb' 0 6
        fwVer := (b3 ++ b2 ++ b1 ++ b0).extractLsb' 6 5
        hwVer := (b3 ++ b2 ++ b1 ++ b0).extractLsb' 11 13
        sn := b3 } } }

/-- R269, R122, R56 (kind and code width: the spec's decision D23): a STATUS frame of one to eight bytes writes the six
flags; with no flag the status is OK with code 0; else the code is every payload bit above bit 5 and the kind is COMM_ERROR
exactly if the communication flag, bit 3, is set. As a row it takes the frame from those that the call in progress has
still to decode (log 8). -/
def Obligations.StatusFrameUpdatesStatus : Prop :=
  ∀ (s : State) (e : Nat) (r : Epc) (q : List Frame) (dev : BitVec 7) (b0 : Byte) (rest : List Byte),
    EpcDraining s e r ⟨dev ++ 11#4, b0 :: rest⟩ q →
    rest.length ≤ 7 →
    ∃ kind code, exec (.epcRxStatus e dev (b0 :: rest)) s =
        .next { afterRead s (.epc e) q with epcs := s.epcs.set e { r with live := { r.live with
          statusFlags := b0.extractLsb' 0 6, statusKind := kind, statusCode := code } } } ∧
      (b0.extractLsb' 0 6 = 0 → kind = .ok ∧ code = 0) ∧
      (b0.extractLsb' 0 6 ≠ 0 →
        kind = (if b0.getLsbD 3 then .commError else .internalError) ∧
        code.toNat = (b0.extractLsb' 6 2).toNat + 4 * leNat rest)

/-- R270, R123, R275 (byte order D13, rounding D26): an ELEC_MEAS frame of at least six bytes writes the low-side voltage
and current and the high-side voltage, and the derived power, whose stored 16 bits are exactly the quotient of the exact
product by 100000 under the configured rounding. As a row it takes the frame from those that the call in progress has
still to decode (log 8). -/
def Obligations.ElecFrameDerivesPower : Prop :=
  ∀ (s : State) (e : Nat) (r : Epc) (q : List Frame) (dev : BitVec 7) (b0 b1 b2 b3 b4 b5 : Byte) (rest : List Byte),
    EpcDraining s e r ⟨dev ++ 12#4, b0 :: b1 :: b2 :: b3 :: b4 :: b5 :: rest⟩ q →
    ∃ pwr : BitVec 16,
      exec (.epcRxElecMeas e dev (b0 :: b1 :: b2 :: b3 :: b4 :: b5 :: rest)) s =
        .next { afterRead s (.epc e) q with epcs := s.epcs.set e { r with live := { r.live with
          lsVolt := b1 ++ b0, lsCurr := b3 ++ b2, hsVolt := b5 ++ b4, lsPwr := pwr } } } ∧
      (s.cfg.powerRounding = .trunc →
        pwr.toInt = Int.tdiv ((b3 ++ b2).toInt * ((b1 ++ b0).toNat : Int)) 100000) ∧
      (s.cfg.powerRounding = .floor →
        pwr.toInt = Int.fdiv ((b3 ++ b2).toInt * ((b1 ++ b0).toNat : Int)) 100000)

/-- R271, R55, R125 (positions: the spec's decision D24): a TEMP_MEAS frame of any length writes each temperature whose
capability bit of `hw_ver` is set and whose two bytes it reaches, and leaves the others untouched. As a row it takes the
frame from those that the call in progress has still to decode (log 8). -/
def Obligations.TempFrameUpdatesPresentSensors : Prop :=
  ∀ (s : State) (e : Nat) (r : Epc) (q : List Frame) (dev : BitVec 7) (data : List Byte),
    EpcDraining s e r ⟨dev ++ 13#4, data⟩ q →
    ∃ t, exec (.epcRxTempMeas e dev data) s = .next t ∧
      t = { afterRead s (.epc e) q with epcs := s.epcs.set e { r with live := { r.live with
        tempBody := if r.props.hwVer.getLsbD 9 = true ∧ 2 ≤ data.length then
          data.getD 1 0 ++ data.getD 0 0 else r.live.tempBody
        tempAnode := if r.props.hwVer.extractLsb' 7 2 ≠ 0 ∧ 4 ≤ data.length then
          data.getD 3 0 ++ data.getD 2 0 else r.live.tempAnode
        tempAmb := if r.props.hwVer.getLsbD 10 = true ∧ 6 ≤ data.length then
          data.getD 5 0 ++ data.getD 4 0 else r.live.tempAmb } } }

/-- R273: a frame of type 0x1, 0x8, 0x9, 0xE or 0xF changes no record, in a drain and as a row, which only takes it from
those that the call in progress has still to decode (log 8; the anomaly it logs is no state, R6). -/
def Obligations.IgnoredFramesChangeNothing : Prop :=
  ∀ (s : State) (e : Nat) (r : Epc) (q : List Frame) (dev : BitVec 7) (low : BitVec 1) (data : List Byte),
    ∀ row ∈ [(1#4, Instr.epcRxIgnored e dev data), (4#3 ++ low, .epcRxIgnored89 e dev low data),
        (7#3 ++ low, .epcRxIgnoredEF e dev low data)],
      decodeFrame s.cfg r ⟨dev ++ row.1, data⟩ = r ∧
      (EpcDraining s e r ⟨dev ++ row.1, data⟩ q → exec row.2 s = .next (afterRead s (.epc e) q))

/-- R272, R127 (the minimum lengths are the spec's decision D25): a frame shorter than the minimum DLC of its type changes
no record, in a drain and as a row, which only takes it from those that the call in progress has still to decode (log 8). -/
def Obligations.ShortFramesChangeNothing : Prop :=
  ∀ (s : State) (e : Nat) (r : Epc) (q : List Frame) (dev : BitVec 7) (data : List Byte),
    ∀ row ∈ [(8, 0x0#4, Instr.epcRxMode e dev data), (4, 0x2#4, .epcRxLsVoltLim e dev data),
        (4, 0x3#4, .epcRxLsCurrLim e dev data), (4, 0x4#4, .epcRxHsVoltLim e dev data),
        (4, 0x5#4, .epcRxLsPwrLim e dev data), (4, 0x6#4, .epcRxTempLim e dev data),
        (6, 0x7#4, .epcRxPeriodic e dev data), (4, 0xA#4, .epcRxInfo e dev data),
        (1, 0xB#4, .epcRxStatus e dev data), (6, 0xC#4, .epcRxElecMeas e dev data)],
      data.length < row.1 →
      decodeFrame s.cfg r ⟨dev ++ row.2.1, data⟩ = r ∧
      (EpcDraining s e r ⟨dev ++ row.2.1, data⟩ q →
        exec row.2.2 s = .next (afterRead s (.epc e) q))

/-- R229: `EncodeMode` builds the MODE frame of R116 (its codes and byte order are the spec's decisions D13 to D16) for every
enable, mode, limit type and value, and decoding it gives back the enable, mode, limit type, reference and limit reference
for every value in the signed ranges, whatever the device and the record, under every pair of code tables that name the
modes and limit types apart. -/
def Obligations.ModeFrameSurvivesRoundTrip : Prop :=
  ∀ (cfg : Config) (r : Epc) (dev : BitVec 6) (en : BitVec 1) (m : Mode) (lt : LimitType) (ref lr : Int),
    ∃ fr, encodeMode cfg dev en.toNat m lt ref lr = .ok fr ∧
      fr = ⟨epcId dev 0,
        modeBytes en (modeNumber cfg.modeCode m) (limitNumber cfg.limitCode lt) ref lr⟩ ∧
      (CodesOk cfg → -32768 ≤ ref → ref ≤ 32767 → -2147483648 ≤ lr → lr ≤ 2147483647 →
        ∃ live, decodeFrame cfg r fr = { r with live := live } ∧
          live.outputEnable = en ∧ live.mode = m ∧ live.limitMode = lt ∧ live.ref.toInt = ref ∧
          live.limitRef.toInt = lr)

/-! ## The BMS reassembler -/

/-- R308, R453 (the initial values and the wait are the spec's decisions D32, D44, D47; two turns: log 5): construction
appends an instance with an empty accumulator, all slots absent, status OK and `last_ts` now, and submits its filter; with
the outcome OK or NOOP it is opened and its handle (log 4) is the answer. -/
def Obligations.BmsNewInstallsFilterThenOpens : Prop :=
  ∀ (s : State) (ch : ChanName) (address mask : CanId) (now : Nat),
    (Accepting s → exec (.bmsNew ch address mask now .issue) s =
      .next { enqueued s (.addFilter ⟨address, mask, ch⟩) with
        bmses := s.bmses ++ [{
          chan := ch, address := address, mask := mask, opened := false, nextIdx := 0, buf := [],
          lastTs := now, status := .ok, cause := .none, errCode := 0, snap := List.replicate 19 none }]
        waits := s.waits ++ [⟨s.node.seq, .bmsNew, s.bmses.length⟩]
        reply := some (.waiting s.node.seq) }) ∧
    (∀ q k b out, s.bmses[k]? = some b → ⟨q, .bmsNew, k⟩ ∈ s.waits → (s.waits.map Wait.seq).Nodup →
      s.node.results.lookup q = some out → out = .ok ∨ out = .noop →
      exec (.bmsNew ch address mask now (.resume q)) s =
        .next { s with
          bmses := s.bmses.set k { b with opened := true }
          waits := s.waits.filter (· ≠ ⟨q, .bmsNew, k⟩)
          reply := some (.handle k) })

/-- R311 (D32, log 5): BMS `close` submits the removal of the unit's filter and is held; with OK or NOOP, or at a halt without
an outcome, it clears `opened` and returns. -/
def Obligations.BmsCloseRemovesFilterThenCloses : Prop :=
  ∀ (s : State) (k : Nat) (b : Bms), s.bmses[k]? = some b →
    (BmsIdle s k b → Accepting s → exec (.bmsClose k .issue) s =
      .next { enqueued s (.removeFilter ⟨b.address, b.mask, b.chan⟩) with
        waits := s.waits ++ [⟨s.node.seq, .bmsClose, k⟩], reply := some (.waiting s.node.seq) }) ∧
    (∀ q, ⟨q, .bmsClose, k⟩ ∈ s.waits →
      s.node.results.lookup q = some .ok ∨ s.node.results.lookup q = some .noop ∨
        (s.node.results.lookup q = none ∧ s.node.halted = true) →
      exec (.bmsClose k (.resume q)) s =
        .next { s with
          bmses := s.bmses.set k { b with opened := false }
          waits := s.waits.filter (· ≠ ⟨q, .bmsClose, k⟩)
          reply := some .done })

/-- R309, R310 (bound, order and strictness are the spec's decisions D44 to D46): `get_data` always answers. It processes
the oldest frames of the unit's channel in order, at most `BMS_DRAIN_MAX`, all at `now`, leaves the later ones queued, and
then flips an OK status to COMM_ERROR with cause TIMEOUT and an empty accumulator if more than `BMS_TIMEOUT_MS` have passed
since the last completed message; the answer is the snapshot and the status. In two transitions (the model's form of the
same call, log 8) it takes the frames of its drain at its start, checks the timeout and answers at its return, once every
frame is processed, and then leaves exactly the state that the call in one transition leaves. -/
def Obligations.BmsGetDataDrainsThenChecksTimeout : Prop :=
  (∀ (s : State) (k now : Nat) (b : Bms), BmsIdle s k b →
    ∃ m fs b', exec (.bmsGetData k (.whole now)) s =
        .next { s with
          node := { s.node with chans := m }
          bmses := s.bmses.set k b'
          reply := some (.snapshot b'.snap b'.status) } ∧
      exec (.bmsGetData k (.start now)) s =
        .next { s with
          node := { s.node with chans := m }
          drains := s.drains ++ [⟨.bms k, fs, now⟩]
          reply := some (.draining fs.length) } ∧
      (chanGet s.node.chans b.chan = none → m = s.node.chans ∧ fs = []) ∧
      (∀ q, chanGet s.node.chans b.chan = some q →
        fs = q.take s.cfg.bmsDrainMax ∧ chanGet m b.chan = some (q.drop s.cfg.bmsDrainMax)) ∧
      (∀ n, n ≠ b.chan → chanGet m n = chanGet s.node.chans n) ∧
      TimeoutChecked s.cfg now (fs.foldl (fun x fr => processFrame x fr now) b) b') ∧
  (∀ (s : State) (k : Nat) (b : Bms) (x : Drain), s.bmses[k]? = some b → drainOf s (.bms k) = some x →
    (x.frames ≠ [] →
      exec (.bmsGetData k .finish) s = .next { s with reply := some (.draining x.frames.length) }) ∧
    (x.frames = [] → ∃ b', TimeoutChecked s.cfg x.now b b' ∧ exec (.bmsGetData k .finish) s =
      .next { s with
        bmses := s.bmses.set k b'
        drains := s.drains.filter (fun y => y.device ≠ .bms k)
        reply := some (.snapshot b'.snap b'.status) })) ∧
  (∀ (s t u v : State) (k now : Nat), exec (.bmsGetData k (.start now)) s = .next t →
    Relation.ReflTransGen (BmsRowStep k) t u → exec (.bmsGetData k .finish) u = .next v →
    drainOf v (.bms k) = none → exec (.bmsGetData k (.whole now)) s = .next v)

/-- R310: without new frames the flip happens exactly once: after a call that timed out, later calls change neither the record
nor the channels. -/
def Obligations.BmsTimeoutFlipsOnce : Prop :=
  ∀ (s t u : State) (k now later : Nat) (b : Bms), BmsIdle s k b → b.status = .ok →
    b.lastTs + s.cfg.bmsTimeoutMs < now → chanGet s.node.chans b.chan = none ∨ chanGet s.node.chans b.chan = some [] →
    exec (.bmsGetData k (.whole now)) s = .next t → exec (.bmsGetData k (.whole later)) t = .next u →
    t.bmses[k]?.map (fun x => (x.status, x.cause)) = some (.commError, .timeout) ∧ u = t

/-- R301, R307, R131 (the marker's form is the spec's decisions D38, D39 and general knowledge G1): a marker sets
COMM_ERROR, cause MARKER and the fault code and touches neither accumulator, timestamp nor snapshot; an empty frame changes
no record; both in the drain of `get_data` and as rows, which take the frame from those that the call in progress has still
to process (log 8). -/
def Obligations.MarkerAndEmptyFramesKeepAccumulator : Prop :=
  ∀ (s : State) (k now : Nat) (b b' : Bms) (q : List Frame) (id : CanId) (free code : Byte),
    b' = { b with status := .commError, cause := .marker, errCode := code } →
    processFrame b ⟨id, [0x10, 0x45, 0x52, 0x52, 0x4F, 0x52, free, code]⟩ now = b' ∧
    processFrame b ⟨id, []⟩ now = b ∧
    (BmsDraining s k b ⟨id, [0x10, 0x45, 0x52, 0x52, 0x4F, 0x52, free, code]⟩ q now →
      exec (.bmsRxMarker k id free code) s = .next { afterRead s (.bms k) q with bmses := s.bmses.set k b' }) ∧
    (BmsDraining s k b ⟨id, []⟩ q now →
      exec (.bmsRxEmpty k id) s = .next (afterRead s (.bms k) q))

/-- R302, R304, R305 (the faulting fragment is dropped: the spec's decision D40): a fragment whose index is not the expected one
sets COMM_ERROR with cause SEQUENCE, a last fragment that makes the length odd sets it with cause ODD_LENGTH; both empty the
accumulator and keep snapshot, timestamp and fault code, in the drain of `get_data` and as rows, which take the frame from
those that the call in progress has still to process (log 8). -/
def Obligations.FaultyFragmentsResetAccumulator : Prop :=
  ∀ (s : State) (k now : Nat) (b : Bms) (q : List Frame) (id : CanId) (h : Byte) (d : List Byte),
    ¬MarkerBytes (h :: d) →
    ∀ cause instr,
      ((h.extractLsb' 0 4).toNat ≠ b.nextIdx ∧ cause = .sequence ∧ instr = .bmsRxSeqFault k ⟨id, h :: d⟩) ∨
        ((h.extractLsb' 0 4).toNat = b.nextIdx ∧ (h.extractLsb' 4 4).toNat = b.nextIdx + 1 ∧
          (b.buf.length + d.length) % 2 = 1 ∧ cause = .oddLength ∧ instr = .bmsRxOdd k ⟨id, h :: d⟩) →
      ∀ b' : Bms, b' = { b with status := .commError, cause := cause, nextIdx := 0, buf := [] } →
        processFrame b ⟨id, h :: d⟩ now = b' ∧
        (BmsDraining s k b ⟨id, h :: d⟩ q now →
          exec instr s = .next { afterRead s (.bms k) q with bmses := s.bmses.set k b' })

/-- R303 (counts are not compared across fragments: the spec's decision D41): an in-order fragment whose index is not its
count minus one, count 0 included, appends its data and advances the index; nothing else changes. The drain of `get_data`
does so as the row does, which takes the frame from those that the call in progress has still to process (log 8), and
gathers a run of in-order fragments whatever counts they carry, equal or not, as long as none of them is its index plus one.
-/
def Obligations.InOrderFragmentIsGathered : Prop :=
  (∀ (s : State) (k now : Nat) (b b' : Bms) (q : List Frame) (id : CanId) (h : Byte) (d : List Byte),
    ¬MarkerBytes (h :: d) → (h.extractLsb' 0 4).toNat = b.nextIdx →
    (h.extractLsb' 4 4).toNat ≠ b.nextIdx + 1 →
    b' = { b with buf := b.buf ++ d, nextIdx := b.nextIdx + 1 } →
    processFrame b ⟨id, h :: d⟩ now = b' ∧
    (BmsDraining s k b ⟨id, h :: d⟩ q now →
      exec (.bmsRxFragment k ⟨id, h :: d⟩) s = .next { afterRead s (.bms k) q with bmses := s.bmses.set k b' })) ∧
  (∀ (b : Bms) (now : Nat) (ids : Nat → CanId) (counts : Nat → BitVec 4) (bodies : List (List Byte))
    (frames : List Frame),
    b.nextIdx + bodies.length ≤ 16 →
    (∀ i < bodies.length, (counts i).toNat ≠ b.nextIdx + i + 1) →
    frames = bodies.mapIdx (fun i d => ⟨ids i, (counts i ++ BitVec.ofNat 4 (b.nextIdx + i)) :: d⟩) →
    (∀ fr ∈ frames, ¬MarkerBytes fr.data) →
    frames.foldl (fun x fr => processFrame x fr now) b =
      { b with buf := b.buf ++ bodies.flatten, nextIdx := b.nextIdx + bodies.length })

/-- R303, R306, R83 (absent slots: the spec's decision D42): the last fragment of a message of even length sets the 19 slots from
the little-endian byte pairs of the whole body, absent where it does not reach, status OK, cause NONE, `last_ts` now, and
empties the accumulator, in the drain of `get_data` and as a row, which has the time of the call in progress and takes the frame
from those that it has still to process (log 8). -/
def Obligations.LastFragmentCompletesMessage : Prop :=
  ∀ (s : State) (k now : Nat) (b : Bms) (q : List Frame) (id : CanId) (h : Byte) (d : List Byte),
    ¬MarkerBytes (h :: d) → (h.extractLsb' 0 4).toNat = b.nextIdx →
    (h.extractLsb' 4 4).toNat = b.nextIdx + 1 → (b.buf.length + d.length) % 2 = 0 →
    ∃ snap b', SnapOf (b.buf ++ d) snap ∧
      b' = { b with snap := snap, status := .ok, cause := .none, lastTs := now, nextIdx := 0, buf := [] } ∧
      processFrame b ⟨id, h :: d⟩ now = b' ∧
      (BmsDraining s k b ⟨id, h :: d⟩ q now →
        exec (.bmsRxLast k ⟨id, h :: d⟩ now) s =
          .next { afterRead s (.bms k) q with bmses := s.bmses.set k b' })

/-- R312: fragments `0..n-1` of one message, n in 1..15, in order and none of them a marker, starting from an empty accumulator:
an even total gives the snapshot of the whole body with status OK and an empty accumulator, an odd total COMM_ERROR; and a frame
out of place after any proper part of them gives COMM_ERROR and an empty accumulator. -/
def Obligations.InOrderMessageIsReassembled : Prop :=
  ∀ (b : Bms) (now : Nat) (ids : Nat → CanId) (bodies : List (List Byte)) (frames : List Frame),
    b.nextIdx = 0 → b.buf = [] → 1 ≤ bodies.length → bodies.length ≤ 15 → (∀ d ∈ bodies, d.length ≤ 7) →
    frames = bodies.mapIdx (fun i d => ⟨ids i, BitVec.ofNat 8 (bodies.length * 16 + i) :: d⟩) →
    (∀ fr ∈ frames, ¬MarkerBytes fr.data) →
    (bodies.flatten.length % 2 = 0 →
      ∃ snap, SnapOf bodies.flatten snap ∧
        frames.foldl (fun x fr => processFrame x fr now) b =
          { b with snap := snap, status := .ok, cause := .none, lastTs := now }) ∧
    (bodies.flatten.length % 2 = 1 →
      frames.foldl (fun x fr => processFrame x fr now) b =
        { b with status := .commError, cause := .oddLength }) ∧
    (∀ k < bodies.length, ∀ (id : CanId) (h : Byte) (d : List Byte), ¬MarkerBytes (h :: d) →
      (h.extractLsb' 0 4).toNat ≠ k →
      processFrame ((frames.take k).foldl (fun x fr => processFrame x fr now) b) ⟨id, h :: d⟩ now =
        { b with status := .commError, cause := .sequence })

/-! ## The machine -/

/-- A step runs the operation that its message decodes to, from the agenda's head (log 1), on the state with that entry taken;
a message that is no operation is refused. -/
def Obligations.StepRunsDecodedOperation : Prop :=
  ∀ (s : State) (m : Message) (rest : List Message), s.agenda = m :: rest →
    (∀ i, decode m = some i → step s = exec i { s with agenda := rest }) ∧
    (decode m = none → step s = .refused .unknownOperation)

/-- The model's choice of stops (log 4, 5, 7, 8, 17): an operation on an instance that was never constructed, a host call on an
instance while a call on it is held or in progress (R469, row 25 of 93_implementation_defined.md: no modelled behaviour), the
second turn of a call that is not held or the return of one that is not in progress, and a command row, bus event row or frame
row that the worker's phase, the head of the queue, the next frame of the call in progress or the record does not select (R100,
R144, R300) are refused by name; with no call in progress on its instance no frame row runs. The worker's own steps:
WorkerStepsAreExclusive. -/
def Obligations.OperationsOutOfPlaceAreRefused : Prop :=
  ∀ (s : State) (k q : Nat),
    (∀ (a b c d e f : Int) (lt : LimitType) (u : Bool) (dev : BitVec 7) (low : BitVec 1) (data : List Byte)
      (calls : List Instr),
      calls = [.epcSetCvMode k a lt b, .epcSetCcMode k a lt b, .epcSetCpMode k a lt b, .epcSetWaitMode k a,
        .epcDisable k, .epcSetPeriodic k a b c d e f, .epcSetLsVoltLimit k a b, .epcSetLsCurrLimit k a b,
        .epcSetHsVoltLimit k a b, .epcSetLsPwrLimit k a b, .epcSetTempLimit k a b, .epcGetData k (.whole u),
        .epcGetData k (.start u), .epcGetProperties k u, .epcOpen k .issue, .epcClose k .issue] →
      (s.epcs[k]? = none →
        ∀ i ∈ calls ++ .epcGetData k .finish :: (epcRows k dev low data).map Prod.snd,
          exec i s = .refused .noSuchInstance) ∧
      (s.epcs[k]? ≠ none →
        (∃ w ∈ s.waits, w.target = k ∧ (w.kind = .epcOpen ∨ w.kind = .epcClose)) ∨
          (∃ x ∈ s.drains, x.device = .epc k) →
        ∀ i ∈ calls, exec i s = .refused .overlappingCall) ∧
      (s.epcs[k]? ≠ none → (∀ x ∈ s.drains, x.device ≠ .epc k) →
        exec (.epcGetData k .finish) s = .refused .noSuchCall) ∧
      (s.epcs[k]? ≠ none → ∀ row ∈ epcRows k dev low data,
        (∀ x later, drainOf s (.epc k) = some x → x.frames ≠ ⟨dev ++ row.1, data⟩ :: later) →
        exec row.2 s = .refused .notSelected)) ∧
    (∀ (now : Nat) (id : CanId) (free code : Byte) (fr : Frame) (calls : List Instr),
      calls = [.bmsGetData k (.whole now), .bmsGetData k (.start now), .bmsClose k .issue] →
      (s.bmses[k]? = none →
        ∀ i ∈ calls ++ .bmsGetData k .finish :: (bmsRows k id free code fr now).map (fun row => row.2.2),
          exec i s = .refused .noSuchInstance) ∧
      (s.bmses[k]? ≠ none →
        (∃ w ∈ s.waits, w.target = k ∧ (w.kind = .bmsNew ∨ w.kind = .bmsClose)) ∨
          (∃ x ∈ s.drains, x.device = .bms k) →
        ∀ i ∈ calls, exec i s = .refused .overlappingCall) ∧
      (s.bmses[k]? ≠ none → (∀ x ∈ s.drains, x.device ≠ .bms k) →
        exec (.bmsGetData k .finish) s = .refused .noSuchCall) ∧
      (∀ b, s.bmses[k]? = some b → ∀ row ∈ bmsRows k id free code fr now,
        (∀ x later, drainOf s (.bms k) = some x → x.frames ≠ row.2.1 :: later) ∨ selectRow b row.2.1 ≠ row.1 →
        exec row.2.2 s = .refused .notSelected) ∧
      (s.bmses[k]? ≠ none → (∀ x, drainOf s (.bms k) = some x → x.now ≠ now) →
        exec (.bmsRxLast k fr now) s = .refused .notSelected)) ∧
    ((∀ w ∈ s.waits, w.seq ≠ q) → ∀ (ch : ChanName) (address mask : CanId) (now : Nat),
      ∀ i ∈ [Instr.epcOpen k (.resume q), .epcClose k (.resume q), .bmsNew ch address mask now (.resume q),
          .bmsClose k (.resume q)],
        exec i s = .refused .noSuchCall) ∧
    (∀ (c : Command) (tx : TxAnswer), ¬WorkerAt s .drain ∨ (∀ n rest, s.node.cmdq ≠ (n, c) :: rest) →
      exec (match c with
        | .send fr => .cmdSend fr tx
        | .addFilter fe => .cmdAddFilter fe
        | .removeFilter fe => .cmdRemoveFilter fe) s = .refused .notSelected) ∧
    (¬WorkerAt s .poll → ∀ fr : Frame, ∀ i ∈ [Instr.rxData fr, .rxNone, .rxErrorFrame, .rxInvalid],
      exec i s = .refused .notSelected) ∧
    (¬WorkerAt s .start ∨ s.node.working = true → exec .wrkShutdown s = .refused .notSelected)

/-- Decode and encode agree: every well-formed operation, with every operand at every value, is what its message decodes to, also
when the message is padded with zero bytes. -/
def Obligations.DecodeOfEncodeIsIdentity : Prop :=
  ∀ (i : Instr) (pad : Nat), i.wf = true →
    decode ⟨(encode i).format, (encode i).bytes ++ List.replicate pad 0⟩ = some i

/-- What the decoder accepts is well formed: an operation that a step runs has frames of at most 8 bytes (R110) and operands
within their fields. -/
def Obligations.DecodedOperationIsWellFormed : Prop :=
  ∀ (m : Message) (i : Instr), decode m = some i → i.wf = true

/-- A few words written out from the encodings of the spec (C6, C9, C12 of 95_test_vectors.md, R143, R114) decode to the
operations they stand for. -/
def Obligations.SpecWordsDecode : Prop :=
  decode ⟨.commandWord, [0xC1, 0x00, 0xFE, 0x00, 0x01, 0, 0, 0, 0, 0, 0, 0]⟩ =
      some (.cmdAddFilter ⟨0x030, 0x7F0, 1⟩) ∧
  decode ⟨.hostOp, [0x00, 0xC0, 0x00, 0x01, 0x00, 0x01, 0x00, 0x00, 0x00, 0x10, 0x27, 0x00, 0x00]⟩ =
      some (.nodeSubmit (commandWord (.send ⟨0x030, [0x01, 0, 0, 0, 0x10, 0x27, 0, 0]⟩))) ∧
  decode ⟨.canId, [0x3C, 0x30, 0x74, 0x0E, 0x30, 0xF8, 0xE0, 0x2E, 0, 0, 0, 0, 0, 0]⟩ =
      some (.epcRxElecMeas 0 3 [0x74, 0x0E, 0x30, 0xF8, 0xE0, 0x2E]) ∧
  decode ⟨.busEvent, [0x30, 0x40, 0x01, 0x00, 0x00, 0x00, 0x10, 0x27, 0x00, 0x00, 0]⟩ =
      some (.rxData ⟨0x030, [0x01, 0, 0, 0, 0x10, 0x27, 0, 0]⟩) ∧
  decode ⟨.hostOp, [0x03]⟩ = none

/-- The invariant of Safety.lean (R35 to R40, R44, R67 to R71, R110, R211, R274, R309, R465, R469) is kept by every step
from every state that meets it, whatever is scheduled and whatever the environment supplies. -/
def Obligations.EveryStepKeepsInvariant : Prop :=
  ∀ s t : State, BlockInv s → step s = .next t → BlockInv t

/-- The invariant holds at creation, under every configuration. -/
def Obligations.CreationMeetsInvariant : Prop := ∀ c : Config, BlockInv (State.initial c)

/-- R451 (values: the spec's decisions D6, D8, D12, D52): the node record at creation. The model's own, not the spec's: that
the recorded end state is not Fatal (`fatal`, log 12), that no instance exists (log 4), that no call is held (log 5) or in
progress (log 8), that no answer stands (log 6), that nothing is scheduled or drawn (log 1), and the configuration of the
reset state (log 2, its code tables and timeout log 18). -/
def Obligations.CreationLeavesNodeRecord : Prop :=
  (∀ c : Config, State.initial c =
    { cfg := c
      node :=
        { working := true, halted := false, phase := .start, filters := [], cmdq := [], cmdqOpen := true,
          chans := [], results := [], seq := 0, busHeld := true, held := none, fatal := false }
      epcs := [], bmses := [], reply := none, waits := [], drains := [], agenda := [], draws := 0 }) ∧
  State.reset = State.initial Config.reference ∧
  State.reset.cfg.modeCode = ⟨0, 1, 2, 3, 4, 5⟩ ∧ State.reset.cfg.limitCode = ⟨0, 1, 2, 3⟩ ∧
  State.reset.cfg.bmsTimeoutMs = 30000

/-- R34, R35, R40, R73: no step ever sets `working`, clears `halted`, changes a recorded outcome, takes back a sequence number or
writes a parameter. -/
def Obligations.StepsNeverRestartOrForget : Prop :=
  ∀ s t : State, step s = .next t →
    (s.node.working = false → t.node.working = false) ∧
    (s.node.halted = true → t.node.halted = true) ∧
    s.node.results <+: t.node.results ∧ s.node.seq ≤ t.node.seq ∧ t.cfg = s.cfg

/-- R100, R411: the worker, the commands it applies and the bus reach no record of an instance, and the answer of no call. -/
def Obligations.WorkerNeverTouchesInstances : Prop :=
  ∀ (s t : State) (i : Instr) (tx : TxAnswer) (ev : BusEvent) (fr : Frame) (fe : FilterEntry),
    i ∈ [Instr.wrkStart, .wrkApply tx, .wrkDrainEnd, .wrkPoll ev, .wrkDeliver, .wrkShutdown, .wrkFatal,
      .rxData fr, .rxNone, .rxErrorFrame, .rxInvalid, .cmdSend fr tx, .cmdAddFilter fe, .cmdRemoveFilter fe] →
    exec i s = .next t → ∃ n, t = { s with node := n }
end

