-- ==== Sys2Proof/Laws/State.lean ====
section
/-! SUPPORT. One lemma for each field of State under each named update, and for each field of the node record
under the worker's named updates. -/

namespace Sys2Proof.Machine

open Sys2Proof

@[simp] theorem withNode_cfg (s : State) (n : Node) : (s.withNode n).cfg = s.cfg := rfl
@[simp] theorem withNode_node (s : State) (n : Node) : (s.withNode n).node = n := rfl
@[simp] theorem withNode_epcs (s : State) (n : Node) : (s.withNode n).epcs = s.epcs := rfl
@[simp] theorem withNode_bmses (s : State) (n : Node) : (s.withNode n).bmses = s.bmses := rfl
@[simp] theorem withNode_reply (s : State) (n : Node) : (s.withNode n).reply = s.reply := rfl
@[simp] theorem withNode_waits (s : State) (n : Node) : (s.withNode n).waits = s.waits := rfl
@[simp] theorem withNode_drains (s : State) (n : Node) : (s.withNode n).drains = s.drains := rfl
@[simp] theorem withNode_agenda (s : State) (n : Node) : (s.withNode n).agenda = s.agenda := rfl
@[simp] theorem withNode_draws (s : State) (n : Node) : (s.withNode n).draws = s.draws := rfl

@[simp] theorem withEpc_cfg (s : State) (e : Nat) (r : Epc) : (s.withEpc e r).cfg = s.cfg := rfl
@[simp] theorem withEpc_node (s : State) (e : Nat) (r : Epc) : (s.withEpc e r).node = s.node := rfl
@[simp] theorem withEpc_epcs (s : State) (e : Nat) (r : Epc) : (s.withEpc e r).epcs = s.epcs.set e r := rfl
@[simp] theorem withEpc_bmses (s : State) (e : Nat) (r : Epc) : (s.withEpc e r).bmses = s.bmses := rfl
@[simp] theorem withEpc_reply (s : State) (e : Nat) (r : Epc) : (s.withEpc e r).reply = s.reply := rfl
@[simp] theorem withEpc_waits (s : State) (e : Nat) (r : Epc) : (s.withEpc e r).waits = s.waits := rfl
@[simp] theorem withEpc_drains (s : State) (e : Nat) (r : Epc) : (s.withEpc e r).drains = s.drains := rfl
@[simp] theorem withEpc_agenda (s : State) (e : Nat) (r : Epc) : (s.withEpc e r).agenda = s.agenda := rfl
@[simp] theorem withEpc_draws (s : State) (e : Nat) (r : Epc) : (s.withEpc e r).draws = s.draws := rfl

@[simp] theorem withBms_cfg (s : State) (b : Nat) (r : Bms) : (s.withBms b r).cfg = s.cfg := rfl
@[simp] theorem withBms_node (s : State) (b : Nat) (r : Bms) : (s.withBms b r).node = s.node := rfl
@[simp] theorem withBms_epcs (s : State) (b : Nat) (r : Bms) : (s.withBms b r).epcs = s.epcs := rfl
@[simp] theorem withBms_bmses (s : State) (b : Nat) (r : Bms) : (s.withBms b r).bmses = s.bmses.set b r := rfl
@[simp] theorem withBms_reply (s : State) (b : Nat) (r : Bms) : (s.withBms b r).reply = s.reply := rfl
@[simp] theorem withBms_waits (s : State) (b : Nat) (r : Bms) : (s.withBms b r).waits = s.waits := rfl
@[simp] theorem withBms_drains (s : State) (b : Nat) (r : Bms) : (s.withBms b r).drains = s.drains := rfl
@[simp] theorem withBms_agenda (s : State) (b : Nat) (r : Bms) : (s.withBms b r).agenda = s.agenda := rfl
@[simp] theorem withBms_draws (s : State) (b : Nat) (r : Bms) : (s.withBms b r).draws = s.draws := rfl

@[simp] theorem addEpc_cfg (s : State) (r : Epc) : (s.addEpc r).cfg = s.cfg := rfl
@[simp] theorem addEpc_node (s : State) (r : Epc) : (s.addEpc r).node = s.node := rfl
@[simp] theorem addEpc_epcs (s : State) (r : Epc) : (s.addEpc r).epcs = s.epcs ++ [r] := rfl
@[simp] theorem addEpc_bmses (s : State) (r : Epc) : (s.addEpc r).bmses = s.bmses := rfl
@[simp] theorem addEpc_reply (s : State) (r : Epc) : (s.addEpc r).reply = s.reply := rfl
@[simp] theorem addEpc_waits (s : State) (r : Epc) : (s.addEpc r).waits = s.waits := rfl
@[simp] theorem addEpc_drains (s : State) (r : Epc) : (s.addEpc r).drains = s.drains := rfl
@[simp] theorem addEpc_agenda (s : State) (r : Epc) : (s.addEpc r).agenda = s.agenda := rfl
@[simp] theorem addEpc_draws (s : State) (r : Epc) : (s.addEpc r).draws = s.draws := rfl

@[simp] theorem addBms_cfg (s : State) (r : Bms) : (s.addBms r).cfg = s.cfg := rfl
@[simp] theorem addBms_node (s : State) (r : Bms) : (s.addBms r).node = s.node := rfl
@[simp] theorem addBms_epcs (s : State) (r : Bms) : (s.addBms r).epcs = s.epcs := rfl
@[simp] theorem addBms_bmses (s : State) (r : Bms) : (s.addBms r).bmses = s.bmses ++ [r] := rfl
@[simp] theorem addBms_reply (s : State) (r : Bms) : (s.addBms r).reply = s.reply := rfl
@[simp] theorem addBms_waits (s : State) (r : Bms) : (s.addBms r).waits = s.waits := rfl
@[simp] theorem addBms_drains (s : State) (r : Bms) : (s.addBms r).drains = s.drains := rfl
@[simp] theorem addBms_agenda (s : State) (r : Bms) : (s.addBms r).agenda = s.agenda := rfl
@[simp] theorem addBms_draws (s : State) (r : Bms) : (s.addBms r).draws = s.draws := rfl

@[simp] theorem answer_cfg (s : State) (r : Reply) : (s.answer r).cfg = s.cfg := rfl
@[simp] theorem answer_node (s : State) (r : Reply) : (s.answer r).node = s.node := rfl
@[simp] theorem answer_epcs (s : State) (r : Reply) : (s.answer r).epcs = s.epcs := rfl
@[simp] theorem answer_bmses (s : State) (r : Reply) : (s.answer r).bmses = s.bmses := rfl
@[simp] theorem answer_reply (s : State) (r : Reply) : (s.answer r).reply = some r := rfl
@[simp] theorem answer_waits (s : State) (r : Reply) : (s.answer r).waits = s.waits := rfl
@[simp] theorem answer_drains (s : State) (r : Reply) : (s.answer r).drains = s.drains := rfl
@[simp] theorem answer_agenda (s : State) (r : Reply) : (s.answer r).agenda = s.agenda := rfl
@[simp] theorem answer_draws (s : State) (r : Reply) : (s.answer r).draws = s.draws := rfl

@[simp] theorem raise_cfg (s : State) (err : HostError) : (s.raise err).cfg = s.cfg := rfl
@[simp] theorem raise_node (s : State) (err : HostError) : (s.raise err).node = s.node := rfl
@[simp] theorem raise_epcs (s : State) (err : HostError) : (s.raise err).epcs = s.epcs := rfl
@[simp] theorem raise_bmses (s : State) (err : HostError) : (s.raise err).bmses = s.bmses := rfl
@[simp] theorem raise_reply (s : State) (err : HostError) : (s.raise err).reply = some (.raised err) := rfl
@[simp] theorem raise_waits (s : State) (err : HostError) : (s.raise err).waits = s.waits := rfl
@[simp] theorem raise_drains (s : State) (err : HostError) : (s.raise err).drains = s.drains := rfl
@[simp] theorem raise_agenda (s : State) (err : HostError) : (s.raise err).agenda = s.agenda := rfl
@[simp] theorem raise_draws (s : State) (err : HostError) : (s.raise err).draws = s.draws := rfl

@[simp] theorem hold_cfg (s : State) (w : Wait) : (s.hold w).cfg = s.cfg := rfl
@[simp] theorem hold_node (s : State) (w : Wait) : (s.hold w).node = s.node := rfl
@[simp] theorem hold_epcs (s : State) (w : Wait) : (s.hold w).epcs = s.epcs := rfl
@[simp] theorem hold_bmses (s : State) (w : Wait) : (s.hold w).bmses = s.bmses := rfl
@[simp] theorem hold_reply (s : State) (w : Wait) : (s.hold w).reply = s.reply := rfl
@[simp] theorem hold_waits (s : State) (w : Wait) : (s.hold w).waits = s.waits ++ [w] := rfl
@[simp] theorem hold_drains (s : State) (w : Wait) : (s.hold w).drains = s.drains := rfl
@[simp] theorem hold_agenda (s : State) (w : Wait) : (s.hold w).agenda = s.agenda := rfl
@[simp] theorem hold_draws (s : State) (w : Wait) : (s.hold w).draws = s.draws := rfl

@[simp] theorem release_cfg (s : State) (w : Wait) : (s.release w).cfg = s.cfg := rfl
@[simp] theorem release_node (s : State) (w : Wait) : (s.release w).node = s.node := rfl
@[simp] theorem release_epcs (s : State) (w : Wait) : (s.release w).epcs = s.epcs := rfl
@[simp] theorem release_bmses (s : State) (w : Wait) : (s.release w).bmses = s.bmses := rfl
@[simp] theorem release_reply (s : State) (w : Wait) : (s.release w).reply = s.reply := rfl
@[simp] theorem release_waits (s : State) (w : Wait) : (s.release w).waits = s.waits.filter (· ≠ w) := rfl
@[simp] theorem release_drains (s : State) (w : Wait) : (s.release w).drains = s.drains := rfl
@[simp] theorem release_agenda (s : State) (w : Wait) : (s.release w).agenda = s.agenda := rfl
@[simp] theorem release_draws (s : State) (w : Wait) : (s.release w).draws = s.draws := rfl

@[simp] theorem beginDrain_cfg (s : State) (x : Drain) : (s.beginDrain x).cfg = s.cfg := rfl
@[simp] theorem beginDrain_node (s : State) (x : Drain) : (s.beginDrain x).node = s.node := rfl
@[simp] theorem beginDrain_epcs (s : State) (x : Drain) : (s.beginDrain x).epcs = s.epcs := rfl
@[simp] theorem beginDrain_bmses (s : State) (x : Drain) : (s.beginDrain x).bmses = s.bmses := rfl
@[simp] theorem beginDrain_reply (s : State) (x : Drain) : (s.beginDrain x).reply = s.reply := rfl
@[simp] theorem beginDrain_waits (s : State) (x : Drain) : (s.beginDrain x).waits = s.waits := rfl
@[simp] theorem beginDrain_drains (s : State) (x : Drain) : (s.beginDrain x).drains = s.drains ++ [x] := rfl
@[simp] theorem beginDrain_agenda (s : State) (x : Drain) : (s.beginDrain x).agenda = s.agenda := rfl
@[simp] theorem beginDrain_draws (s : State) (x : Drain) : (s.beginDrain x).draws = s.draws := rfl

@[simp] theorem putFrames_cfg (s : State) (d : Device) (q : List Frame) : (s.putFrames d q).cfg = s.cfg := rfl
@[simp] theorem putFrames_node (s : State) (d : Device) (q : List Frame) : (s.putFrames d q).node = s.node := rfl
@[simp] theorem putFrames_epcs (s : State) (d : Device) (q : List Frame) : (s.putFrames d q).epcs = s.epcs := rfl
@[simp] theorem putFrames_bmses (s : State) (d : Device) (q : List Frame) : (s.putFrames d q).bmses = s.bmses := rfl
@[simp] theorem putFrames_reply (s : State) (d : Device) (q : List Frame) : (s.putFrames d q).reply = s.reply := rfl
@[simp] theorem putFrames_waits (s : State) (d : Device) (q : List Frame) : (s.putFrames d q).waits = s.waits := rfl
@[simp] theorem putFrames_drains (s : State) (d : Device) (q : List Frame) : (s.putFrames d q).drains =
    s.drains.map (fun x => if x.device = d then { x with frames := q } else x) := rfl
@[simp] theorem putFrames_agenda (s : State) (d : Device) (q : List Frame) : (s.putFrames d q).agenda = s.agenda := rfl
@[simp] theorem putFrames_draws (s : State) (d : Device) (q : List Frame) : (s.putFrames d q).draws = s.draws := rfl

@[simp] theorem endDrain_cfg (s : State) (d : Device) : (s.endDrain d).cfg = s.cfg := rfl
@[simp] theorem endDrain_node (s : State) (d : Device) : (s.endDrain d).node = s.node := rfl
@[simp] theorem endDrain_epcs (s : State) (d : Device) : (s.endDrain d).epcs = s.epcs := rfl
@[simp] theorem endDrain_bmses (s : State) (d : Device) : (s.endDrain d).bmses = s.bmses := rfl
@[simp] theorem endDrain_reply (s : State) (d : Device) : (s.endDrain d).reply = s.reply := rfl
@[simp] theorem endDrain_waits (s : State) (d : Device) : (s.endDrain d).waits = s.waits := rfl
@[simp] theorem endDrain_drains (s : State) (d : Device) : (s.endDrain d).drains =
    s.drains.filter (fun x => x.device ≠ d) := rfl
@[simp] theorem endDrain_agenda (s : State) (d : Device) : (s.endDrain d).agenda = s.agenda := rfl
@[simp] theorem endDrain_draws (s : State) (d : Device) : (s.endDrain d).draws = s.draws := rfl

@[simp] theorem setEpcOpened_cfg (s : State) (e : Nat) (v : Bool) : (s.setEpcOpened e v).cfg = s.cfg := rfl
@[simp] theorem setEpcOpened_node (s : State) (e : Nat) (v : Bool) : (s.setEpcOpened e v).node = s.node := rfl
@[simp] theorem setEpcOpened_epcs (s : State) (e : Nat) (v : Bool) : (s.setEpcOpened e v).epcs = s.epcs.modify e (fun r => { r with opened := v }) := rfl
@[simp] theorem setEpcOpened_bmses (s : State) (e : Nat) (v : Bool) : (s.setEpcOpened e v).bmses = s.bmses := rfl
@[simp] theorem setEpcOpened_reply (s : State) (e : Nat) (v : Bool) : (s.setEpcOpened e v).reply = s.reply := rfl
@[simp] theorem setEpcOpened_waits (s : State) (e : Nat) (v : Bool) : (s.setEpcOpened e v).waits = s.waits := rfl
@[simp] theorem setEpcOpened_drains (s : State) (e : Nat) (v : Bool) : (s.setEpcOpened e v).drains = s.drains := rfl
@[simp] theorem setEpcOpened_agenda (s : State) (e : Nat) (v : Bool) : (s.setEpcOpened e v).agenda = s.agenda := rfl
@[simp] theorem setEpcOpened_draws (s : State) (e : Nat) (v : Bool) : (s.setEpcOpened e v).draws = s.draws := rfl

@[simp] theorem setBmsOpened_cfg (s : State) (b : Nat) (v : Bool) : (s.setBmsOpened b v).cfg = s.cfg := rfl
@[simp] theorem setBmsOpened_node (s : State) (b : Nat) (v : Bool) : (s.setBmsOpened b v).node = s.node := rfl
@[simp] theorem setBmsOpened_epcs (s : State) (b : Nat) (v : Bool) : (s.setBmsOpened b v).epcs = s.epcs := rfl
@[simp] theorem setBmsOpened_bmses (s : State) (b : Nat) (v : Bool) : (s.setBmsOpened b v).bmses = s.bmses.modify b (fun r => { r with opened := v }) := rfl
@[simp] theorem setBmsOpened_reply (s : State) (b : Nat) (v : Bool) : (s.setBmsOpened b v).reply = s.reply := rfl
@[simp] theorem setBmsOpened_waits (s : State) (b : Nat) (v : Bool) : (s.setBmsOpened b v).waits = s.waits := rfl
@[simp] theorem setBmsOpened_drains (s : State) (b : Nat) (v : Bool) : (s.setBmsOpened b v).drains = s.drains := rfl
@[simp] theorem setBmsOpened_agenda (s : State) (b : Nat) (v : Bool) : (s.setBmsOpened b v).agenda = s.agenda := rfl
@[simp] theorem setBmsOpened_draws (s : State) (b : Nat) (v : Bool) : (s.setBmsOpened b v).draws = s.draws := rfl

@[simp] theorem shutdown_working (n : Node) : (shutdown n).working = n.working := rfl
@[simp] theorem shutdown_halted (n : Node) : (shutdown n).halted = true := rfl
@[simp] theorem shutdown_phase (n : Node) : (shutdown n).phase = n.phase := rfl
@[simp] theorem shutdown_filters (n : Node) : (shutdown n).filters = [] := rfl
@[simp] theorem shutdown_cmdq (n : Node) : (shutdown n).cmdq = [] := rfl
@[simp] theorem shutdown_cmdqOpen (n : Node) : (shutdown n).cmdqOpen = false := rfl
@[simp] theorem shutdown_chans (n : Node) : (shutdown n).chans = [] := rfl
@[simp] theorem shutdown_results (n : Node) : (shutdown n).results = n.results := rfl
@[simp] theorem shutdown_seq (n : Node) : (shutdown n).seq = n.seq := rfl
@[simp] theorem shutdown_busHeld (n : Node) : (shutdown n).busHeld = false := rfl
@[simp] theorem shutdown_held (n : Node) : (shutdown n).held = none := rfl
@[simp] theorem shutdown_fatal (n : Node) : (shutdown n).fatal = n.fatal := rfl

@[simp] theorem fatalStep_working (n : Node) : (fatalStep n).working = false := rfl
@[simp] theorem fatalStep_halted (n : Node) : (fatalStep n).halted = n.halted := rfl
@[simp] theorem fatalStep_phase (n : Node) : (fatalStep n).phase = .start := rfl
@[simp] theorem fatalStep_filters (n : Node) : (fatalStep n).filters = n.filters := rfl
@[simp] theorem fatalStep_cmdq (n : Node) : (fatalStep n).cmdq = n.cmdq := rfl
@[simp] theorem fatalStep_cmdqOpen (n : Node) : (fatalStep n).cmdqOpen = n.cmdqOpen := rfl
@[simp] theorem fatalStep_chans (n : Node) : (fatalStep n).chans = n.chans := rfl
@[simp] theorem fatalStep_results (n : Node) : (fatalStep n).results = n.results := rfl
@[simp] theorem fatalStep_seq (n : Node) : (fatalStep n).seq = n.seq := rfl
@[simp] theorem fatalStep_busHeld (n : Node) : (fatalStep n).busHeld = n.busHeld := rfl
@[simp] theorem fatalStep_held (n : Node) : (fatalStep n).held = none := rfl
@[simp] theorem fatalStep_fatal (n : Node) : (fatalStep n).fatal = true := rfl

end Sys2Proof.Machine
end

