-- ==== Sys2Proof/Laws/Chans.lean ====
section
/-! SUPPORT. The channel map: what a read, a binding and a deletion do to every name, and that each keeps the
canonical form. -/

namespace Sys2Proof.Machine

open Sys2Proof

@[simp] theorem chanGet_nil (n : ChanName) : chanGet [] n = none := rfl

theorem chanGet_put_same (m : List (ChanName × List Frame)) (n : ChanName) (q : List Frame) :
    chanGet (chanPut m n q) n = some q := by
  induction m with
  | nil => simp [chanPut, chanGet]
  | cons p m ih =>
    obtain ⟨k, p⟩ := p
    simp only [chanPut]
    split
    · simp [chanGet]
    · split
      · simp [chanGet]
      · rename_i h; simp [chanGet, h, ih]

theorem chanGet_put_other (m : List (ChanName × List Frame)) {n n' : ChanName} (q : List Frame)
    (h : n ≠ n') : chanGet (chanPut m n q) n' = chanGet m n' := by
  induction m with
  | nil => simp [chanPut, chanGet, h]
  | cons p m ih =>
    obtain ⟨k, p⟩ := p
    simp only [chanPut]
    split
    · simp [chanGet, h]
    · split
      · rename_i hk; subst hk; simp [chanGet, h]
      · simp [chanGet, ih]

theorem chanGet_del_same (m : List (ChanName × List Frame)) (n : ChanName) :
    chanGet (chanDel m n) n = none := by
  induction m with
  | nil => rfl
  | cons p m ih =>
    obtain ⟨k, p⟩ := p
    by_cases hk : k = n <;> simp_all [chanDel, chanGet]

theorem chanGet_del_other (m : List (ChanName × List Frame)) {n n' : ChanName} (h : n ≠ n') :
    chanGet (chanDel m n) n' = chanGet m n' := by
  induction m with
  | nil => rfl
  | cons p m ih =>
    obtain ⟨k, p⟩ := p
    by_cases hk : k = n
    · subst hk; simp_all [chanDel, chanGet]
    · simp_all [chanDel, chanGet]

/-- What is bound after a binding was bound before or is the new one. -/
theorem mem_chanPut {m : List (ChanName × List Frame)} {n : ChanName} {q : List Frame}
    {p : ChanName × List Frame} (h : p ∈ chanPut m n q) : p = (n, q) ∨ p ∈ m := by
  induction m with
  | nil => simpa [chanPut] using h
  | cons k m ih =>
    obtain ⟨k, r⟩ := k
    simp only [chanPut] at h
    split at h
    · simpa using h
    · split at h
      · rcases List.mem_cons.1 h with h | h <;> simp [h]
      · rcases List.mem_cons.1 h with h | h
        · simp [h]
        · rcases ih h with h | h <;> simp [h]

theorem chansSorted_cons {k : ChanName} {q : List Frame} {m : List (ChanName × List Frame)} :
    chansSorted ((k, q) :: m) = true ↔ (∀ p ∈ m, k.toNat < p.1.toNat) ∧ chansSorted m = true := by
  simp [chansSorted]

theorem chansSorted_put {m : List (ChanName × List Frame)} (n : ChanName) (q : List Frame)
    (h : chansSorted m = true) : chansSorted (chanPut m n q) = true := by
  induction m with
  | nil => simp [chanPut, chansSorted]
  | cons p m ih =>
    obtain ⟨k, p⟩ := p
    obtain ⟨hk, hm⟩ := chansSorted_cons.1 h
    simp only [chanPut]
    split
    · rename_i hlt
      refine chansSorted_cons.2 ⟨?_, h⟩
      intro x hx
      rcases List.mem_cons.1 hx with hx | hx
      · simpa [hx] using hlt
      · exact lt_trans hlt (hk x hx)
    · split
      · rename_i hkn; subst hkn; exact chansSorted_cons.2 ⟨hk, hm⟩
      · rename_i hlt hkn
        refine chansSorted_cons.2 ⟨?_, ih hm⟩
        intro x hx
        rcases mem_chanPut hx with hx | hx
        · have : k.toNat ≠ n.toNat := fun e => hkn (BitVec.eq_of_toNat_eq e)
          subst hx; simp only; omega
        · exact hk x hx

theorem chansSorted_del {m : List (ChanName × List Frame)} (n : ChanName)
    (h : chansSorted m = true) : chansSorted (chanDel m n) = true := by
  induction m with
  | nil => simpa [chanDel] using h
  | cons p m ih =>
    obtain ⟨k, p⟩ := p
    obtain ⟨hk, hm⟩ := chansSorted_cons.1 h
    by_cases hkn : k = n
    · subst hkn; simpa [chanDel] using ih hm
    · have : chanDel ((k, p) :: m) n = (k, p) :: chanDel m n := by simp [chanDel, hkn]
      rw [this]
      refine chansSorted_cons.2 ⟨fun x hx => hk x ?_, ih hm⟩
      exact (List.mem_filter.1 hx).1

/-- In a map in canonical form every entry is what its name is bound to. -/
theorem chanGet_of_mem {m : List (ChanName × List Frame)} {p : ChanName × List Frame}
    (hs : chansSorted m = true) (h : p ∈ m) : chanGet m p.1 = some p.2 := by
  induction m with
  | nil => simp at h
  | cons k m ih =>
    obtain ⟨k, q⟩ := k
    obtain ⟨hk, hm⟩ := chansSorted_cons.1 hs
    rcases List.mem_cons.1 h with h | h
    · subst h; simp [chanGet]
    · have hne : k ≠ p.1 := by
        intro e; have := hk p h; rw [e] at this; exact lt_irrefl _ this
      simpa [chanGet, hne] using ih hm h

theorem mem_of_chanGet {m : List (ChanName × List Frame)} {n : ChanName} {q : List Frame}
    (h : chanGet m n = some q) : (n, q) ∈ m := by
  induction m with
  | nil => simp at h
  | cons k m ih =>
    obtain ⟨k, r⟩ := k
    simp only [chanGet] at h
    split at h
    · rename_i hk; subst hk; cases h; simp
    · exact List.mem_cons_of_mem _ (ih h)

/-- What a channel read can do (R182). -/
theorem chanRead_cases (m : List (ChanName × List Frame)) (n : ChanName) :
    (chanGet m n = none ∧ chanRead m n = (.closed, m)) ∨
    (chanGet m n = some [] ∧ chanRead m n = (.empty, m)) ∨
    (∃ fr q, chanGet m n = some (fr :: q) ∧ chanRead m n = (.frame fr, chanPut m n q)) := by
  unfold chanRead
  split
  · exact .inl ⟨by assumption, rfl⟩
  · exact .inr (.inl ⟨by assumption, rfl⟩)
  · exact .inr (.inr ⟨_, _, by assumption, rfl⟩)

end Sys2Proof.Machine
end

