-- ==== Sys2Proof/Laws/Decode.lean ====
section
/-! SUPPORT. Bytes and fields: writing and reading one field of an operation message agree, field by field. -/

namespace Sys2Proof

/-! ## Little-endian bytes -/

@[simp] theorem length_toLE (n w : Nat) : (toLE n w).length = n := by
  induction n generalizing w with
  | zero => rfl
  | succ n ih => simp [toLE, ih]

theorem leNat_toLE (n w : Nat) : leNat (toLE n w) = w % 256 ^ n := by
  induction n generalizing w with
  | zero => simp [toLE, leNat, Nat.mod_one]
  | succ n ih =>
    simp only [toLE, leNat, ih, BitVec.toNat_ofNat]
    rw [Nat.mod_eq_of_lt (by omega : w % 256 < 2 ^ 8), pow_succ', Nat.mod_mul]

theorem leNat_lt (bs : List Byte) : leNat bs < 256 ^ bs.length := by
  induction bs with
  | nil => simp [leNat]
  | cons b bs ih =>
    have := b.isLt
    simp only [leNat, List.length_cons, pow_succ]
    omega

theorem toLE_leNat (bs : List Byte) : toLE bs.length (leNat bs) = bs := by
  induction bs with
  | nil => rfl
  | cons b bs ih =>
    have := b.isLt
    simp only [leNat, List.length_cons, toLE]
    congr 1
    · apply BitVec.eq_of_toNat_eq; simp [BitVec.toNat_ofNat]; omega
    · rw [show (b.toNat + 256 * leNat bs) / 256 = leNat bs by omega, ih]

theorem toLE_leNat_of_length {bs : List Byte} {n : Nat} (h : bs.length = n) : toLE n (leNat bs) = bs := by
  subst h; exact toLE_leNat bs

@[simp] theorem leNat_append (a b : List Byte) : leNat (a ++ b) = leNat a + 256 ^ a.length * leNat b := by
  induction a with
  | nil => simp [leNat]
  | cons x a ih => simp only [List.cons_append, leNat, ih, List.length_cons, pow_succ]; ring

@[simp] theorem leNat_replicate_zero (n : Nat) : leNat (List.replicate n 0) = 0 := by
  induction n with
  | zero => rfl
  | succ n ih => rw [List.replicate_succ, leNat, ih]; rfl

/-! ## One field -/

theorem takeNat_toLE (n v : Nat) (rest : List Byte) (h : v < 256 ^ n) :
    takeNat n (toLE n v ++ rest) = some (v, rest) := by
  simp [takeNat, leNat_toLE, Nat.mod_eq_of_lt h]

theorem takeBits_toLE (n w : Nat) (v : BitVec w) (rest : List Byte) (h : 2 ^ w ≤ 256 ^ n) :
    takeBits n w (toLE n v.toNat ++ rest) = some (v, rest) := by
  simp [takeBits, takeNat_toLE n v.toNat rest (lt_of_lt_of_le v.isLt h), v.isLt]

theorem takeInt_putInt (x : Int) (rest : List Byte) (h : int64Ok x = true) :
    takeInt (putInt x ++ rest) = some (x, rest) := by
  simp only [int64Ok, Bool.and_eq_true, decide_eq_true_eq] at h
  obtain ⟨h1, h2⟩ := h
  have hu : (uMod 64 x : Int) = x % 2 ^ 64 := Int.toNat_of_nonneg (Int.emod_nonneg _ (by norm_num))
  have hlt : uMod 64 x < 256 ^ 8 := by
    have := Int.emod_lt_of_pos x (by norm_num : (0 : Int) < 2 ^ 64)
    norm_num at this hu ⊢; omega
  simp only [takeInt, putInt, takeNat_toLE 8 _ rest hlt, sVal]
  norm_num at h1 h2 hu ⊢
  split <;> omega

theorem takeBool_putBool (x : Bool) (rest : List Byte) : takeBool (putBool x ++ rest) = some (x, rest) := by
  cases x <;> simp [takeBool, putBool, takeNat_toLE]

theorem takeLimitType_put (x : LimitType) (rest : List Byte) :
    takeLimitType (putLimitType x ++ rest) = some (x, rest) := by
  cases x <;> simp [takeLimitType, putLimitType, takeNat_toLE]

theorem takeTx_put (x : TxAnswer) (rest : List Byte) : takeTx (putTx x ++ rest) = some (x, rest) := by
  cases x <;> simp [takeTx, putTx, takeNat_toLE]

/-- A monitoring call is read back if its argument is. -/
theorem takeCall_put {α : Type} {take : List Byte → Option (α × List Byte)} {put : α → List Byte} {ok : α → Bool}
    (h : ∀ x rest, ok x = true → take (put x ++ rest) = some (x, rest)) (c : MonitorCall α) (rest : List Byte)
    (hc : c.fits ok = true) : takeCall take (putCall put c ++ rest) = some (c, rest) := by
  cases c with
  | whole x => simp [takeCall, putCall, takeNat_toLE, h x rest hc]
  | start x => simp [takeCall, putCall, takeNat_toLE, h x rest hc]
  | finish => simp [takeCall, putCall, takeNat_toLE]

theorem takeTurn_put (x : Turn) (rest : List Byte) (h : x.wf = true) :
    takeTurn (putTurn x ++ rest) = some (x, rest) := by
  cases x with
  | issue => simp [takeTurn, putTurn, takeNat_toLE]
  | resume seq =>
    have : seq + 1 < 256 ^ 8 := by simpa [Turn.wf] using h
    simp [takeTurn, putTurn, takeNat_toLE 8 _ rest this]

/-! ## Frames -/

@[simp] theorem length_padData {data : List Byte} (h : data.length ≤ 8) : (padData data).length = 8 := by
  simp [padData]; omega

theorem unpadData_padData {data : List Byte} (h : data.length ≤ 8) :
    unpadData data.length (padData data) = some data := by
  simp [unpadData, padData, h]

theorem takeFrame_put (fr : Frame) (rest : List Byte) (h : fr.wf = true) :
    takeFrame (putFrame fr ++ rest) = some (fr, rest) := by
  obtain ⟨id, data⟩ := fr
  have hd : data.length ≤ 8 := by simpa [Frame.wf] using h
  have hid := id.isLt
  have hlt : id.toNat + 2 ^ 11 * data.length < 256 ^ 2 := by omega
  have hp := length_padData hd
  simp only [takeFrame, putFrame, Frame.dlc, List.append_assoc, takeNat_toLE 2 _ _ hlt]
  rw [if_pos ⟨by omega, by simp [hp]⟩]
  have h1 : bits (id.toNat + 2 ^ 11 * data.length) 14 11 = data.length := by simp only [bits]; omega
  have h2 : bits (id.toNat + 2 ^ 11 * data.length) 10 0 = id.toNat := by simp only [bits]; omega
  rw [h1, h2, List.take_append_of_le_length (by omega), List.drop_append_of_le_length (by omega),
    List.take_of_length_le (by omega), List.drop_of_length_le (by omega), unpadData_padData hd]
  simp

theorem length_putFrame {fr : Frame} (h : fr.wf = true) : (putFrame fr).length = 10 := by
  have hd : fr.data.length ≤ 8 := by simpa [Frame.wf] using h
  simp [putFrame, length_padData hd]

/-! ## Command words -/

theorem filterWord_toNat (tag : Nat) (ht : tag < 4) (address mask : CanId) (chan : ChanName) :
    (BitVec.ofNat 96 (tag + 4 * address.toNat + 2 ^ 13 * mask.toNat + 2 ^ 32 * chan.toNat)).toNat =
      tag + 4 * address.toNat + 2 ^ 13 * mask.toNat + 2 ^ 32 * chan.toNat := by
  have h1 := address.isLt
  have h2 := mask.isLt
  have h3 := chan.isLt
  rw [BitVec.toNat_ofNat, Nat.mod_eq_of_lt]
  omega

/-- A command survives its word (R140). -/
theorem commandOfWord_commandWord (c : Command) (h : c.wf = true) : commandOfWord (commandWord c) = some c := by
  cases c with
  | send fr =>
    obtain ⟨id, data⟩ := fr
    have hd : data.length ≤ 8 := by simpa [Command.wf, Frame.wf] using h
    have hid := id.isLt
    have hp := leNat_lt (padData data)
    rw [length_padData hd] at hp
    have hw : (commandWord (.send ⟨id, data⟩)).toNat = 0 + 4 * id.toNat + 2 ^ 13 * data.length + 2 ^ 32 * leNat (padData data) := by
      simp only [commandWord, Frame.dlc]
      rw [BitVec.toNat_ofNat, Nat.mod_eq_of_lt]; omega
    simp only [commandOfWord, hw]
    have e0 : bits (0 + 4 * id.toNat + 2 ^ 13 * data.length + 2 ^ 32 * leNat (padData data)) 1 0 = 0 := by simp only [bits]; omega
    have e1 : bits (0 + 4 * id.toNat + 2 ^ 13 * data.length + 2 ^ 32 * leNat (padData data)) 31 17 = 0 := by simp only [bits]; omega
    have e2 : bits (0 + 4 * id.toNat + 2 ^ 13 * data.length + 2 ^ 32 * leNat (padData data)) 16 13 = data.length := by simp only [bits]; omega
    have e3 : bits (0 + 4 * id.toNat + 2 ^ 13 * data.length + 2 ^ 32 * leNat (padData data)) 95 32 = leNat (padData data) := by simp only [bits]; omega
    have e4 : bits (0 + 4 * id.toNat + 2 ^ 13 * data.length + 2 ^ 32 * leNat (padData data)) 12 2 = id.toNat := by simp only [bits]; omega
    rw [e0, e1, e2, e3, e4, toLE_leNat_of_length (length_padData hd), unpadData_padData hd]
    simp
  | addFilter fe =>
    obtain ⟨a, m, ch⟩ := fe
    have ha := a.isLt; have hm := m.isLt; have hc := ch.isLt
    simp only [commandOfWord, commandWord, filterWord_toNat 1 (by omega : 1 < 4) a m ch]
    have e0 : bits (1 + 4 * a.toNat + 2 ^ 13 * m.toNat + 2 ^ 32 * ch.toNat) 1 0 = 1 := by simp only [bits]; omega
    have e1 : bits (1 + 4 * a.toNat + 2 ^ 13 * m.toNat + 2 ^ 32 * ch.toNat) 31 24 = 0 := by simp only [bits]; omega
    have e2 : bits (1 + 4 * a.toNat + 2 ^ 13 * m.toNat + 2 ^ 32 * ch.toNat) 12 2 = a.toNat := by simp only [bits]; omega
    have e3 : bits (1 + 4 * a.toNat + 2 ^ 13 * m.toNat + 2 ^ 32 * ch.toNat) 23 13 = m.toNat := by simp only [bits]; omega
    have e4 : bits (1 + 4 * a.toNat + 2 ^ 13 * m.toNat + 2 ^ 32 * ch.toNat) 95 32 = ch.toNat := by simp only [bits]; omega
    rw [e0, e1, e2, e3, e4]; simp
  | removeFilter fe =>
    obtain ⟨a, m, ch⟩ := fe
    have ha := a.isLt; have hm := m.isLt; have hc := ch.isLt
    simp only [commandOfWord, commandWord, filterWord_toNat 2 (by omega : 2 < 4) a m ch]
    have e0 : bits (2 + 4 * a.toNat + 2 ^ 13 * m.toNat + 2 ^ 32 * ch.toNat) 1 0 = 2 := by simp only [bits]; omega
    have e1 : bits (2 + 4 * a.toNat + 2 ^ 13 * m.toNat + 2 ^ 32 * ch.toNat) 31 24 = 0 := by simp only [bits]; omega
    have e2 : bits (2 + 4 * a.toNat + 2 ^ 13 * m.toNat + 2 ^ 32 * ch.toNat) 12 2 = a.toNat := by simp only [bits]; omega
    have e3 : bits (2 + 4 * a.toNat + 2 ^ 13 * m.toNat + 2 ^ 32 * ch.toNat) 23 13 = m.toNat := by simp only [bits]; omega
    have e4 : bits (2 + 4 * a.toNat + 2 ^ 13 * m.toNat + 2 ^ 32 * ch.toNat) 95 32 = ch.toNat := by simp only [bits]; omega
    rw [e0, e1, e2, e3, e4]; simp

/-! ## A field at the end of a message, and the composite fields -/

theorem takeNat_end (n v : Nat) (h : v < 256 ^ n) : takeNat n (toLE n v) = some (v, []) := by
  simpa using takeNat_toLE n v [] h

theorem takeBits_end (n w : Nat) (v : BitVec w) (h : 2 ^ w ≤ 256 ^ n) :
    takeBits n w (toLE n v.toNat) = some (v, []) := by
  simpa using takeBits_toLE n w v [] h

theorem takeInt_end (x : Int) (h : int64Ok x = true) : takeInt (putInt x) = some (x, []) := by
  simpa using takeInt_putInt x [] h

theorem takeBool_end (x : Bool) : takeBool (putBool x) = some (x, []) := by
  simpa using takeBool_putBool x []

theorem takeTx_end (x : TxAnswer) : takeTx (putTx x) = some (x, []) := by
  simpa using takeTx_put x []

theorem takeCall_end {α : Type} {take : List Byte → Option (α × List Byte)} {put : α → List Byte} {ok : α → Bool}
    (h : ∀ x rest, ok x = true → take (put x ++ rest) = some (x, rest)) (c : MonitorCall α)
    (hc : c.fits ok = true) : takeCall take (putCall put c) = some (c, []) := by
  simpa using takeCall_put h c [] hc

theorem takeTurn_end (x : Turn) (h : x.wf = true) : takeTurn (putTurn x) = some (x, []) := by
  simpa using takeTurn_put x [] h

theorem takePair_put (mx mn : BitVec 16) (rest : List Byte) :
    takePair (putPair mx mn ++ rest) = some ((mx, mn), rest) := by
  have h16 := fun (v : BitVec 16) rest => takeBits_toLE 2 16 v rest (by norm_num)
  simp only [takePair, putPair, List.append_assoc, h16, Option.bind_eq_bind, Option.bind_some]

theorem takePair_end (mx mn : BitVec 16) : takePair (putPair mx mn) = some ((mx, mn), []) := by
  simpa using takePair_put mx mn []

theorem takeIdent_put (p : EpcProps) (rest : List Byte) :
    takeIdent (putIdent p ++ rest) = some ((p.canId, p.fwVer, p.hwVer, p.sn), rest) := by
  have h6 := fun (v : BitVec 6) rest => takeBits_toLE 1 6 v rest (by norm_num)
  have h5 := fun (v : BitVec 5) rest => takeBits_toLE 1 5 v rest (by norm_num)
  have h13 := fun (v : BitVec 13) rest => takeBits_toLE 2 13 v rest (by norm_num)
  have h8 := fun (v : BitVec 8) rest => takeBits_toLE 1 8 v rest (by norm_num)
  simp only [takeIdent, putIdent, List.append_assoc, h6, h5, h13, h8, Option.bind_eq_bind,
    Option.bind_some]

theorem takeProps_put (p : EpcProps) (rest : List Byte) :
    takeProps (putProps p ++ rest) = some (p, rest) := by
  simp only [takeProps, putProps, List.append_assoc, takeIdent_put, takePair_put, Option.bind_eq_bind,
    Option.bind_some]

theorem takeFilter_put (fe : FilterEntry) (rest : List Byte) :
    takeFilter (putFilter fe ++ rest) = some (fe, rest) := by
  have h11 := fun (v : BitVec 11) rest => takeBits_toLE 2 11 v rest (by norm_num)
  have h64 := fun (v : BitVec 64) rest => takeBits_toLE 8 64 v rest (by norm_num)
  cases fe
  simp only [takeFilter, putFilter, List.append_assoc, h11, h64, Option.bind_eq_bind, Option.bind_some]

theorem takeEvent_put (ev : BusEvent) (rest : List Byte) (h : ev.wf = true) :
    takeEvent (putEvent ev ++ rest) = some (ev, rest) := by
  have h0 : (⟨0#11, []⟩ : Frame).wf = true := rfl
  cases ev with
  | frame fr =>
    have hf : fr.wf = true := h
    simp [takeEvent, putEvent, takeFrame_put _ _ hf, takeNat_toLE 1]
  | none => simp [takeEvent, putEvent, takeFrame_put _ _ h0, takeNat_toLE 1]
  | errorFrame => simp [takeEvent, putEvent, takeFrame_put _ _ h0, takeNat_toLE 1]
  | invalid => simp [takeEvent, putEvent, takeFrame_put _ _ h0, takeNat_toLE 1]

/-! ## Identifiers -/

theorem identifier_toNat (dev : BitVec 7) {t : Nat} (ht : t < 16) :
    (identifier dev.toNat t).toNat = dev.toNat * 16 + t := by
  have := dev.isLt
  rw [identifier, BitVec.toNat_ofNat, Nat.mod_eq_of_lt]
  omega

theorem messageType_identifier (dev : BitVec 7) {t : Nat} (ht : t < 16) :
    messageType (identifier dev.toNat t) = t := by
  simp only [messageType, identifier_toNat dev ht, bits]
  omega

theorem deviceId_identifier (dev : BitVec 7) {t : Nat} (ht : t < 16) :
    deviceId (identifier dev.toNat t) = dev := by
  have := dev.isLt
  simp only [deviceId, identifier_toNat dev ht, bits]
  apply BitVec.eq_of_toNat_eq
  rw [BitVec.toNat_ofNat]
  omega

end Sys2Proof
end

