-- ==== Sys2Proof/Laws/Ops.lean ====
section
/-! SUPPORT. One lemma for each shared operation that says once everything it can do, for citing instead of
unfolding it. -/

namespace Sys2Proof.Machine

open Sys2Proof

/-! ## Submit and the command application -/

/-- Everything a submit of a command can do (R180). -/
theorem submit_cases (cfg : Config) (n : Node) (c : Command) :
    (n.cmdqOpen = false ∧ submit cfg n c = .error .queueClosed) ∨
    (n.cmdqOpen = true ∧ n.cmdq.length = cfg.cmdDepth ∧ submit cfg n c = .error .queueFull) ∨
    (n.cmdqOpen = true ∧ n.cmdq.length ≠ cfg.cmdDepth ∧
      submit cfg n c = .ok (n.seq, { n with cmdq := n.cmdq ++ [(n.seq, c)], seq := n.seq + 1 })) := by
  unfold submit
  cases h : n.cmdqOpen
  · simp
  · by_cases hl : n.cmdq.length = cfg.cmdDepth <;> simp [hl]

/-- A submit that succeeds (R180). -/
theorem submit_ok {cfg : Config} {n : Node} (c : Command) (ho : n.cmdqOpen = true)
    (hl : n.cmdq.length ≠ cfg.cmdDepth) :
    submit cfg n c = .ok (n.seq, { n with cmdq := n.cmdq ++ [(n.seq, c)], seq := n.seq + 1 }) := by
  simp [submit, ho, hl]

/-- Everything a submit of a command word can do (R180, R141). -/
theorem submitWord_cases (cfg : Config) (n : Node) (w : BitVec 96) :
    (n.cmdqOpen = false ∧ submitWord cfg n w = .error .queueClosed) ∨
    (n.cmdqOpen = true ∧ commandOfWord w = none ∧ submitWord cfg n w = .error (.frameError w)) ∨
    (∃ c, n.cmdqOpen = true ∧ commandOfWord w = some c ∧ submitWord cfg n w = submit cfg n c) := by
  unfold submitWord
  cases h : n.cmdqOpen
  · simp
  · cases hc : commandOfWord w <;> simp

theorem sameKey_some {fs : List FilterEntry} {fe g : FilterEntry} (h : sameKey fs fe = some g) :
    g ∈ fs ∧ g.address = fe.address ∧ g.mask = fe.mask := by
  have h1 := List.mem_of_find?_eq_some h
  have h2 := List.find?_some h
  simp at h2
  exact ⟨h1, h2⟩

theorem sameKey_none {fs : List FilterEntry} {fe : FilterEntry} :
    sameKey fs fe = none ↔ ∀ g ∈ fs, ¬(g.address = fe.address ∧ g.mask = fe.mask) := by
  simp [sameKey]

/-- Everything `ApplyAdd` can do (R172). -/
theorem applyAdd_cases (cfg : Config) (n : Node) (fe : FilterEntry) :
    (∃ g, sameKey n.filters fe = some g ∧ g.chan = fe.chan ∧ applyAdd cfg n fe = (.noop, n)) ∨
    (∃ g, sameKey n.filters fe = some g ∧ g.chan ≠ fe.chan ∧
      applyAdd cfg n fe = (.configConflict fe, n)) ∨
    (sameKey n.filters fe = none ∧ (∃ g ∈ n.filters, g.chan = fe.chan) ∧
      applyAdd cfg n fe = (.configConflict fe, n)) ∨
    (sameKey n.filters fe = none ∧ (∀ g ∈ n.filters, g.chan ≠ fe.chan) ∧
      n.filters.length = cfg.nFilters ∧ applyAdd cfg n fe = (.capacityError fe, n)) ∨
    (sameKey n.filters fe = none ∧ (∀ g ∈ n.filters, g.chan ≠ fe.chan) ∧
      n.filters.length ≠ cfg.nFilters ∧
      applyAdd cfg n fe =
        (.ok, { n with filters := n.filters ++ [fe], chans := chanPut n.chans fe.chan [] })) := by
  unfold applyAdd
  cases hk : sameKey n.filters fe with
  | some g => by_cases hc : g.chan = fe.chan <;> simp [hc]
  | none =>
    by_cases hb : ∃ g ∈ n.filters, g.chan = fe.chan
    · refine .inr (.inr (.inl ⟨rfl, hb, ?_⟩))
      simp [hb]
    · have hb' : n.filters.any (fun g => decide (g.chan = fe.chan)) = false := by
        simpa using hb
      push Not at hb
      by_cases hl : n.filters.length = cfg.nFilters
      · exact .inr (.inr (.inr (.inl ⟨rfl, hb, hl, by simp [hb', hl]⟩)))
      · exact .inr (.inr (.inr (.inr ⟨rfl, hb, hl, by simp [hb', hl]⟩)))

/-- Everything `ApplyRemove` can do (R175). -/
theorem applyRemove_cases (n : Node) (fe : FilterEntry) :
    (sameKey n.filters fe = none ∧ applyRemove n fe = (.noop, n)) ∨
    (∃ g, sameKey n.filters fe = some g ∧ g.chan ≠ fe.chan ∧
      applyRemove n fe = (.configConflict fe, n)) ∨
    (∃ g, sameKey n.filters fe = some g ∧ g.chan = fe.chan ∧
      applyRemove n fe = (.ok, { n with
        filters := n.filters.filter (· ≠ g)
        chans := chanDel n.chans g.chan
        held := discardHeld n.held g.chan })) := by
  unfold applyRemove
  cases hk : sameKey n.filters fe with
  | some g => by_cases hc : g.chan = fe.chan <;> simp [hc]
  | none => simp

theorem applySend_cases (n : Node) (fr : Frame) (tx : TxAnswer) :
    (tx = .ok ∧ applySend n fr tx = (.ok, n)) ∨
    (tx = .fail ∧ applySend n fr tx = (.busError fr, n)) := by
  cases tx <;> simp [applySend]

/-- Everything `Dispatch` can do (R171). -/
theorem dispatch_cases (cfg : Config) (n : Node) (fr : Frame) :
    (firstMatch n.filters fr.id = none ∧ dispatch cfg n fr = n) ∨
    (∃ f, firstMatch n.filters fr.id = some f ∧ chanGet n.chans f.chan = none ∧
      dispatch cfg n fr = n) ∨
    (∃ f q, firstMatch n.filters fr.id = some f ∧ chanGet n.chans f.chan = some q ∧
      q.length < cfg.chanDepth ∧
      dispatch cfg n fr = { n with chans := chanPut n.chans f.chan (q ++ [fr]) }) ∨
    (∃ f q, firstMatch n.filters fr.id = some f ∧ chanGet n.chans f.chan = some q ∧
      ¬q.length < cfg.chanDepth ∧ cfg.chanFullPolicy = .dropNewest ∧ dispatch cfg n fr = n) ∨
    (∃ f q, firstMatch n.filters fr.id = some f ∧ chanGet n.chans f.chan = some q ∧
      ¬q.length < cfg.chanDepth ∧ cfg.chanFullPolicy = .block ∧
      dispatch cfg n fr = { n with held := some (fr, f.chan) }) := by
  unfold dispatch
  cases hf : firstMatch n.filters fr.id with
  | none => simp
  | some f =>
    cases hq : chanGet n.chans f.chan with
    | none => simp [hq]
    | some q =>
      by_cases hl : q.length < cfg.chanDepth
      · simp [hq, hl]
      · cases hp : cfg.chanFullPolicy <;> simp [hq, hl] <;> omega

/-! ## Worker steps -/

theorem workerAt_iff (n : Node) (p : Phase) :
    workerAt n p = true ↔ n.halted = false ∧ n.held = none ∧ n.phase = p := by
  simp [workerAt, and_assoc]

theorem workerStep_next {p : Phase} {s t : State} {f : Node → Node} :
    workerStep p s f = .next t ↔
      (s.node.halted = false ∧ s.node.held = none ∧ s.node.phase = p) ∧ t = s.withNode (f s.node) := by
  rw [← workerAt_iff]
  unfold workerStep
  split <;> rename_i h
  · simp [h, eq_comm]
  · simp [h]

theorem workerStep_at {p : Phase} {s : State} {f : Node → Node}
    (h : s.node.halted = false ∧ s.node.held = none ∧ s.node.phase = p) :
    workerStep p s f = .next (s.withNode (f s.node)) := workerStep_next.2 ⟨h, rfl⟩

/-- Everything an application of the head command can do (R170). -/
theorem applyStep_next {s t : State} {tx : TxAnswer} {sel : Command → Bool} :
    applyStep s tx sel = .next t ↔
      (s.node.halted = false ∧ s.node.held = none ∧ s.node.phase = .drain) ∧
      ∃ seq c rest, s.node.cmdq = (seq, c) :: rest ∧ sel c = true ∧
        t = s.withNode (applyHead s.cfg s.node seq c rest tx) := by
  rw [← workerAt_iff]
  unfold applyStep
  split <;> rename_i h
  · split <;> rename_i hq
    · rename_i seq c rest
      by_cases hs : sel c = true
      · simp only [hs, if_true, h, true_and]
        constructor
        · intro e
          cases e
          exact ⟨seq, c, rest, hq, hs, rfl⟩
        · rintro ⟨seq', c', rest', hq', -, rfl⟩
          rw [hq] at hq'
          cases hq'
          rfl
      · simp only [hs]
        constructor
        · intro e; simp at e
        · rintro ⟨-, seq', c', rest', hq', hs', -⟩
          rw [hq] at hq'
          cases hq'
          exact absurd hs' hs
    · simp [hq]
  · simp [h]

theorem applyStep_at {s : State} {tx : TxAnswer} {sel : Command → Bool} {seq : Nat} {c : Command}
    {rest : List (Nat × Command)}
    (h : s.node.halted = false ∧ s.node.held = none ∧ s.node.phase = .drain)
    (hq : s.node.cmdq = (seq, c) :: rest) (hs : sel c = true) :
    applyStep s tx sel = .next (s.withNode (applyHead s.cfg s.node seq c rest tx)) :=
  applyStep_next.2 ⟨h, seq, c, rest, hq, hs, rfl⟩

/-! ## Calls on an instance -/

/-- Everything an operation on the records of an EPC instance can do (log 4). -/
theorem atEpc_next {s t : State} {e : Nat} {f : Epc → Result} :
    atEpc s e f = .next t ↔ ∃ r, s.epcs[e]? = some r ∧ f r = .next t := by
  unfold atEpc
  cases h : s.epcs[e]? <;> simp

theorem atEpc_some {s : State} {e : Nat} {r : Epc} (f : Epc → Result) (h : s.epcs[e]? = some r) :
    atEpc s e f = f r := by
  simp [atEpc, h]

theorem atEpc_none {s : State} {e : Nat} (f : Epc → Result) (h : s.epcs[e]? = none) :
    atEpc s e f = .refused .noSuchInstance := by
  simp [atEpc, h]

/-- Everything an operation on the records of a BMS instance can do (log 4). -/
theorem atBms_next {s t : State} {b : Nat} {f : Bms → Result} :
    atBms s b f = .next t ↔ ∃ r, s.bmses[b]? = some r ∧ f r = .next t := by
  unfold atBms
  cases h : s.bmses[b]? <;> simp

theorem atBms_some {s : State} {b : Nat} {r : Bms} (f : Bms → Result) (h : s.bmses[b]? = some r) :
    atBms s b f = f r := by
  simp [atBms, h]

theorem atBms_none {s : State} {b : Nat} (f : Bms → Result) (h : s.bmses[b]? = none) :
    atBms s b f = .refused .noSuchInstance := by
  simp [atBms, h]

/-- Everything a new host call on an EPC instance can do (log 4, R469). -/
theorem onEpc_next {s t : State} {e : Nat} {f : Epc → Result} :
    onEpc s e f = .next t ↔ ∃ r, s.epcs[e]? = some r ∧ epcFree s e = true ∧ f r = .next t := by
  rw [onEpc, atEpc_next]
  cases epcFree s e <;> simp

theorem onEpc_some {s : State} {e : Nat} {r : Epc} (f : Epc → Result) (h : s.epcs[e]? = some r)
    (hf : epcFree s e = true) : onEpc s e f = f r := by
  simp [onEpc, atEpc, h, hf]

theorem onEpc_none {s : State} {e : Nat} (f : Epc → Result) (h : s.epcs[e]? = none) :
    onEpc s e f = .refused .noSuchInstance := atEpc_none _ h

theorem onEpc_busy {s : State} {e : Nat} {r : Epc} (f : Epc → Result) (h : s.epcs[e]? = some r)
    (hf : epcFree s e = false) : onEpc s e f = .refused .overlappingCall := by
  simp [onEpc, atEpc, h, hf]

/-- Everything a new host call on a BMS instance can do (log 4, R469). -/
theorem onBms_next {s t : State} {b : Nat} {f : Bms → Result} :
    onBms s b f = .next t ↔ ∃ r, s.bmses[b]? = some r ∧ bmsFree s b = true ∧ f r = .next t := by
  rw [onBms, atBms_next]
  cases bmsFree s b <;> simp

theorem onBms_some {s : State} {b : Nat} {r : Bms} (f : Bms → Result) (h : s.bmses[b]? = some r)
    (hf : bmsFree s b = true) : onBms s b f = f r := by
  simp [onBms, atBms, h, hf]

theorem onBms_none {s : State} {b : Nat} (f : Bms → Result) (h : s.bmses[b]? = none) :
    onBms s b f = .refused .noSuchInstance := atBms_none _ h

theorem onBms_busy {s : State} {b : Nat} {r : Bms} (f : Bms → Result) (h : s.bmses[b]? = some r)
    (hf : bmsFree s b = false) : onBms s b f = .refused .overlappingCall := by
  simp [onBms, atBms, h, hf]

/-- An EPC instance is free exactly when no `open` or `close` of it is held and no monitoring call on it is in
progress. -/
theorem epcFree_iff {s : State} {e : Nat} :
    epcFree s e = true ↔
      (∀ w ∈ s.waits, w.target = e → w.kind ≠ .epcOpen ∧ w.kind ≠ .epcClose) ∧
      ∀ x ∈ s.drains, x.device ≠ .epc e := by
  simp only [epcFree, drainFree, Bool.and_eq_true, List.all_eq_true, decide_eq_true_eq]
  refine and_congr_left fun _ => forall₂_congr fun w _ => ?_
  cases h : w.kind <;> simp [WaitKind.onEpc]

/-- A BMS instance is free exactly when neither its construction nor a `close` of it is held and no `get_data` on it
is in progress. -/
theorem bmsFree_iff {s : State} {b : Nat} :
    bmsFree s b = true ↔
      (∀ w ∈ s.waits, w.target = b → w.kind ≠ .bmsNew ∧ w.kind ≠ .bmsClose) ∧
      ∀ x ∈ s.drains, x.device ≠ .bms b := by
  simp only [bmsFree, drainFree, Bool.and_eq_true, List.all_eq_true, decide_eq_true_eq]
  refine and_congr_left fun _ => forall₂_congr fun w _ => ?_
  cases h : w.kind <;> simp [WaitKind.onEpc]

/-! ## Monitoring calls in progress (log 8) -/

theorem drainOf_some {s : State} {d : Device} {x : Drain} (h : drainOf s d = some x) :
    x ∈ s.drains ∧ x.device = d := by
  exact ⟨List.mem_of_find?_eq_some h, by simpa using List.find?_some h⟩

theorem drainOf_none {s : State} {d : Device} : drainOf s d = none ↔ ∀ x ∈ s.drains, x.device ≠ d := by
  simp [drainOf]

/-- After a replacement an instance's call has the new frames, and every other call stays. -/
theorem drainOf_putFrames {s : State} {c : Device} {q : List Frame} (d : Device) :
    drainOf (s.putFrames c q) d =
      if d = c then (drainOf s d).map (fun x => { x with frames := q }) else drainOf s d := by
  simp only [drainOf, putFrames_drains]
  induction s.drains with
  | nil => simp
  | cons y ys ih =>
    by_cases hd : d = c
    · subst hd
      by_cases hy : y.device = d <;> simp_all
    · by_cases hy : y.device = c
      · have : ¬c = d := fun h => hd h.symm
        simp_all
      · by_cases hy' : y.device = d <;> simp_all

/-- After a return the instance has no call in progress, and every other call stays. -/
theorem drainOf_endDrain {s : State} {c : Device} (d : Device) :
    drainOf (s.endDrain c) d = if d = c then none else drainOf s d := by
  simp only [drainOf, endDrain_drains]
  induction s.drains with
  | nil => simp
  | cons y ys ih =>
    by_cases hd : d = c
    · subst hd
      by_cases hy : y.device = d <;> simp_all
    · by_cases hy : y.device = c
      · have : ¬c = d := fun h => hd h.symm
        simp_all
      · by_cases hy' : y.device = d <;> simp_all

/-- Everything a frame row's selection can do (R211, R309): `fr` leaves the frames of the call in progress. -/
theorem onFrame_next {s t : State} {d : Device} {fr : Frame} {f : Nat → State → Result} :
    onFrame s d fr f = .next t ↔ ∃ x q, drainOf s d = some x ∧ x.frames = fr :: q ∧
      f x.now (s.putFrames d q) = .next t := by
  unfold onFrame
  cases h : drainOf s d with
  | none => simp
  | some x =>
    cases hf : x.frames with
    | nil => simp [hf]
    | cons g q =>
      by_cases hg : g = fr
      · subst hg; simp [hf]
      · simp [hf, hg]

theorem onFrame_head {s : State} {d : Device} {fr : Frame} {x : Drain} {q : List Frame} (f : Nat → State → Result)
    (h : drainOf s d = some x) (hq : x.frames = fr :: q) :
    onFrame s d fr f = f x.now (s.putFrames d q) := by
  simp [onFrame, h, hq]

theorem onFrame_other {s : State} {d : Device} {fr : Frame} (f : Nat → State → Result)
    (h : ∀ x q, drainOf s d = some x → x.frames ≠ fr :: q) : onFrame s d fr f = .refused .notSelected := by
  unfold onFrame
  cases hx : drainOf s d with
  | none => simp
  | some x =>
    cases hf : x.frames with
    | nil => simp [hf]
    | cons g q =>
      have hg : g ≠ fr := fun hg => h x q hx (by rw [hf, hg])
      simp [hf, hg]

/-- Everything an EPC frame row can do (R100, R211, R260). -/
theorem epcRx_next {s t : State} {e : Nat} {fr : Frame} {f : Epc → Frame → Epc} :
    epcRx s e fr f = .next t ↔ ∃ r x q, s.epcs[e]? = some r ∧ drainOf s (.epc e) = some x ∧ x.frames = fr :: q ∧
      t = (s.putFrames (.epc e) q).withEpc e (f r fr) := by
  simp only [epcRx, atEpc_next, onFrame_next, Host.Outcome.next.injEq, eq_comm (a := t), exists_and_left]

/-- Everything a BMS frame row can do (R100, R300, R309). -/
theorem bmsRx_next {s t : State} {b : Nat} {fr : Frame} {row : BmsRow} {f : Nat → Bms → Option Bms} :
    bmsRx s b fr row f = .next t ↔ ∃ r x q r', s.bmses[b]? = some r ∧ drainOf s (.bms b) = some x ∧
      x.frames = fr :: q ∧ selectRow r fr = row ∧ f x.now r = some r' ∧
      t = (s.putFrames (.bms b) q).withBms b r' := by
  simp only [bmsRx, atBms_next, onFrame_next]
  constructor
  · rintro ⟨r, h, x, q, hx, hq, ht⟩
    split at ht
    · split at ht
      · exact ⟨r, x, q, _, h, hx, hq, by assumption, by assumption, by simpa using ht.symm⟩
      · cases ht
    · cases ht
  · rintro ⟨r, x, q, r', h, hx, hq, hs, hr, rfl⟩
    exact ⟨r, h, x, q, hx, hq, by simp [hs, hr]⟩

/-- Everything the return of a monitoring call can do. -/
theorem finishDrain_next {s t : State} {d : Device} {f : Nat → State → State} :
    finishDrain s d f = .next t ↔ ∃ x, drainOf s d = some x ∧
      ((x.frames = [] ∧ t = f x.now (s.endDrain d)) ∨
        (x.frames ≠ [] ∧ t = s.answer (.draining x.frames.length))) := by
  unfold finishDrain
  cases h : drainOf s d with
  | none => simp
  | some x => by_cases hf : x.frames = [] <;> simp [hf, eq_comm]

/-- The return of a monitoring call that is not in progress is refused. -/
theorem finishDrain_none {s : State} {d : Device} (f : Nat → State → State) (h : drainOf s d = none) :
    finishDrain s d f = .refused .noSuchCall := by
  simp [finishDrain, h]

/-! ## Code tables -/

/-- Reading the number of a mode gives the mode (R117, R261). -/
theorem modeOfCode_modeCode {c : ModeCodes} (h : c.wf = true) (m : Mode) :
    modeOfCode c (modeCode c m).toNat = some m := by
  simp only [ModeCodes.wf, ModeCodes.list, Bool.and_eq_true, decide_eq_true_eq, List.all_eq_true,
    List.nodup_cons, List.mem_cons, List.not_mem_nil, or_false, not_or,
    ← BitVec.toNat_inj] at h
  unfold modeOfCode
  cases m <;> simp [modeCode, modes, h]

/-- Reading the number of a limit type gives the limit type (R118). -/
theorem limitOfCode_limitCode {c : LimitCodes} (h : c.wf = true) (lt : LimitType) :
    limitOfCode c (limitCode c lt).toNat = lt := by
  simp only [LimitCodes.wf, decide_eq_true_eq, List.nodup_cons, List.mem_cons, List.not_mem_nil, or_false,
    not_or, ← BitVec.toNat_inj] at h
  cases lt <;> simp [limitCode, limitOfCode, h]

/-! ## Frames of the encoder -/

/-- Everything `MakeFrame` can do (R110). -/
theorem makeFrame_cases (id dlc : Nat) (payload : List Byte) :
    ((8 < dlc ∨ 0x7FF < id ∨ payload.length ≠ dlc) ∧ makeFrame id dlc payload = .error (.badFrame id dlc)) ∨
    (dlc ≤ 8 ∧ id ≤ 0x7FF ∧ payload.length = dlc ∧
      makeFrame id dlc payload = .ok ⟨BitVec.ofNat 11 id, payload⟩) := by
  unfold makeFrame
  split <;> rename_i h
  · exact .inl ⟨h, rfl⟩
  · right; simp at h; exact ⟨h.1, h.2.1, h.2.2, rfl⟩

/-- The encoder's frames are frames: its calls of `MakeFrame` never fail (R110, R113). -/
theorem epcFrame_ok (dev : BitVec 6) {type dlc : Nat} (w : Nat) (ht : type < 16) (hd : dlc ≤ 8) :
    epcFrame dev type dlc w = .ok ⟨identifier dev.toNat type, toLE dlc w⟩ := by
  have := dev.isLt
  rcases makeFrame_cases (dev.toNat * 16 + type) dlc (toLE dlc w) with ⟨h, -⟩ | ⟨-, -, -, h⟩
  · rw [length_toLE] at h; omega
  · exact h

/-- Everything the first turn of a waiting call can do (R224, R225, R308, R311). -/
theorem issueCall_cases (s : State) (c : Command) (kind : WaitKind) (target : Nat) :
    (s.node.cmdqOpen = false ∧ issueCall s c kind target = s.raise .queueClosed) ∨
    (s.node.cmdqOpen = true ∧ s.node.cmdq.length = s.cfg.cmdDepth ∧
      issueCall s c kind target = s.raise .queueFull) ∨
    (s.node.cmdqOpen = true ∧ s.node.cmdq.length ≠ s.cfg.cmdDepth ∧
      issueCall s c kind target =
        ((s.withNode { s.node with cmdq := s.node.cmdq ++ [(s.node.seq, c)], seq := s.node.seq + 1 }).hold
          ⟨s.node.seq, kind, target⟩).answer (.waiting s.node.seq)) := by
  unfold issueCall
  rcases submit_cases s.cfg s.node c with ⟨ho, h⟩ | ⟨ho, hl, h⟩ | ⟨ho, hl, h⟩
  · exact .inl ⟨ho, by rw [h]⟩
  · exact .inr (.inl ⟨ho, hl, by rw [h]⟩)
  · exact .inr (.inr ⟨ho, hl, by rw [h]⟩)

/-- Everything the second turn of a held call can do (R224, R225, R308, R311). -/
theorem resumeCall_next {s t : State} {seq : Nat} {kind : WaitKind} {target : Nat}
    {good atHalt : State → State} (h : resumeCall s seq kind target good atHalt = .next t) :
    ⟨seq, kind, target⟩ ∈ s.waits ∧
    ((s.node.results.lookup seq = none ∧ s.node.halted = false ∧ t = s.answer (.waiting seq)) ∨
     (s.node.results.lookup seq = none ∧ s.node.halted = true ∧
       t = atHalt (s.release ⟨seq, kind, target⟩)) ∨
     (∃ o, s.node.results.lookup seq = some o ∧ outcomeError o = none ∧
       t = good (s.release ⟨seq, kind, target⟩)) ∨
     (∃ o err, s.node.results.lookup seq = some o ∧ outcomeError o = some err ∧
       t = (s.release ⟨seq, kind, target⟩).raise err)) := by
  unfold resumeCall waitView at h
  split at h <;> rename_i hw
  · refine ⟨hw, ?_⟩
    cases hl : s.node.results.lookup seq with
    | none =>
      cases hh : s.node.halted
      · simp [hl, hh] at h; exact .inl ⟨rfl, rfl, h.symm⟩
      · simp [hl, hh] at h; exact .inr (.inl ⟨rfl, rfl, h.symm⟩)
    | some o =>
      cases ho : outcomeError o with
      | none => simp [hl, ho] at h; exact .inr (.inr (.inl ⟨o, rfl, ho, h.symm⟩))
      | some err => simp [hl, ho] at h; exact .inr (.inr (.inr ⟨o, err, rfl, ho, h.symm⟩))
  · simp at h

/-! ## Drains -/

/-- Everything the reads of a drain do (R211, R309): nothing on a closed channel; else the oldest `k` frames are
read, the later ones stay, and no other name is touched. -/
theorem takeFrames_spec (k : Nat) (m : List (ChanName × List Frame)) (n : ChanName) :
    (chanGet m n = none → takeFrames k m n = ([], m)) ∧
    (∀ q, chanGet m n = some q →
      (takeFrames k m n).1 = q.take k ∧ chanGet (takeFrames k m n).2 n = some (q.drop k) ∧
      ∀ n', n' ≠ n → chanGet (takeFrames k m n).2 n' = chanGet m n') := by
  induction k generalizing m with
  | zero => simp [takeFrames]
  | succ k ih =>
    rcases chanRead_cases m n with ⟨h, hr⟩ | ⟨h, hr⟩ | ⟨fr, q, h, hr⟩
    · simp [takeFrames, hr, h]
    · simp [takeFrames, hr, h]
    · obtain ⟨h1, h2, h3⟩ := (ih (chanPut m n q)).2 q (chanGet_put_same _ _ _)
      refine ⟨by simp [h], fun q' hq' => ?_⟩
      rw [h] at hq'
      cases hq'
      simp only [takeFrames, hr]
      refine ⟨by simp [h1], by simp [h2], fun n' hn => ?_⟩
      rw [h3 n' hn, chanGet_put_other _ _ (Ne.symm hn)]

/-- Everything the beginning of a monitoring call does (log 8). -/
theorem startDrain_spec (s : State) (d : Device) (n : ChanName) (k now : Nat) :
    ∃ m fs, startDrain s d n k now =
        ((s.withNode { s.node with chans := m }).beginDrain ⟨d, fs, now⟩).answer (.draining fs.length) ∧
      (chanGet s.node.chans n = none → m = s.node.chans ∧ fs = []) ∧
      (∀ q, chanGet s.node.chans n = some q → fs = q.take k ∧ chanGet m n = some (q.drop k) ∧
        ∀ n', n' ≠ n → chanGet m n' = chanGet s.node.chans n') := by
  refine ⟨(takeFrames k s.node.chans n).2, (takeFrames k s.node.chans n).1, rfl, fun h => ?_,
    (takeFrames_spec _ _ _).2⟩
  simp [(takeFrames_spec _ _ _).1 h]

/-! ## What decoding a frame leaves alone -/

/-- The decoding of a frame writes only `props`, `live` and `periodic` (R260). -/
theorem decodeFrame_frame (cfg : Config) (r : Epc) (fr : Frame) :
    (decodeFrame cfg r fr).devId = r.devId ∧ (decodeFrame cfg r fr).chan = r.chan ∧
    (decodeFrame cfg r fr).opened = r.opened := by
  unfold decodeFrame
  split <;> simp only [decodeMode, decodeLimit, decodePeriodic, decodeInfo, decodeStatus, decodeElec,
    decodeTemp] <;> (repeat' split) <;> simp

/-- The processing of a frame leaves the unit's channel, filter and `opened` (R300). -/
theorem processFrame_frame (b : Bms) (fr : Frame) (now : Nat) :
    (processFrame b fr now).chan = b.chan ∧ (processFrame b fr now).address = b.address ∧
    (processFrame b fr now).mask = b.mask ∧ (processFrame b fr now).opened = b.opened := by
  unfold processFrame
  split <;> simp [rxEmpty, rxMarker, rxSeqFault, rxFragment, rxLast, rxOdd, accReset]

/-- Everything a drain of an EPC instance does to the map and the record (R211). -/
theorem drained_spec (s : State) (r : Epc) :
    (chanGet s.node.chans r.chan = none → drained s r = (s.node.chans, r)) ∧
    (∀ q, chanGet s.node.chans r.chan = some q →
      (drained s r).2 = (q.take s.cfg.epcDrainMax).foldl (decodeFrame s.cfg) r ∧
      chanGet (drained s r).1 r.chan = some (q.drop s.cfg.epcDrainMax) ∧
      ∀ n, n ≠ r.chan → chanGet (drained s r).1 n = chanGet s.node.chans n) := by
  obtain ⟨hn, hq⟩ := takeFrames_spec s.cfg.epcDrainMax s.node.chans r.chan
  refine ⟨fun h => by simp [drained, hn h], fun q h => ?_⟩
  obtain ⟨h1, h2, h3⟩ := hq q h
  exact ⟨by simp [drained, h1], h2, h3⟩

/-- Everything the drain of `get_data` does to the map and the record (R309). -/
theorem bmsDrained_spec (s : State) (b : Bms) (now : Nat) :
    (chanGet s.node.chans b.chan = none → bmsDrained s b now = (s.node.chans, b)) ∧
    (∀ q, chanGet s.node.chans b.chan = some q →
      (bmsDrained s b now).2 = (q.take s.cfg.bmsDrainMax).foldl (fun x fr => processFrame x fr now) b ∧
      chanGet (bmsDrained s b now).1 b.chan = some (q.drop s.cfg.bmsDrainMax) ∧
      ∀ n, n ≠ b.chan → chanGet (bmsDrained s b now).1 n = chanGet s.node.chans n) := by
  obtain ⟨hn, hq⟩ := takeFrames_spec s.cfg.bmsDrainMax s.node.chans b.chan
  refine ⟨fun h => by simp [bmsDrained, hn h], fun q h => ?_⟩
  obtain ⟨h1, h2, h3⟩ := hq q h
  exact ⟨by simp [bmsDrained, h1], h2, h3⟩

/-! ## Calls that transmit -/

/-- Everything a call that checks, transmits and drains can do (R110, R210, R401). -/
theorem sendAndDrain_cases (s : State) (e : Nat) (r : Epc) (check : Option HostError)
    (frame : Except HostError Frame) :
    (∃ err, check = some err ∧ sendAndDrain s e r check frame = s.raise err) ∨
    (∃ err, check = none ∧ frame = .error err ∧ sendAndDrain s e r check frame = s.raise err) ∨
    (∃ fr, check = none ∧ frame = .ok fr ∧
      ((s.node.cmdqOpen = false ∧ sendAndDrain s e r check frame = s.raise .queueClosed) ∨
       (s.node.cmdqOpen = true ∧ s.node.cmdq.length = s.cfg.cmdDepth ∧
         sendAndDrain s e r check frame = s.raise .queueFull) ∨
       (s.node.cmdqOpen = true ∧ s.node.cmdq.length ≠ s.cfg.cmdDepth ∧
         sendAndDrain s e r check frame =
           (drainEpc (s.withNode { s.node with
             cmdq := s.node.cmdq ++ [(s.node.seq, .send fr)], seq := s.node.seq + 1 }) e r).answer
             .done))) := by
  cases check with
  | some err => exact .inl ⟨err, rfl, rfl⟩
  | none =>
    cases frame with
    | error err => exact .inr (.inl ⟨err, rfl, rfl, rfl⟩)
    | ok fr =>
      refine .inr (.inr ⟨fr, rfl, rfl, ?_⟩)
      unfold sendAndDrain transmit
      rcases submit_cases s.cfg s.node (.send fr) with ⟨ho, h⟩ | ⟨ho, hl, h⟩ | ⟨ho, hl, h⟩
      · exact .inl ⟨ho, by simp only [h]⟩
      · exact .inr (.inl ⟨ho, hl, by simp only [h]⟩)
      · exact .inr (.inr ⟨ho, hl, by simp only [h]⟩)

/-- The requests of a monitoring call touch the queue and the counter only (R223, R227). -/
theorem submitRequests_frame (cfg : Config) (dev : BitVec 6) (types : List Nat) (n : Node) :
    ∃ q k, submitRequests cfg dev types n = { n with cmdq := n.cmdq ++ q, seq := n.seq + k } := by
  induction types generalizing n with
  | nil => exact ⟨[], 0, by simp [submitRequests]⟩
  | cons t ts ih =>
    unfold submitRequests
    cases hf : encodeRequest dev t with
    | error err => exact ih n
    | ok fr =>
      simp only [transmit]
      rcases submit_cases cfg n (.send fr) with ⟨-, h⟩ | ⟨-, -, h⟩ | ⟨-, -, h⟩
      · rw [h]; exact ih n
      · rw [h]; exact ih n
      · rw [h]
        obtain ⟨q, k, hq⟩ := ih { n with cmdq := n.cmdq ++ [(n.seq, .send fr)], seq := n.seq + 1 }
        exact ⟨(n.seq, .send fr) :: q, 1 + k, by simp [hq, Nat.add_assoc]⟩

/-! ## Fetch -/

/-- Everything a fetch can do (log 1). -/
theorem fetch_cases (s : State) :
    (∃ m rest, s.agenda = m :: rest ∧ fetch s = (m, { s with agenda := rest })) ∨
    (s.agenda = [] ∧ fetch s = (Config.environment s.draws, { s with draws := s.draws + 1 })) := by
  unfold fetch
  cases h : s.agenda with
  | nil => exact .inr ⟨rfl, rfl⟩
  | cons m rest => exact .inl ⟨m, rest, rfl, rfl⟩

/-- Everything a step can do. -/
theorem step_next {s t : State} (h : step s = .next t) :
    ∃ i, decode (fetch s).1 = some i ∧ exec i (fetch s).2 = .next t := by
  unfold step at h
  split at h
  · exact ⟨_, by assumption, h⟩
  · cases h

end Sys2Proof.Machine
end

