-- ==== Sys2Proof/Laws/PerInstr.lean ====
section
/-! SUPPORT. A law of every operation, one lemma for each: the message of a well-formed operation fits the padded
message of the table words (`slotBytes`). -/

namespace Sys2Proof

@[simp] theorem length_putInt (x : Int) : (putInt x).length = 8 := by simp [putInt]

@[simp] theorem length_putBool (x : Bool) : (putBool x).length = 1 := by simp [putBool]

@[simp] theorem length_putLimitType (x : LimitType) : (putLimitType x).length = 1 := by
  cases x <;> simp [putLimitType]

@[simp] theorem length_putTurn (x : Turn) : (putTurn x).length = 8 := by cases x <;> simp [putTurn]

theorem length_putCall {α : Type} {put : α → List Byte} {n : Nat} (h : ∀ x, (put x).length = n)
    (c : MonitorCall α) : (putCall put c).length ≤ 1 + n := by cases c <;> simp [putCall, h]

@[simp] theorem length_putTx (x : TxAnswer) : (putTx x).length = 1 := by cases x <;> simp [putTx]

@[simp] theorem length_putFilter (x : FilterEntry) : (putFilter x).length = 12 := by simp [putFilter]

@[simp] theorem length_putProps (x : EpcProps) : (putProps x).length = 25 := by
  simp [putProps, putIdent, putPair]

theorem length_putEvent {ev : BusEvent} (h : ev.wf = true) : (putEvent ev).length = 11 := by
  have h0 : (⟨0, []⟩ : Frame).wf = true := rfl
  cases ev with
  | frame fr => simp [putEvent, length_putFrame (fr := fr) h]
  | none => simp only [putEvent, List.length_append, length_putFrame h0, length_toLE]
  | errorFrame => simp only [putEvent, List.length_append, length_putFrame h0, length_toLE]
  | invalid => simp only [putEvent, List.length_append, length_putFrame h0, length_toLE]

theorem length_epcMessage {type e : Nat} {dev : BitVec 7} {data : List Byte} (h : epcRowOk e data = true) :
    (epcMessage type e dev data).bytes.length = 14 := by
  simp only [epcRowOk, Bool.and_eq_true, decide_eq_true_eq] at h
  have hf : (⟨identifier dev.toNat type, data⟩ : Frame).wf = true := by simpa [Frame.wf] using h.2
  simp [epcMessage, length_putFrame hf]

theorem length_bmsMessage {row b : Nat} {fr : Frame} {after : List Byte} (h : fr.wf = true) :
    (bmsMessage row b fr after).bytes.length = 15 + after.length := by
  simp only [bmsMessage, List.length_append, length_putFrame h, length_toLE]
  omega

theorem wf_of_hasHeader {fr : Frame} (h : fr.hasHeader = true) : fr.wf = true := by
  simp only [Frame.hasHeader, Bool.and_eq_true] at h
  exact h.1

end Sys2Proof

namespace Sys2Proof.Laws.EncodedFits

open Sys2Proof

set_option Elab.async false

/-- The message of the operation fits a padded message. -/
def Statement (i : Instr) : Prop := i.wf = true → (encode i).bytes.length ≤ slotBytes

theorem filterMatch (id address mask : CanId) : Statement (.filterMatch id address mask) := by
  intro _; simp [encode, slotBytes]

theorem nodeSubmit (word : BitVec 96) : Statement (.nodeSubmit word) := by
  intro _; simp [encode, hostMessage, slotBytes]

theorem nodeStop : Statement .nodeStop := by
  intro _; simp [encode, hostMessage, slotBytes]

theorem chanRead (chan : ChanName) : Statement (.chanRead chan) := by
  intro _; simp [encode, hostMessage, slotBytes]

theorem epcSetCvMode (e : Nat) (ref : Int) (limitType : LimitType) (limitRef : Int) :
    Statement (.epcSetCvMode e ref limitType limitRef) := by
  intro _; simp [encode, modeMessage, hostMessage, slotBytes]

theorem epcSetCcMode (e : Nat) (ref : Int) (limitType : LimitType) (limitRef : Int) :
    Statement (.epcSetCcMode e ref limitType limitRef) := by
  intro _; simp [encode, modeMessage, hostMessage, slotBytes]

theorem epcSetCpMode (e : Nat) (ref : Int) (limitType : LimitType) (limitRef : Int) :
    Statement (.epcSetCpMode e ref limitType limitRef) := by
  intro _; simp [encode, modeMessage, hostMessage, slotBytes]

theorem epcSetWaitMode (e : Nat) (limitRef : Int) : Statement (.epcSetWaitMode e limitRef) := by
  intro _; simp [encode, hostMessage, slotBytes]

theorem epcDisable (e : Nat) : Statement (.epcDisable e) := by
  intro _; simp [encode, hostMessage, slotBytes]

theorem epcSetPeriodic (e : Nat) (ackEn ackPeriod electEn electPeriod tempEn tempPeriod : Int) :
    Statement (.epcSetPeriodic e ackEn ackPeriod electEn electPeriod tempEn tempPeriod) := by
  intro _; simp [encode, hostMessage, slotBytes]

theorem epcSetLsVoltLimit (e : Nat) (max min : Int) : Statement (.epcSetLsVoltLimit e max min) := by
  intro _; simp [encode, limitMessage, hostMessage, slotBytes]

theorem epcSetLsCurrLimit (e : Nat) (max min : Int) : Statement (.epcSetLsCurrLimit e max min) := by
  intro _; simp [encode, limitMessage, hostMessage, slotBytes]

theorem epcSetHsVoltLimit (e : Nat) (max min : Int) : Statement (.epcSetHsVoltLimit e max min) := by
  intro _; simp [encode, limitMessage, hostMessage, slotBytes]

theorem epcSetLsPwrLimit (e : Nat) (max min : Int) : Statement (.epcSetLsPwrLimit e max min) := by
  intro _; simp [encode, limitMessage, hostMessage, slotBytes]

theorem epcSetTempLimit (e : Nat) (max min : Int) : Statement (.epcSetTempLimit e max min) := by
  intro _; simp [encode, limitMessage, hostMessage, slotBytes]

theorem epcGetData (e : Nat) (call : MonitorCall Bool) : Statement (.epcGetData e call) := by
  have := length_putCall length_putBool call
  intro _; simp [encode, hostMessage, slotBytes]; omega

theorem epcGetProperties (e : Nat) (update : Bool) : Statement (.epcGetProperties e update) := by
  intro _; simp [encode, hostMessage, slotBytes]

theorem epcOpen (e : Nat) (turn : Turn) : Statement (.epcOpen e turn) := by
  intro _; simp [encode, hostMessage, slotBytes]

theorem epcClose (e : Nat) (turn : Turn) : Statement (.epcClose e turn) := by
  intro _; simp [encode, hostMessage, slotBytes]

theorem epcNew (devId : Nat) (chan : ChanName) (props : EpcProps) : Statement (.epcNew devId chan props) := by
  intro _; simp [encode, hostMessage, slotBytes]

theorem bmsNew (chan : ChanName) (address mask : CanId) (now : Nat) (turn : Turn) :
    Statement (.bmsNew chan address mask now turn) := by
  intro _; simp [encode, hostMessage, slotBytes]

theorem bmsGetData (b : Nat) (call : MonitorCall Nat) : Statement (.bmsGetData b call) := by
  have := length_putCall (length_toLE 8) call
  intro _; simp [encode, hostMessage, slotBytes]; omega

theorem bmsClose (b : Nat) (turn : Turn) : Statement (.bmsClose b turn) := by
  intro _; simp [encode, hostMessage, slotBytes]

theorem cmdSend (fr : Frame) (tx : TxAnswer) : Statement (.cmdSend fr tx) := by
  intro _; simp [encode, commandMessage, slotBytes]

theorem cmdAddFilter (fe : FilterEntry) : Statement (.cmdAddFilter fe) := by
  intro _; simp [encode, commandMessage, slotBytes]

theorem cmdRemoveFilter (fe : FilterEntry) : Statement (.cmdRemoveFilter fe) := by
  intro _; simp [encode, commandMessage, slotBytes]

theorem cmdReserved (rest : BitVec 94) : Statement (.cmdReserved rest) := by
  intro _; simp [encode, slotBytes]

theorem wrkStart : Statement .wrkStart := by
  intro _; simp [encode, workerMessage, slotBytes]

theorem wrkApply (tx : TxAnswer) : Statement (.wrkApply tx) := by
  intro _; simp [encode, workerMessage, slotBytes]

theorem wrkDrainEnd : Statement .wrkDrainEnd := by
  intro _; simp [encode, workerMessage, slotBytes]

theorem wrkPoll (ev : BusEvent) : Statement (.wrkPoll ev) := by
  intro h; simp [encode, workerMessage, length_putEvent (ev := ev) h, slotBytes]

theorem wrkDeliver : Statement .wrkDeliver := by
  intro _; simp [encode, workerMessage, slotBytes]

theorem wrkShutdown : Statement .wrkShutdown := by
  intro _; simp [encode, workerMessage, slotBytes]

theorem wrkFatal : Statement .wrkFatal := by
  intro _; simp [encode, workerMessage, slotBytes]

theorem rxData (fr : Frame) : Statement (.rxData fr) := by
  intro h; exact (length_putEvent (ev := .frame fr) h).le.trans (by decide)

theorem rxNone : Statement .rxNone := by
  intro _; exact (length_putEvent (ev := .none) rfl).le.trans (by decide)

theorem rxErrorFrame : Statement .rxErrorFrame := by
  intro _; exact (length_putEvent (ev := .errorFrame) rfl).le.trans (by decide)

theorem rxInvalid : Statement .rxInvalid := by
  intro _; exact (length_putEvent (ev := .invalid) rfl).le.trans (by decide)

theorem epcRxMode (e : Nat) (dev : BitVec 7) (data : List Byte) : Statement (.epcRxMode e dev data) := by
  intro h; exact (length_epcMessage h).le.trans (by decide)

theorem epcRxLsVoltLim (e : Nat) (dev : BitVec 7) (data : List Byte) : Statement (.epcRxLsVoltLim e dev data) := by
  intro h; exact (length_epcMessage h).le.trans (by decide)

theorem epcRxLsCurrLim (e : Nat) (dev : BitVec 7) (data : List Byte) : Statement (.epcRxLsCurrLim e dev data) := by
  intro h; exact (length_epcMessage h).le.trans (by decide)

theorem epcRxHsVoltLim (e : Nat) (dev : BitVec 7) (data : List Byte) : Statement (.epcRxHsVoltLim e dev data) := by
  intro h; exact (length_epcMessage h).le.trans (by decide)

theorem epcRxLsPwrLim (e : Nat) (dev : BitVec 7) (data : List Byte) : Statement (.epcRxLsPwrLim e dev data) := by
  intro h; exact (length_epcMessage h).le.trans (by decide)

theorem epcRxTempLim (e : Nat) (dev : BitVec 7) (data : List Byte) : Statement (.epcRxTempLim e dev data) := by
  intro h; exact (length_epcMessage h).le.trans (by decide)

theorem epcRxPeriodic (e : Nat) (dev : BitVec 7) (data : List Byte) : Statement (.epcRxPeriodic e dev data) := by
  intro h; exact (length_epcMessage h).le.trans (by decide)

theorem epcRxInfo (e : Nat) (dev : BitVec 7) (data : List Byte) : Statement (.epcRxInfo e dev data) := by
  intro h; exact (length_epcMessage h).le.trans (by decide)

theorem epcRxStatus (e : Nat) (dev : BitVec 7) (data : List Byte) : Statement (.epcRxStatus e dev data) := by
  intro h; exact (length_epcMessage h).le.trans (by decide)

theorem epcRxElecMeas (e : Nat) (dev : BitVec 7) (data : List Byte) : Statement (.epcRxElecMeas e dev data) := by
  intro h; exact (length_epcMessage h).le.trans (by decide)

theorem epcRxTempMeas (e : Nat) (dev : BitVec 7) (data : List Byte) : Statement (.epcRxTempMeas e dev data) := by
  intro h; exact (length_epcMessage h).le.trans (by decide)

theorem epcRxIgnored (e : Nat) (dev : BitVec 7) (data : List Byte) : Statement (.epcRxIgnored e dev data) := by
  intro h; exact (length_epcMessage h).le.trans (by decide)

theorem epcRxIgnored89 (e : Nat) (dev : BitVec 7) (low : BitVec 1) (data : List Byte) :
    Statement (.epcRxIgnored89 e dev low data) := by
  intro h; exact (length_epcMessage h).le.trans (by decide)

theorem epcRxIgnoredEF (e : Nat) (dev : BitVec 7) (low : BitVec 1) (data : List Byte) :
    Statement (.epcRxIgnoredEF e dev low data) := by
  intro h; exact (length_epcMessage h).le.trans (by decide)

theorem bmsRxEmpty (b : Nat) (id : CanId) : Statement (.bmsRxEmpty b id) := by
  intro _; exact (length_bmsMessage rfl).le.trans (by decide)

theorem bmsRxMarker (b : Nat) (id : CanId) (free errCode : Byte) : Statement (.bmsRxMarker b id free errCode) := by
  intro _; exact (length_bmsMessage rfl).le.trans (by decide)

theorem bmsRxSeqFault (b : Nat) (fr : Frame) : Statement (.bmsRxSeqFault b fr) := by
  intro h
  simp only [Instr.wf, Bool.and_eq_true] at h
  simp [encode, length_bmsMessage (wf_of_hasHeader h.2), slotBytes]

theorem bmsRxFragment (b : Nat) (fr : Frame) : Statement (.bmsRxFragment b fr) := by
  intro h
  simp only [Instr.wf, Bool.and_eq_true] at h
  simp [encode, length_bmsMessage (wf_of_hasHeader h.2), slotBytes]

theorem bmsRxLast (b : Nat) (fr : Frame) (now : Nat) : Statement (.bmsRxLast b fr now) := by
  intro h
  simp only [Instr.wf, Bool.and_eq_true] at h
  simp [encode, length_bmsMessage (wf_of_hasHeader h.1.2), slotBytes]

theorem bmsRxOdd (b : Nat) (fr : Frame) : Statement (.bmsRxOdd b fr) := by
  intro h
  simp only [Instr.wf, Bool.and_eq_true] at h
  simp [encode, length_bmsMessage (wf_of_hasHeader h.2), slotBytes]

end Sys2Proof.Laws.EncodedFits
end

