-- ==== Sys2Proof/Tests/Slice0.lean ====
section
/-! SUPPORT. The model's own tests: ill-formed terms that WellFormed refuses, words written out from the encodings
of the spec, single steps with the results that 95_test_vectors.md gives, and a witness for the hypotheses of every
statement. "V x" names a vector of 95_test_vectors.md. -/

namespace Sys2Proof.Tests

open Sys2Proof Sys2Proof.Machine

set_option Elab.async false

/-! ## Helpers -/

/-- The next state of a result, if it is one. -/
def after : Result → Option State
  | .next s => some s
  | _ => none

/-- The reason of a refusal, if it is one. -/
def stopped : Result → Option Refusal
  | .refused r => some r
  | _ => none

/-- A view of the state after an operation. -/
def seen {α : Type} (f : State → α) (i : Instr) (s : State) : Option α := (after (exec i s)).map f

/-- The commands queued and the answer after an operation. -/
def sent (i : Instr) (s : State) : Option (List (Nat × Command) × Option Reply) :=
  seen (fun t => (t.node.cmdq, t.reply)) i s

def withNode (f : Node → Node) : State := { State.reset with node := f Node.reset }

/-- The properties P0 of section 0. -/
def p0 : EpcProps where
  canId := 3
  fwVer := 0
  hwVer := 0x680
  sn := 0
  lsVoltMax := 5100
  lsVoltMin := 400
  lsCurrMax := 15500
  lsCurrMin := BitVec.ofInt 16 (-15500)
  lsPwrMax := 5000
  lsPwrMin := BitVec.ofInt 16 (-5000)
  hsVoltMax := 14500
  hsVoltMin := 5300
  tempMax := 700
  tempMin := BitVec.ofInt 16 (-200)

/-- `epc3` of section 0. -/
def epc3 : Epc := Epc.reset 3 3 p0

/-- A node with the filter of `epc3` installed and `frames` in its channel. -/
def sEpc (frames : List Frame) : State :=
  { withNode (fun n => { n with filters := [⟨0x030, 0x7F0, 3⟩], chans := [(3, frames)] }) with epcs := [epc3] }

/-- `get_data` in progress on `epc3`, with `frames` still to decode and one frame in the channel. -/
def sRow (frames : List Frame) : State := { sEpc [⟨0x036, [3]⟩] with drains := [⟨.epc 0, frames, 0⟩] }

/-- The unit of program P3, with its channel 9 holding `frames`. -/
def unit0 : Bms := Bms.reset 9 0x100 0x7F0 0

def sBms (b : Bms) (frames : List Frame) : State :=
  { withNode (fun n => { n with filters := [⟨0x100, 0x7F0, 9⟩], chans := [(9, frames)] }) with bmses := [b] }

/-- `get_data` at time 1000 in progress on the unit `b`, with `frames` still to process. -/
def sUnit (b : Bms) (frames : List Frame) : State := { sBms b [] with drains := [⟨.bms 0, frames, 1000⟩] }

/-- A node in DRAIN with `c` at the head of its queue and the table `fs`. -/
def sDrain (fs : List FilterEntry) (c : Command) : State :=
  withNode (fun n => { n with
    phase := .drain, seq := 6, cmdq := [(5, c)], filters := fs
    chans := (fs.map (fun f => (f.chan, ([] : List Frame)))) })

/-- A node in POLL with the table `{030,7F0,1}`, `CHAN_DEPTH` 2 and `frames` in channel 1. -/
def sPoll (policy : ChanFullPolicy) (frames : List Frame) : State :=
  { withNode (fun n => { n with phase := .poll, filters := [⟨0x030, 0x7F0, 1⟩], chans := [(1, frames)] }) with
    cfg := { Config.reference with chanDepth := 2, chanFullPolicy := policy } }

/-- `s` with command `seq` recorded as `out` and the call `kind` on instance 0 held for it. -/
def held (s : State) (kind : WaitKind) (seq : Nat) (out : List (Nat × CmdOutcome)) : State :=
  { s with waits := [⟨seq, kind, 0⟩], node := { s.node with results := out, seq := seq + 1 } }

/-- A full, open queue. -/
def full (s : State) : State :=
  { s with node := { s.node with seq := 8, cmdq := (List.range 8).map (fun q => (q, Command.send ⟨0x031, []⟩)) } }

/-- The halted node (R194). -/
def halt (s : State) : State := { s with node := { shutdown s.node with working := false } }

def f1 : Frame := ⟨0x035, [1]⟩
def f2 : Frame := ⟨0x036, [3]⟩

/-! ## WellFormed refuses an ill-formed term at each check -/

/-- Nine data bytes (R110). -/
def nine : List Byte := [1, 2, 3, 4, 5, 6, 7, 8, 9]

theorem test_wf_frame : (Instr.cmdSend ⟨0x030, nine⟩ .ok).wf = false ∧ (Instr.rxData ⟨0x030, nine⟩).wf = false ∧
    (Instr.wrkPoll (.frame ⟨0x030, nine⟩)).wf = false ∧ (Instr.epcRxMode 0 3 nine).wf = false ∧
    (Command.send ⟨0x030, nine⟩).wf = false := by decide

theorem test_wf_header : (Instr.bmsRxSeqFault 0 ⟨0x101, []⟩).wf = false ∧
    (Instr.bmsRxFragment 0 ⟨0x101, nine⟩).wf = false ∧ (Instr.bmsRxLast 0 ⟨0x101, []⟩ 0).wf = false ∧
    (Instr.bmsRxOdd 0 ⟨0x101, []⟩).wf = false := by decide

theorem test_wf_handle : (Instr.epcDisable (2 ^ 32)).wf = false ∧ (Instr.bmsRxEmpty (2 ^ 32) 0x101).wf = false := by
  decide

theorem test_wf_integer : (Instr.epcSetWaitMode 0 (2 ^ 63)).wf = false ∧
    (Instr.epcSetLsVoltLimit 0 0 (-2 ^ 63 - 1)).wf = false := by decide

theorem test_wf_natural : (Instr.bmsGetData 0 (.whole (2 ^ 64))).wf = false ∧
    (Instr.bmsGetData 0 (.start (2 ^ 64))).wf = false ∧ (Instr.epcNew (2 ^ 64) 3 p0).wf = false := by decide

theorem test_wf_turn : (Instr.epcOpen 0 (.resume (2 ^ 64 - 1))).wf = false := by decide

theorem test_wf_config : { Config.reference with nFilters := 0 }.wf = false ∧
    { Config.reference with cmdItemBytes := 11 }.wf = false ∧ Config.reference.wf = true := by decide

/-- Two modes with one code, a mode with a reserved code, two limit types with one code (R117, R118). -/
theorem test_wf_codes : { Config.reference with modeCode := ⟨0, 1, 2, 3, 4, 4⟩ }.wf = false ∧
    { Config.reference with modeCode := ⟨0, 1, 2, 3, 4, 6⟩ }.wf = false ∧
    { Config.reference with limitCode := ⟨0, 1, 2, 2⟩ }.wf = false := by decide

/-! ## Words written out from the encodings of the spec -/

/-- V C4, C5 (R111, R114). -/
theorem test_identifier : deviceId 0x03C = 0x03 ∧ messageType 0x03C = 0xC ∧ deviceId 0x7F5 = 0x7F ∧
    messageType 0x7F5 = 0x5 := by decide

/-- V C1, C2, C3 (R110); the error is code 10 of R400 with the identifier and the DLC. -/
theorem test_make_frame : (makeFrame 0x030 9 nine).toOption = none ∧ (makeFrame 0x800 1 [0]).toOption = none ∧
    (makeFrame 0x031 2 [0x0C]).toOption = none ∧ (makeFrame 0x031 1 [0x0C]).toOption = some ⟨0x031, [0x0C]⟩ := by decide

theorem test_make_frame_error : (match makeFrame 0x030 9 nine with
    | .error (.badFrame id dlc) => some (id, dlc, (HostError.badFrame id dlc).code.number)
    | _ => none) = some (0x030, 9, 10) := by decide

/-- V C14 (R130). -/
theorem test_bms_header : fragmentIndex 0x65 = 5 ∧ fragmentCount 0x65 = 6 := by decide

/-- V C6 to C11 (R140, R141); the SEND is followed by the bus's answer. -/
theorem test_decode_command_rows :
    decode ⟨.commandWord, [0xC4, 0x20, 0, 0, 0x0C, 0, 0, 0, 0, 0, 0, 0, 1]⟩ =
      some (.cmdSend ⟨0x031, [0x0C]⟩ .fail) ∧
    decode ⟨.commandWord, [0xC1, 0x00, 0xFE, 0x00, 0x01, 0, 0, 0, 0, 0, 0, 0]⟩ =
      some (.cmdAddFilter ⟨0x030, 0x7F0, 1⟩) ∧
    decode ⟨.commandWord, [0xC2, 0x00, 0xFE, 0x00, 0x01, 0, 0, 0, 0, 0, 0, 0]⟩ =
      some (.cmdRemoveFilter ⟨0x030, 0x7F0, 1⟩) ∧
    decode ⟨.commandWord, [0x03, 0, 0, 0, 0, 0, 0, 0, 0, 0, 0, 0]⟩ = some (.cmdReserved 0) ∧
    decode ⟨.commandWord, [0x01, 0, 0, 0x01, 0, 0, 0, 0, 0, 0, 0, 0]⟩ = none ∧
    decode ⟨.commandWord, [0x00, 0x20, 0x01, 0, 0, 0, 0, 0, 0, 0, 0, 0, 0]⟩ = none := by decide

/-- V C12 (R142): the frame word, then the event; bit 15 set is refused. -/
theorem test_decode_bus_rows :
    decode ⟨.busEvent, [0x30, 0x40, 0x01, 0, 0, 0, 0x10, 0x27, 0, 0, 0]⟩ =
      some (.rxData ⟨0x030, [0x01, 0, 0, 0, 0x10, 0x27, 0, 0]⟩) ∧
    decode ⟨.busEvent, [0, 0, 0, 0, 0, 0, 0, 0, 0, 0, 1]⟩ = some .rxNone ∧
    decode ⟨.busEvent, [0, 0, 0, 0, 0, 0, 0, 0, 0, 0, 2]⟩ = some .rxErrorFrame ∧
    decode ⟨.busEvent, [0, 0, 0, 0, 0, 0, 0, 0, 0, 0, 3]⟩ = some .rxInvalid ∧
    decode ⟨.busEvent, [0x30, 0xC0, 0x01, 0, 0, 0, 0x10, 0x27, 0, 0, 0]⟩ = none ∧
    decode ⟨.busEvent, [0x30, 0x08, 0x01, 0x01, 0, 0, 0, 0, 0, 0, 0]⟩ = none := by decide

theorem test_decode_internal_row :
    decode ⟨.internal, [0x3A, 0x00, 0x30, 0x00, 0xF0, 0x07]⟩ = some (.filterMatch 0x03A 0x030 0x7F0) := by decide

/-- The codes of R143; a code that is not in its table is refused. -/
theorem test_decode_node_rows :
    decode ⟨.hostOp, [0x00, 0xC4, 0x20, 0, 0, 0x0C, 0, 0, 0, 0, 0, 0, 0]⟩ =
      some (.nodeSubmit (commandWord (.send ⟨0x031, [0x0C]⟩))) ∧
    decode ⟨.hostOp, [0x01]⟩ = some .nodeStop ∧
    decode ⟨.hostOp, [0x02, 0x07, 0, 0, 0, 0, 0, 0, 0x80]⟩ = some (.chanRead 0x8000000000000007) ∧
    decode ⟨.hostOp, [0x03]⟩ = none ∧ decode ⟨.hostOp, [0x0F]⟩ = none ∧ decode ⟨.hostOp, [0x23]⟩ = none ∧
    decode ⟨.hostOp, []⟩ = none := by decide

/-- Instance 1, reference 5000, limit type, limit reference -1. -/
def modeArgs (lt : Byte) : List Byte :=
  [1, 0, 0, 0] ++ [0x88, 0x13, 0, 0, 0, 0, 0, 0] ++ [lt] ++ [0xFF, 0xFF, 0xFF, 0xFF, 0xFF, 0xFF, 0xFF, 0xFF]

theorem test_decode_mode_rows :
    decode ⟨.hostOp, 0x10 :: modeArgs 2⟩ = some (.epcSetCvMode 1 5000 .current (-1)) ∧
    decode ⟨.hostOp, 0x11 :: modeArgs 1⟩ = some (.epcSetCcMode 1 5000 .voltage (-1)) ∧
    decode ⟨.hostOp, 0x12 :: modeArgs 0⟩ = some (.epcSetCpMode 1 5000 .time (-1)) ∧
    decode ⟨.hostOp, 0x12 :: modeArgs 3⟩ = some (.epcSetCpMode 1 5000 .power (-1)) ∧
    decode ⟨.hostOp, 0x10 :: modeArgs 4⟩ = none := by decide

theorem test_decode_wait_disable_periodic_rows :
    decode ⟨.hostOp, [0x13, 1, 0, 0, 0, 0x10, 0x27, 0, 0, 0, 0, 0, 0]⟩ = some (.epcSetWaitMode 1 10000) ∧
    decode ⟨.hostOp, [0x14, 1, 0, 0, 0]⟩ = some (.epcDisable 1) ∧
    decode ⟨.hostOp, [0x15, 1, 0, 0, 0] ++ [1, 0, 0, 0, 0, 0, 0, 0] ++ [100, 0, 0, 0, 0, 0, 0, 0] ++
        [2, 0, 0, 0, 0, 0, 0, 0] ++ [0xF4, 1, 0, 0, 0, 0, 0, 0] ++ [3, 0, 0, 0, 0, 0, 0, 0] ++
        [0xE8, 3, 0, 0, 0, 0, 0, 0]⟩ = some (.epcSetPeriodic 1 1 100 2 500 3 1000) := by decide

/-- Instance 1, max 700, min -200. -/
def limitArgs : List Byte :=
  [1, 0, 0, 0] ++ [0xBC, 0x02, 0, 0, 0, 0, 0, 0] ++ [0x38, 0xFF, 0xFF, 0xFF, 0xFF, 0xFF, 0xFF, 0xFF]

theorem test_decode_limit_rows :
    decode ⟨.hostOp, 0x16 :: limitArgs⟩ = some (.epcSetLsVoltLimit 1 700 (-200)) ∧
    decode ⟨.hostOp, 0x17 :: limitArgs⟩ = some (.epcSetLsCurrLimit 1 700 (-200)) ∧
    decode ⟨.hostOp, 0x18 :: limitArgs⟩ = some (.epcSetHsVoltLimit 1 700 (-200)) ∧
    decode ⟨.hostOp, 0x19 :: limitArgs⟩ = some (.epcSetLsPwrLimit 1 700 (-200)) ∧
    decode ⟨.hostOp, 0x1A :: limitArgs⟩ = some (.epcSetTempLimit 1 700 (-200)) := by decide

theorem test_decode_monitor_lifecycle_rows :
    decode ⟨.hostOp, [0x1B, 1, 0, 0, 0, 0, 1]⟩ = some (.epcGetData 1 (.whole true)) ∧
    decode ⟨.hostOp, [0x1B, 1, 0, 0, 0, 1, 0]⟩ = some (.epcGetData 1 (.start false)) ∧
    decode ⟨.hostOp, [0x1B, 1, 0, 0, 0, 2]⟩ = some (.epcGetData 1 .finish) ∧
    decode ⟨.hostOp, [0x1B, 1, 0, 0, 0, 3, 0]⟩ = none ∧
    decode ⟨.hostOp, [0x1C, 1, 0, 0, 0, 0]⟩ = some (.epcGetProperties 1 false) ∧
    decode ⟨.hostOp, [0x1C, 1, 0, 0, 0, 2]⟩ = none ∧
    decode ⟨.hostOp, [0x1D, 1, 0, 0, 0, 0, 0, 0, 0, 0, 0, 0, 0]⟩ = some (.epcOpen 1 .issue) ∧
    decode ⟨.hostOp, [0x1E, 1, 0, 0, 0, 6, 0, 0, 0, 0, 0, 0, 0]⟩ = some (.epcClose 1 (.resume 5)) := by decide

theorem test_decode_new_row :
    decode ⟨.hostOp, [0x1F, 3, 0, 0, 0, 0, 0, 0, 0] ++ [3, 0, 0, 0, 0, 0, 0, 0] ++ [3, 0, 0x80, 0x06, 0] ++
        [0xEC, 0x13, 0x90, 0x01] ++ [0x8C, 0x3C, 0x74, 0xC3] ++ [0xA4, 0x38, 0xB4, 0x14] ++
        [0x88, 0x13, 0x78, 0xEC] ++ [0xBC, 0x02, 0x38, 0xFF]⟩ = some (.epcNew 3 3 p0) := by decide

theorem test_decode_bms_host_rows :
    decode ⟨.hostOp, [0x20, 0x00, 0x01, 0xF0, 0x07] ++ [9, 0, 0, 0, 0, 0, 0, 0] ++ [0x58, 0x02, 0, 0, 0, 0, 0, 0] ++
        [0, 0, 0, 0, 0, 0, 0, 0]⟩ = some (.bmsNew 9 0x100 0x7F0 600 .issue) ∧
    decode ⟨.hostOp, [0x21, 1, 0, 0, 0, 0, 0x58, 0x02, 0, 0, 0, 0, 0, 0]⟩ = some (.bmsGetData 1 (.whole 600)) ∧
    decode ⟨.hostOp, [0x21, 1, 0, 0, 0, 1, 0x58, 0x02, 0, 0, 0, 0, 0, 0]⟩ = some (.bmsGetData 1 (.start 600)) ∧
    decode ⟨.hostOp, [0x21, 1, 0, 0, 0, 2]⟩ = some (.bmsGetData 1 .finish) ∧
    decode ⟨.hostOp, [0x22, 1, 0, 0, 0, 1, 0, 0, 0, 0, 0, 0, 0]⟩ = some (.bmsClose 1 (.resume 0)) := by decide

theorem test_decode_worker_rows :
    decode ⟨.workerStep, [0]⟩ = some .wrkStart ∧ decode ⟨.workerStep, [1, 1]⟩ = some (.wrkApply .fail) ∧
    decode ⟨.workerStep, [2]⟩ = some .wrkDrainEnd ∧
    decode ⟨.workerStep, [3, 0x40, 0x08, 0xAA, 0, 0, 0, 0, 0, 0, 0, 0]⟩ =
      some (.wrkPoll (.frame ⟨0x040, [0xAA]⟩)) ∧
    decode ⟨.workerStep, [4]⟩ = some .wrkDeliver ∧ decode ⟨.workerStep, [5]⟩ = some .wrkShutdown ∧
    decode ⟨.workerStep, [6]⟩ = some .wrkFatal ∧ decode ⟨.workerStep, [7]⟩ = none := by decide

/-- Identifier `lo`, `hi` with DLC 2, the data [0x21, 0x01], instance 1 (R142, R114). -/
def epcWord (type : Byte) : Message := ⟨.canId, [0x30 + type, 0x10, 0x21, 0x01, 0, 0, 0, 0, 0, 0] ++ [1, 0, 0, 0]⟩

theorem test_decode_epc_rows_low :
    decode (epcWord 0x0) = some (.epcRxMode 1 3 [0x21, 1]) ∧ decode (epcWord 0x1) = some (.epcRxIgnored 1 3 [0x21, 1]) ∧
    decode (epcWord 0x2) = some (.epcRxLsVoltLim 1 3 [0x21, 1]) ∧
    decode (epcWord 0x3) = some (.epcRxLsCurrLim 1 3 [0x21, 1]) ∧
    decode (epcWord 0x4) = some (.epcRxHsVoltLim 1 3 [0x21, 1]) ∧
    decode (epcWord 0x5) = some (.epcRxLsPwrLim 1 3 [0x21, 1]) ∧
    decode (epcWord 0x6) = some (.epcRxTempLim 1 3 [0x21, 1]) ∧
    decode (epcWord 0x7) = some (.epcRxPeriodic 1 3 [0x21, 1]) := by decide

theorem test_decode_epc_rows_high :
    decode (epcWord 0x8) = some (.epcRxIgnored89 1 3 0 [0x21, 1]) ∧
    decode (epcWord 0x9) = some (.epcRxIgnored89 1 3 1 [0x21, 1]) ∧
    decode (epcWord 0xA) = some (.epcRxInfo 1 3 [0x21, 1]) ∧ decode (epcWord 0xB) = some (.epcRxStatus 1 3 [0x21, 1]) ∧
    decode (epcWord 0xC) = some (.epcRxElecMeas 1 3 [0x21, 1]) ∧
    decode (epcWord 0xD) = some (.epcRxTempMeas 1 3 [0x21, 1]) ∧
    decode (epcWord 0xE) = some (.epcRxIgnoredEF 1 3 0 [0x21, 1]) ∧
    decode (epcWord 0xF) = some (.epcRxIgnoredEF 1 3 1 [0x21, 1]) := by decide

/-- Identifier 0x101 with DLC 3 and the header `h`, instance 0, the row. -/
def bmsWord (h row : Byte) : Message := ⟨.bmsFrame, [0x01, 0x19, h, 0xAA, 0xBB, 0, 0, 0, 0, 0] ++ [0, 0, 0, 0] ++ [row]⟩

theorem test_decode_bms_rows :
    decode ⟨.bmsFrame, [0x01, 0x01, 0, 0, 0, 0, 0, 0, 0, 0] ++ [0, 0, 0, 0] ++ [0]⟩ = some (.bmsRxEmpty 0 0x101) ∧
    decode ⟨.bmsFrame, [0x01, 0x41, 0x10, 0x45, 0x52, 0x52, 0x4F, 0x52, 0, 9] ++ [0, 0, 0, 0] ++ [1]⟩ =
      some (.bmsRxMarker 0 0x101 0 9) ∧
    decode (bmsWord 0x21 2) = some (.bmsRxSeqFault 0 ⟨0x101, [0x21, 0xAA, 0xBB]⟩) ∧
    decode (bmsWord 0x20 3) = some (.bmsRxFragment 0 ⟨0x101, [0x20, 0xAA, 0xBB]⟩) ∧
    decode ⟨.bmsFrame, (bmsWord 0x10 4).bytes ++ [0x58, 0x02, 0, 0, 0, 0, 0, 0]⟩ =
      some (.bmsRxLast 0 ⟨0x101, [0x10, 0xAA, 0xBB]⟩ 600) ∧
    decode (bmsWord 0x10 4) = none ∧
    decode (bmsWord 0x10 5) = some (.bmsRxOdd 0 ⟨0x101, [0x10, 0xAA, 0xBB]⟩) ∧
    decode (bmsWord 0x10 6) = none ∧ decode (bmsWord 0x10 0) = none ∧ decode (bmsWord 0x10 1) = none := by decide

/-- R143, R114: bare words of opcode_table.json, and a step of one of them after reset. -/
theorem test_table_words : decodeTableWord 8 0x01 = some .nodeStop ∧
    decodeTableWord 8 0x10 = some (.epcSetCvMode 0 0 .time 0) ∧ decodeTableWord 8 0x22 = some (.bmsClose 0 .issue) ∧
    decodeTableWord 8 0x0C = some (.epcRxElecMeas 0 0 []) ∧ decodeTableWord 16 0x035 = some (.rxData ⟨0x035, []⟩) ∧
    decodeTableWord 96 (commandWord (.addFilter ⟨0x030, 0x7F0, 1⟩)).toNat =
      some (.cmdAddFilter ⟨0x030, 0x7F0, 1⟩) := by decide

theorem test_fetch_word :
    (after (step (State.reset.withFetchWord 8 0x01))).map (fun s => (s.node.working, s.reply)) =
      some (false, some .stopping) ∧
    (after (step (State.reset.withFetchWord 16 0x035))).map (fun s => s.node.phase) = some .start ∧
    (after (step (State.reset.withFetchWord 8 0x14))).map (fun s => s.node.cmdq) =
      some [(0, .send ⟨0x000, [0, 0, 0, 0, 0, 0, 0, 0]⟩)] ∧
    (after (step (State.reset.withFetchWord 8 0x0C))).map (fun s => (s.drains, s.epcs.map Epc.live)) =
      some ([⟨.epc 0, [], 0⟩], [EpcLive.reset]) ∧
    stopped (step { State.reset with agenda := [⟨.hostOp, [0x03]⟩] }) = some .unknownOperation := by decide

/-! ## Single steps: the filter matcher and the node -/

/-- V F1, F2, F6 (R160). -/
theorem test_filter_match : seen State.reply (.filterMatch 0x030 0x030 0x7F0) .reset = some (some (.matched true)) ∧
    seen State.reply (.filterMatch 0x040 0x030 0x7F0) .reset = some (some (.matched false)) ∧
    seen State.reply (.filterMatch 0x03A 0x035 0x7F0) .reset = some (some (.matched true)) := by decide

/-- V F8 (R161). -/
theorem test_first_match : firstMatch [⟨0, 0, 10⟩, ⟨0x030, 0x7F0, 11⟩] 0x031 = some ⟨0, 0, 10⟩ := by decide

/-- V C6, Z1 (R180). -/
theorem test_submit : sent (.nodeSubmit 0x0000000000000001_00FE00C1) .reset =
    some ([(0, .addFilter ⟨0x030, 0x7F0, 1⟩)], some (.accepted 0)) := by decide

/-- V Q2, Q3, X1 (R180, R405): closed before malformed before full. -/
theorem test_submit_errors :
    seen State.reply (.nodeSubmit 3) (full .reset) = some (some (.raised (.frameError 3))) ∧
    seen State.reply (.nodeSubmit 0) (full .reset) = some (some (.raised .queueFull)) ∧
    seen State.reply (.nodeSubmit 3) (halt .reset) = some (some (.raised .queueClosed)) := by decide

/-- V W9, P4 line 3 (R192). -/
theorem test_stop : seen (fun t => (t.node.working, t.reply)) .nodeStop .reset = some (false, some .stopping) ∧
    seen State.reply .nodeStop (halt .reset) = some (some .done) := by decide

/-- V Q4 (R182). -/
theorem test_read : seen (fun t => (t.node.chans, t.reply)) (.chanRead 1) (sPoll .dropNewest [f1, f2]) =
    some ([(1, [f2])], some (.frame f1)) := by decide

/-- V Q4, Q5 (R182). -/
theorem test_read_empty_and_closed :
    seen State.reply (.chanRead 1) (sPoll .dropNewest []) = some (some .empty) ∧
    seen State.reply (.chanRead 7) (sPoll .dropNewest []) = some (some .closed) := by decide

/-! ## Single steps: the worker -/

/-- V N1, N3, N5, N7, X2 (R172): the outcome on the tables those vectors leave. -/
def table : List FilterEntry := [⟨0x030, 0x7F0, 1⟩, ⟨0x035, 0x7F0, 2⟩, ⟨0x100, 0x7F0, 3⟩, ⟨0x200, 0x7F0, 4⟩]

def outcomes (i : Instr) (s : State) : Option (List (Nat × CmdOutcome) × List FilterEntry) :=
  seen (fun t => (t.node.results, t.node.filters)) i s

theorem test_add_filter :
    outcomes (.cmdAddFilter ⟨0x030, 0x7F0, 1⟩) (sDrain [] (.addFilter ⟨0x030, 0x7F0, 1⟩)) =
      some ([(5, .ok)], [⟨0x030, 0x7F0, 1⟩]) ∧
    seen (fun t => (t.node.chans, t.node.cmdq)) (.cmdAddFilter ⟨0x030, 0x7F0, 1⟩)
      (sDrain [] (.addFilter ⟨0x030, 0x7F0, 1⟩)) = some ([(1, [])], []) := by decide

theorem test_add_filter_errors :
    outcomes (.wrkApply .ok) (sDrain table (.addFilter ⟨0x030, 0x7F0, 1⟩)) = some ([(5, .noop)], table) ∧
    outcomes (.wrkApply .ok) (sDrain table (.addFilter ⟨0x030, 0x7F0, 2⟩)) =
      some ([(5, .configConflict ⟨0x030, 0x7F0, 2⟩)], table) ∧
    outcomes (.wrkApply .ok) (sDrain table (.addFilter ⟨0x040, 0x7F0, 1⟩)) =
      some ([(5, .configConflict ⟨0x040, 0x7F0, 1⟩)], table) ∧
    outcomes (.wrkApply .ok) (sDrain table (.addFilter ⟨0x300, 0x7F0, 5⟩)) =
      some ([(5, .capacityError ⟨0x300, 0x7F0, 5⟩)], table) := by decide

/-- V N10 (R175): the order of the rest is kept, the channel goes. -/
theorem test_remove_filter :
    seen (fun t => (t.node.results, t.node.filters, t.node.chans)) (.cmdRemoveFilter ⟨0x030, 0x7F0, 1⟩)
      (sDrain table (.removeFilter ⟨0x030, 0x7F0, 1⟩)) =
      some ([(5, .ok)], table.drop 1, [(2, []), (3, []), (4, [])]) := by decide

/-- V N8, N9 (R175). -/
theorem test_remove_filter_errors :
    outcomes (.wrkApply .ok) (sDrain table (.removeFilter ⟨0x030, 0x7F0, 2⟩)) =
      some ([(5, .configConflict ⟨0x030, 0x7F0, 2⟩)], table) ∧
    outcomes (.wrkApply .ok) (sDrain table (.removeFilter ⟨0x050, 0x7F0, 1⟩)) = some ([(5, .noop)], table) := by decide

/-- V N11 (R173). -/
theorem test_send : outcomes (.cmdSend f1 .ok) (sDrain [] (.send f1)) = some ([(5, .ok)], []) ∧
    outcomes (.wrkApply .fail) (sDrain [] (.send f1)) = some ([(5, .busError f1)], []) := by decide

/-- V C11 (R141). -/
theorem test_reserved : seen State.reply (.cmdReserved 0) .reset = some (some (.raised (.frameError 3))) := by decide

/-- V W1, W7 (R189, R194). -/
theorem test_start : seen (fun t => t.node.phase) .wrkStart .reset = some .drain := by decide

def sStopping : State := withNode (fun n => { n with
  working := false, filters := table.take 2, chans := [(1, [f1]), (2, [])], seq := 6, cmdq := [(5, .send f1)] })

theorem test_shutdown_flags :
    seen (fun t => (t.node.halted, t.node.busHeld, t.node.cmdqOpen)) .wrkStart sStopping = some (true, false, false) := by
  decide

theorem test_shutdown_contents :
    seen (fun t => (t.node.filters, t.node.chans)) .wrkShutdown sStopping = some ([], []) ∧
    seen (fun t => (t.node.cmdq, t.node.results)) .wrkShutdown sStopping = some ([], []) := by decide

/-- V W2 (R190). -/
theorem test_drain_end : seen (fun t => t.node.phase) .wrkDrainEnd (withNode (fun n => { n with phase := .drain })) =
    some .poll ∧ stopped (exec .wrkDrainEnd (sDrain [] (.send f1))) = some .notSelected := by decide

/-- V P1 line 9, W4, W5 (R171, R191). -/
theorem test_poll :
    seen (fun t => (t.node.chans, t.node.phase)) (.rxData f1) (sPoll .dropNewest []) = some ([(1, [f1])], .start) ∧
    seen (fun t => (t.node.chans, t.node.phase)) (.rxData ⟨0x040, [2]⟩) (sPoll .dropNewest []) =
      some ([(1, [])], .start) ∧
    seen (fun t => (t.node.chans, t.node.held)) (.wrkPoll (.frame ⟨0x031, []⟩)) (sPoll .dropNewest [f1, f2]) =
      some ([(1, [f1, f2])], none) := by decide

/-- V W6 (R171, R188). -/
theorem test_poll_block :
    seen (fun t => (t.node.chans, t.node.held)) (.wrkPoll (.frame ⟨0x031, []⟩)) (sPoll .block [f1, f2]) =
      some ([(1, [f1, f2])], some (⟨0x031, []⟩, 1)) := by decide

theorem test_deliver :
    let s := sPoll .block [f2]
    let s := { s with node := { s.node with phase := .start, held := some (⟨0x031, []⟩, 1) } }
    seen (fun t => (t.node.chans, t.node.held)) .wrkDeliver s = some ([(1, [f2, ⟨0x031, []⟩])], none) := by decide

/-- V W3 (R191). -/
theorem test_poll_nothing :
    (∀ i ∈ [Instr.rxNone, .rxErrorFrame, .rxInvalid, .wrkPoll .errorFrame],
      seen (fun t => (t.node.chans, t.node.phase)) i (sPoll .dropNewest [f1]) = some ([(1, [f1])], .start)) := by decide

/-- V W8 (R193). -/
theorem test_fatal : seen (fun t => (t.node.working, t.node.held, t.node.phase, t.node.fatal)) .wrkFatal
    (sPoll .block []) = some (false, none, .start, true) := by decide

/-! ## Single steps: the EPC control surface -/

/-- V E1, E7, E17, E12, E13, E14 (R212, R228, D20). -/
theorem test_cv_mode :
    sent (.epcSetCvMode 0 5000 .current 2000) (sEpc []) =
      some ([(0, .send ⟨0x030, [0x25, 0x00, 0x88, 0x13, 0xD0, 0x07, 0x00, 0x00]⟩)], some .done) ∧
    sent (.epcSetCvMode 0 400 .power (-5000)) (sEpc []) =
      some ([(0, .send ⟨0x030, [0x35, 0x00, 0x90, 0x01, 0x78, 0xEC, 0xFF, 0xFF]⟩)], some .done) ∧
    seen State.reply (.epcSetCvMode 0 35000 .time 0)
      { sEpc [] with epcs := [{ epc3 with props := { p0 with lsVoltMax := 40000 } }] } =
      some (some (.raised (.rangeError 35000))) := by decide

theorem test_cv_mode_errors :
    sent (.epcSetCvMode 0 6000 .voltage 0) (sEpc []) = some ([], some (.raised (.invalidLimitError .voltage))) ∧
    sent (.epcSetCvMode 0 5101 .current 0) (sEpc []) = some ([], some (.raised (.rangeError 5101))) ∧
    sent (.epcSetCvMode 0 5000 .current 15501) (sEpc []) = some ([], some (.raised (.rangeError 15501))) := by decide

/-- V E2, E11 (R213, R228). -/
theorem test_cc_mode :
    sent (.epcSetCcMode 0 (-1000) .voltage 3000) (sEpc []) =
      some ([(0, .send ⟨0x030, [0x13, 0x00, 0x18, 0xFC, 0xB8, 0x0B, 0x00, 0x00]⟩)], some .done) ∧
    sent (.epcSetCcMode 0 0 .current 0) (sEpc []) = some ([], some (.raised (.invalidLimitError .current))) := by decide

/-- V E3, E15 (R214, R228). -/
theorem test_cp_mode :
    sent (.epcSetCpMode 0 (-2500) .time 60000) (sEpc []) =
      some ([(0, .send ⟨0x030, [0x07, 0x00, 0x3C, 0xF6, 0x60, 0xEA, 0x00, 0x00]⟩)], some .done) ∧
    sent (.epcSetCpMode 0 0 .time (-1)) (sEpc []) = some ([], some (.raised (.rangeError (-1)))) := by decide

/-- V E4, E18 (R215). -/
theorem test_wait_mode :
    sent (.epcSetWaitMode 0 10000) (sEpc []) =
      some ([(0, .send ⟨0x030, [0x01, 0x00, 0x00, 0x00, 0x10, 0x27, 0x00, 0x00]⟩)], some .done) ∧
    sent (.epcSetWaitMode 0 2147483648) (sEpc []) = some ([], some (.raised (.rangeError 2147483648))) := by decide

/-- V E5, E33 (R216, R210). -/
theorem test_disable :
    sent (.epcDisable 0) (sEpc []) = some ([(0, .send ⟨0x030, [0, 0, 0, 0, 0, 0, 0, 0]⟩)], some .done) ∧
    seen State.reply (.epcDisable 0) (full (sEpc [])) = some (some (.raised .queueFull)) ∧
    seen State.reply (.epcDisable 0) (halt (sEpc [])) = some (some (.raised .queueClosed)) := by decide

/-- V E19, E20, E21 (R217). -/
theorem test_periodic :
    sent (.epcSetPeriodic 0 1 100 1 500 0 1000) (sEpc []) =
      some ([(0, .send ⟨0x037, [0xC9, 0x00, 0xE9, 0x03, 0xD0, 0x07]⟩)], some .done) ∧
    sent (.epcSetPeriodic 0 1 32767 0 0 1 1) (sEpc []) =
      some ([(0, .send ⟨0x037, [0xFF, 0xFF, 0x00, 0x00, 0x03, 0x00]⟩)], some .done) := by decide

theorem test_periodic_errors :
    sent (.epcSetPeriodic 0 2 0 0 0 0 0) (sEpc []) = some ([], some (.raised (.rangeError 2))) ∧
    sent (.epcSetPeriodic 0 1 32768 0 0 0 0) (sEpc []) = some ([], some (.raised (.rangeError 32768))) := by decide

/-- V E22 to E26 (R218 to R222). -/
theorem test_limits :
    (sent (.epcSetLsVoltLimit 0 5100 400) (sEpc [])).map Prod.fst = some [(0, .send ⟨0x032, [0xEC, 0x13, 0x90, 0x01]⟩)] ∧
    (sent (.epcSetLsCurrLimit 0 15500 (-15500)) (sEpc [])).map Prod.fst =
      some [(0, .send ⟨0x033, [0x8C, 0x3C, 0x74, 0xC3]⟩)] ∧
    (sent (.epcSetHsVoltLimit 0 14500 5300) (sEpc [])).map Prod.fst =
      some [(0, .send ⟨0x034, [0xA4, 0x38, 0xB4, 0x14]⟩)] := by decide

theorem test_limits_signed :
    (sent (.epcSetLsPwrLimit 0 5000 (-5000)) (sEpc [])).map Prod.fst =
      some [(0, .send ⟨0x035, [0x88, 0x13, 0x78, 0xEC]⟩)] ∧
    (sent (.epcSetTempLimit 0 700 (-200)) (sEpc [])).map Prod.fst =
      some [(0, .send ⟨0x036, [0xBC, 0x02, 0x38, 0xFF]⟩)] := by decide

/-- V E27, E28 (R231). -/
theorem test_limit_order : sent (.epcSetLsVoltLimit 0 6001 0) (sEpc []) = some ([], some (.raised (.rangeError 6001))) ∧
    sent (.epcSetLsVoltLimit 0 100 200) (sEpc []) = some ([(0, .send ⟨0x032, [0x64, 0x00, 0xC8, 0x00]⟩)], some .done) := by
  decide

/-- V E29, E30 (R223); V P2 line 10 (R211): the frames are decoded in order and leave the channel. -/
theorem test_get_data :
    (seen (fun t => t.node.cmdq.map Prod.snd) (.epcGetData 0 (.whole true)) (sEpc [])) =
      some [.send ⟨0x031, [0x00]⟩, .send ⟨0x031, [0x0B]⟩, .send ⟨0x031, [0x0C]⟩, .send ⟨0x031, [0x0D]⟩] ∧
    seen (fun t => (t.node.cmdq.length, t.reply)) (.epcGetData 0 (.whole true)) (full (sEpc [])) =
      some (8, some (.live EpcLive.reset)) ∧
    seen (fun t => (t.node.chans, t.epcs.map (fun r => (r.live.lsPwr.toInt, r.live.statusCode.toNat))))
      (.epcGetData 0 (.whole false))
      (sEpc [⟨0x03C, [0x74, 0x0E, 0x30, 0xF8, 0xE0, 0x2E]⟩, ⟨0x03B, [0x21, 0x01]⟩, ⟨0x031, [0x0C]⟩]) =
      some ([(3, [])], [(-74, 4)]) := by decide

/-- R223, R211 in two transitions (log 8): the frames leave the channel at the start; the answer comes once they are
decoded. -/
theorem test_get_data_stages :
    seen (fun t => (t.node.chans, t.drains, t.reply)) (.epcGetData 0 (.start false)) (sEpc [f1, f2]) =
    some ([(3, [])], [⟨.epc 0, [f1, f2], 0⟩], some (.draining 2)) ∧
    seen (fun t => (t.drains, t.reply)) (.epcGetData 0 .finish) (sRow [f1]) =
      some ([⟨.epc 0, [f1], 0⟩], some (.draining 1)) ∧
    seen (fun t => (t.drains, t.reply)) (.epcGetData 0 .finish) (sRow []) = some ([], some (.live EpcLive.reset)) ∧
    stopped (exec (.epcGetData 0 .finish) (sEpc [])) = some .noSuchCall := by decide

/-- V E31 (R227). -/
theorem test_get_properties :
    seen (fun t => (t.node.cmdq.map Prod.snd, t.reply)) (.epcGetProperties 0 true) (sEpc []) =
      some ([.send ⟨0x031, [0x0A]⟩, .send ⟨0x031, [0x02]⟩, .send ⟨0x031, [0x03]⟩, .send ⟨0x031, [0x04]⟩,
        .send ⟨0x031, [0x05]⟩, .send ⟨0x031, [0x06]⟩], some (.props p0)) := by decide

/-- V P2 lines 1, 3, 13, 15 (R224, R225). -/
theorem test_open :
    sent (.epcOpen 0 .issue) (sEpc []) = some ([(0, .addFilter ⟨0x030, 0x7F0, 3⟩)], some (.waiting 0)) ∧
    seen (fun t => (t.epcs.map Epc.opened, t.waits, t.reply)) (.epcOpen 0 (.resume 0))
      (held (sEpc []) .epcOpen 0 [(0, .ok)]) = some ([true], [], some .done) := by decide

theorem test_close :
    sent (.epcClose 0 .issue) (sEpc []) = some ([(0, .removeFilter ⟨0x030, 0x7F0, 3⟩)], some (.waiting 0)) ∧
    seen (fun t => (t.epcs.map Epc.opened, t.waits, t.reply)) (.epcClose 0 (.resume 2))
      { held (sEpc []) .epcClose 2 [(2, .ok)] with epcs := [{ epc3 with opened := true }] } =
      some ([false], [], some .done) := by decide

/-- V E32, Z2 (R226, R452). -/
theorem test_epc_new :
    seen (fun t => (t.epcs, t.reply)) (.epcNew 3 3 p0) .reset = some ([epc3], some (.handle 0)) ∧
    seen (fun t => (t.epcs, t.reply)) (.epcNew 64 3 p0) .reset = some ([], some (.raised (.rangeError 64))) ∧
    seen (fun t => (t.epcs, t.reply)) (.epcNew 3 3 { p0 with lsVoltMax := 7000 }) .reset =
      some ([], some (.raised (.rangeError 7000))) := by decide

/-! ## Single steps: the EPC decoder -/

/-- What `epc3` holds after the row of message type `type` has taken its frame from the call in progress, and what that
call has still to decode. -/
def rowOf {α : Type} (f : Epc → α) (row : List Byte → Instr) (type : CanId) (data : List Byte) : Option (List α × List Drain) :=
  seen (fun t => (t.epcs.map f, t.drains)) (row data) (sRow [⟨0x030 + type, data⟩, f1])

/-- The live data of `epc3` after a row that has taken its frame alone. -/
def live (row : List Byte → Instr) (type : CanId) (data : List Byte) : Option EpcLive :=
  match rowOf Epc.live row type data with
  | some ([l], x) => if x = [⟨.epc 0, [f1], 0⟩] then some l else none
  | _ => none

/-- The properties of `epc3` after a row. -/
def props (row : List Byte → Instr) (type : CanId) (data : List Byte) : Option EpcProps :=
  match rowOf Epc.props row type data with
  | some ([l], x) => if x = [⟨.epc 0, [f1], 0⟩] then some l else none
  | _ => none

/-- V D1, D3, D5 (R261). -/
theorem test_rx_mode :
    live (.epcRxMode 0 3) 0x0 [0x25, 0xFC, 0x88, 0x13, 0xD0, 0x07, 0x00, 0x00] =
      some { EpcLive.reset with outputEnable := 1, mode := .cv, limitMode := .current, ref := 5000, limitRef := 2000 } ∧
    live (.epcRxMode 0 3) 0x0 [0x0D, 0, 0, 0, 0, 0, 0, 0] = some EpcLive.reset := by decide

/-- V D6, D8 (R262, R274). -/
theorem test_rx_ls_volt : props (.epcRxLsVoltLim 0 3) 0x2 [0x64, 0x00, 0xC8, 0x00] =
      some { p0 with lsVoltMax := 100, lsVoltMin := 200 } ∧
    props (.epcRxLsVoltLim 0 3) 0x2 [0x71, 0x17, 0x00, 0x00] = some p0 := by decide

/-- V D7 (R263) with max and min exchanged, then the frames of E24 to E26 likewise (R264 to R266). -/
theorem test_rx_limits :
    props (.epcRxLsCurrLim 0 3) 0x3 [0x74, 0xC3, 0x8C, 0x3C] = some { p0 with lsCurrMax := 0xC374, lsCurrMin := 15500 } ∧
    props (.epcRxHsVoltLim 0 3) 0x4 [0xB4, 0x14, 0xA4, 0x38] = some { p0 with hsVoltMax := 5300, hsVoltMin := 14500 } ∧
    props (.epcRxLsPwrLim 0 3) 0x5 [0x78, 0xEC, 0x88, 0x13] = some { p0 with lsPwrMax := 0xEC78, lsPwrMin := 5000 } ∧
    props (.epcRxTempLim 0 3) 0x6 [0x38, 0xFF, 0xBC, 0x02] = some { p0 with tempMax := 0xFF38, tempMin := 700 } := by decide

/-- V D9 (R267). -/
theorem test_rx_periodic : rowOf Epc.periodic (.epcRxPeriodic 0 3) 0x7 [0xC9, 0x00, 0xE9, 0x03, 0xD0, 0x07] =
    some ([⟨1, 100, 1, 500, 0, 1000⟩], [⟨.epc 0, [f1], 0⟩]) := by decide

/-- V D10 (R268). -/
theorem test_rx_info : props (.epcRxInfo 0 3) 0xA [0x43, 0x01, 0x34, 0x2A] =
    some { p0 with canId := 3, fwVer := 5, hwVer := 0x680, sn := 42 } := by decide

/-- V D11, D13, D14 (R269). -/
theorem test_rx_status :
    live (.epcRxStatus 0 3) 0xB [0x21, 0x01] =
      some { EpcLive.reset with statusFlags := 0b100001, statusKind := .internalError, statusCode := 4 } ∧
    live (.epcRxStatus 0 3) 0xB [0xC8, 0xFF] =
      some { EpcLive.reset with statusFlags := 0b001000, statusKind := .commError, statusCode := 1023 } ∧
    live (.epcRxStatus 0 3) 0xB [0x40, 0x00] = some EpcLive.reset := by decide

/-- V D15 (R270). -/
theorem test_rx_elec : live (.epcRxElecMeas 0 3) 0xC [0x74, 0x0E, 0x30, 0xF8, 0xE0, 0x2E] =
    some { EpcLive.reset with
      lsVolt := 3700, lsCurr := BitVec.ofInt 16 (-2000), hsVolt := 12000, lsPwr := BitVec.ofInt 16 (-74) } := by decide

/-- V D16, D17, D18 (R270, R275). -/
theorem test_power_rounding : powerDiv .trunc (-1001 * 3333) = -33 ∧ powerDiv .floor (-1001 * 3333) = -34 ∧
    powerDiv .trunc (-32768 * 65535) = -21474 ∧ powerDiv .floor (-32768 * 65535) = -21475 ∧
    powerDiv .trunc (-1) = 0 ∧ powerDiv .floor (-1) = -1 := by decide

/-- V D19, D20, D21 (R271). -/
theorem test_rx_temp :
    live (.epcRxTempMeas 0 3) 0xD [0xFD, 0x00, 0xCE, 0xFF, 0xDD, 0x00] =
      some { EpcLive.reset with tempBody := 253, tempAnode := BitVec.ofInt 16 (-50), tempAmb := 221 } ∧
    live (.epcRxTempMeas 0 3) 0xD [0xFD, 0x00, 0xCE] = some { EpcLive.reset with tempBody := 253 } ∧
    (decodeTemp { epc3 with props := { p0 with hwVer := 0x200 } } ⟨0x03D, [0xFD, 0x00, 0xCE, 0xFF, 0xDD, 0x00]⟩).live =
      { EpcLive.reset with tempBody := 253 } := by decide

/-- V D4, D22 (R272, R273): the frame is taken, nothing else changes. -/
theorem test_rx_ignored :
    (∀ p ∈ [((0x31 : CanId), ([0x0C] : List Byte), Instr.epcRxIgnored 0 3 [0x0C]),
        (0x38, [1], .epcRxIgnored89 0 3 0 [1]), (0x39, [1], .epcRxIgnored89 0 3 1 [1]),
        (0x3E, [1], .epcRxIgnoredEF 0 3 0 [1]), (0x3F, [1], .epcRxIgnoredEF 0 3 1 [1]),
        (0x30, [0x25, 0x00, 0x88, 0x13], .epcRxMode 0 3 [0x25, 0x00, 0x88, 0x13])],
      after (exec p.2.2 (sRow [⟨p.1, p.2.1⟩, f1])) = some (sRow [f1])) := by decide

/-- R100, R211: a row whose frame is not the next one of the call in progress has no step, nor a row with its frame in
the channel and no call in progress. -/
theorem test_rx_other_frame : stopped (exec (.epcRxInfo 0 3 [0x43, 0x01, 0x34, 0x2A]) (sRow [f1])) = some .notSelected ∧
    stopped (exec (.epcRxInfo 0 3 [0x43, 0x01, 0x34, 0x2A]) (sEpc [⟨0x03A, [0x43, 0x01, 0x34, 0x2A]⟩])) =
      some .notSelected := by decide

/-- R117, R118, D14, D15: under other code tables the same call sends, and the same frame means, other numbers. -/
def sCodes (frames : List Frame) : State :=
  { sEpc [] with
    drains := if frames = [] then [] else [⟨.epc 0, frames, 0⟩]
    cfg := { Config.reference with modeCode := ⟨1, 2, 3, 4, 5, 0⟩, limitCode := ⟨3, 2, 1, 0⟩ } }

theorem test_other_codes :
    sent (.epcSetCvMode 0 5000 .current 2000) (sCodes []) =
      some ([(0, .send ⟨0x030, [0x17, 0x00, 0x88, 0x13, 0xD0, 0x07, 0x00, 0x00]⟩)], some .done) ∧
    seen (fun t => t.epcs.map (fun r => (r.live.mode, r.live.limitMode)))
      (.epcRxMode 0 3 [0x17, 0x00, 0x88, 0x13, 0xD0, 0x07, 0x00, 0x00])
      (sCodes [⟨0x030, [0x17, 0x00, 0x88, 0x13, 0xD0, 0x07, 0x00, 0x00]⟩]) = some [(.cv, .current)] := by decide

/-- R469, 93_implementation_defined.md row 25: a call on an instance whose `open` is held, or on which `get_data` is in
progress, is refused; one on another instance runs. -/
theorem test_overlapping_call :
    stopped (exec (.epcDisable 0) (held (sEpc []) .epcOpen 5 [])) = some .overlappingCall ∧
    stopped (exec (.bmsGetData 0 (.whole 0)) (held (sBms unit0 []) .bmsNew 5 [])) = some .overlappingCall ∧
    stopped (exec (.epcOpen 0 .issue) (sRow [])) = some .overlappingCall ∧
    stopped (exec (.bmsGetData 0 (.start 0)) (sUnit unit0 [])) = some .overlappingCall ∧
    seen State.reply (.epcDisable 1) { held (sEpc []) .epcOpen 5 [] with epcs := [epc3, epc3] } = some (some .done) := by
  decide

/-! ## Single steps: the BMS -/

/-- The unit after the row has taken its frame from the call in progress. -/
def unit (row : Frame → Instr) (fr : Frame) (b : Bms) : Option (List Bms × List Drain) :=
  seen (fun t => (t.bmses, t.drains)) (row fr) (sUnit b [fr])

/-- One unit, with nothing left to process. -/
def alone (b : Bms) : Option (List Bms × List Drain) := some ([b], [⟨.bms 0, [], 1000⟩])

/-- V B9, B8, X4 (R307, R301). -/
theorem test_bms_empty_and_marker :
    unit (fun _ => .bmsRxEmpty 0 0x101) ⟨0x101, []⟩ unit0 = alone unit0 ∧
    unit (fun _ => .bmsRxMarker 0 0x101 0 9) ⟨0x101, [0x10, 0x45, 0x52, 0x52, 0x4F, 0x52, 0, 9]⟩
      { unit0 with nextIdx := 3, buf := [1, 2] } =
      alone { unit0 with nextIdx := 3, buf := [1, 2], status := .commError, cause := .marker, errCode := 9 } := by
  decide

/-- V B2, B11 (R302). -/
theorem test_bms_sequence :
    unit (.bmsRxSeqFault 0) ⟨0x101, [0x21, 0xAA, 0xBB]⟩ unit0 =
      alone { unit0 with status := .commError, cause := .sequence } ∧
    unit (.bmsRxSeqFault 0) ⟨0x101, [0x10, 1, 2]⟩ { unit0 with nextIdx := 1, buf := [0xAA, 0xBB] } =
      alone { unit0 with status := .commError, cause := .sequence } := by decide

/-- V B10 (R303, D41). -/
theorem test_bms_fragment :
    unit (.bmsRxFragment 0) ⟨0x101, [0x00, 1, 2]⟩ unit0 = alone { unit0 with nextIdx := 1, buf := [1, 2] } ∧
    unit (.bmsRxFragment 0) ⟨0x101, [0x01, 3, 4]⟩ { unit0 with nextIdx := 1, buf := [1, 2] } =
      alone { unit0 with nextIdx := 2, buf := [1, 2, 3, 4] } := by decide

/-- V B1 (R303, R306). -/
theorem test_bms_last :
    unit (fun fr => .bmsRxLast 0 fr 1000) ⟨0x101, [0x10, 0xE8, 0x03, 0xD0, 0x07, 0xB8, 0x0B]⟩ unit0 =
      alone { unit0 with snap := [some 1000, some 2000, some 3000] ++ List.replicate 16 none, lastTs := 1000 } := by
  decide

/-- V B6 (R304); V B7 is odd, no marker; a frame of another row, of no call in progress or of another time has no
step. -/
theorem test_bms_odd :
    unit (.bmsRxOdd 0) ⟨0x101, [0x10, 1, 2, 3]⟩ unit0 = alone { unit0 with status := .commError, cause := .oddLength } ∧
    selectRow unit0 ⟨0x101, [0x10, 1, 2, 3, 4, 5, 6, 7]⟩ = .odd ∧
    stopped (exec (.bmsRxLast 0 ⟨0x101, [0x10, 1, 2, 3]⟩ 5) (sUnit unit0 [⟨0x101, [0x10, 1, 2, 3]⟩])) = some .notSelected ∧
    stopped (exec (.bmsRxOdd 0 ⟨0x101, [0x10, 1, 2, 3]⟩) (sBms unit0 [⟨0x101, [0x10, 1, 2, 3]⟩])) = some .notSelected ∧
    stopped (exec (.bmsRxLast 0 ⟨0x101, [0x10, 1, 2]⟩ 999) (sUnit unit0 [⟨0x101, [0x10, 1, 2]⟩])) = some .notSelected := by
  decide

/-- V P3 lines 1, 2, Z3 (R308, R453). -/
theorem test_bms_new :
    sent (.bmsNew 9 0x100 0x7F0 0 .issue) .reset = some ([(0, .addFilter ⟨0x100, 0x7F0, 9⟩)], some (.waiting 0)) ∧
    seen (fun t => (t.bmses, t.waits, t.reply)) (.bmsNew 9 0x100 0x7F0 0 (.resume 0))
      (held (sBms unit0 []) .bmsNew 0 [(0, .ok)]) = some ([{ unit0 with opened := true }], [], some (.handle 0)) := by
  decide

/-- V T1, T2 (R310); V T4 (R309): the drain comes before the check. -/
theorem test_bms_get_data :
    seen State.bmses (.bmsGetData 0 (.whole 31000)) (sBms { unit0 with lastTs := 1000 } []) =
      some [{ unit0 with lastTs := 1000 }] ∧
    seen State.bmses (.bmsGetData 0 (.whole 31001)) (sBms { unit0 with lastTs := 1000, nextIdx := 2, buf := [1] } []) =
      some [{ unit0 with lastTs := 1000, status := .commError, cause := .timeout }] ∧
    seen (fun t => (t.node.chans, t.bmses.map (fun b => (b.status, b.cause, b.lastTs)))) (.bmsGetData 0 (.whole 41000))
      (sBms { unit0 with lastTs := 1000, status := .commError, cause := .timeout }
        [⟨0x101, [0x10, 0xE8, 0x03, 0xD0, 0x07, 0xB8, 0x0B]⟩]) = some ([(9, [])], [(.ok, .none, 41000)]) := by decide

/-- R309, R310 in two transitions (log 8): the timeout is checked at the return, with the time of the start. -/
theorem test_bms_get_data_stages :
    seen (fun t => (t.node.chans, t.drains, t.reply)) (.bmsGetData 0 (.start 1000)) (sBms unit0 [f1]) =
      some ([(9, [])], [⟨.bms 0, [f1], 1000⟩], some (.draining 1)) ∧
    seen (fun t => t.drains.map Drain.frames) (.bmsGetData 0 (.start 1000)) (sBms unit0 (List.replicate 40 f1)) =
      some [List.replicate Config.reference.bmsDrainMax f1] ∧
    seen (fun t => (t.bmses, t.drains)) (.bmsGetData 0 .finish)
      { sUnit { unit0 with nextIdx := 2, buf := [1] } [] with cfg := { Config.reference with bmsTimeoutMs := 999 } } =
      some ([{ unit0 with status := .commError, cause := .timeout }], []) ∧
    seen (fun t => (t.drains, t.reply)) (.bmsGetData 0 .finish) (sUnit unit0 [f1]) =
      some ([⟨.bms 0, [f1], 1000⟩], some (.draining 1)) ∧
    stopped (exec (.bmsGetData 0 .finish) (sBms unit0 [])) = some .noSuchCall := by decide

/-- R311: at a halt without an outcome the unit is closed all the same. -/
theorem test_bms_close :
    sent (.bmsClose 0 .issue) (sBms unit0 []) = some ([(0, .removeFilter ⟨0x100, 0x7F0, 9⟩)], some (.waiting 0)) ∧
    seen (fun t => (t.bmses, t.reply)) (.bmsClose 0 (.resume 0))
      (halt (held (sBms { unit0 with opened := true } []) .bmsClose 0 [])) = some ([unit0], some .done) := by decide

/-! ## Witnesses: concrete states and operands that meet the hypotheses of the statements

One theorem for each statement with hypotheses, named after it; where a statement has several clauses, the
hypotheses of each, at the ends of its ranges. -/

/-- A node at the start, in DRAIN or in POLL. -/
def sAt (p : Phase) (working : Bool) : State := withNode (fun n => { n with phase := p, working := working })

theorem witness_submit_queues_every_command :
    (Command.send ⟨0x7FF, [1, 2, 3, 4, 5, 6, 7, 8]⟩).wf = true ∧ Accepting .reset := by decide

theorem witness_submit_outcomes_in_order :
    (halt .reset).node.cmdqOpen = false ∧ State.reset.node.cmdqOpen = true ∧ Accepting .reset ∧
    (full .reset).node.cmdqOpen = true ∧ (full .reset).node.cmdq.length = (full .reset).cfg.cmdDepth := by decide

/-- Tag 3; a SEND with a bit in its zero field, with DLC 9, with a byte above its DLC; a filter word with a bit in
its zero field. -/
theorem witness_malformed_words : MalformedWord 3 ∧ MalformedWord 0x20000 ∧ MalformedWord 0x12000 ∧
    MalformedWord 0x100000000 ∧ MalformedWord 0x1000001 :=
  ⟨.inl (by decide), .inr (.inl ⟨by decide, .inl (by decide)⟩), .inr (.inl ⟨by decide, .inr (.inl (by decide))⟩),
    .inr (.inl ⟨by decide, .inr (.inr ⟨0, by decide⟩)⟩), .inr (.inr (by decide))⟩

theorem witness_proper_word : ¬MalformedWord 0 := by
  simp [MalformedWord]

theorem witness_reserved_command_word_is_refused :
    State.reset.node.cmdqOpen = true ∧ (halt .reset).node.cmdqOpen = false := by decide

theorem witness_stop_clears_working : ∃ t, exec .nodeStop .reset = .next t := ⟨_, rfl⟩

theorem witness_channel_read_takes_oldest :
    chanGet (sPoll .block []).node.chans 7 = none ∧ chanGet (sPoll .block []).node.chans 1 = some [] ∧
    chanGet (sPoll .block [f1, f2]).node.chans 1 = some [f1, f2] := by decide

theorem witness_start_drains_or_shuts_down :
    (WorkerAt (sAt .start true) .start ∧ (sAt .start true).node.working = true) ∧
    (WorkerAt sStopping .start ∧ sStopping.node.working = false) := by decide

theorem witness_apply_send : WorkerAt (sDrain [] (.send f1)) .drain ∧
    (sDrain [] (.send f1)).node.cmdq = (5, .send f1) :: [] := by decide

/-- The table of V N5 and N6, full, and a new entry for each clause; the last one on a table with room. -/
theorem witness_apply_add_filter :
    (∀ fe ∈ [(⟨0x030, 0x7F0, 1⟩ : FilterEntry), ⟨0x030, 0x7F0, 2⟩, ⟨0x040, 0x7F0, 1⟩, ⟨0x300, 0x7F0, 5⟩],
      WorkerAt (sDrain table (.addFilter fe)) .drain ∧
      TableOk (sDrain table (.addFilter fe)).cfg (sDrain table (.addFilter fe)).node) ∧
    (∃ g ∈ table, SameKey g ⟨0x030, 0x7F0, 1⟩ ∧ g.chan = 1) ∧ (∃ g ∈ table, SameKey g ⟨0x030, 0x7F0, 2⟩ ∧ g.chan ≠ 2) ∧
    ((∀ g ∈ table, ¬SameKey g ⟨0x040, 0x7F0, 1⟩) ∧ ∃ g ∈ table, g.chan = 1) ∧
    ((∀ g ∈ table, ¬SameKey g ⟨0x300, 0x7F0, 5⟩ ∧ g.chan ≠ 5) ∧ table.length = Config.reference.nFilters) ∧
    (∀ g ∈ table.take 3, ¬SameKey g ⟨0x300, 0x7F0, 5⟩ ∧ g.chan ≠ 5) ∧ (table.take 3).length ≠ 4 := by
  unfold SameKey; decide

theorem witness_apply_remove_filter :
    WorkerAt (sDrain table (.removeFilter ⟨0x035, 0x7F0, 2⟩)) .drain ∧
    TableOk Config.reference (sDrain table (.removeFilter ⟨0x035, 0x7F0, 2⟩)).node ∧
    table = [⟨0x030, 0x7F0, 1⟩] ++ ⟨0x035, 0x7F0, 2⟩ :: [⟨0x100, 0x7F0, 3⟩, ⟨0x200, 0x7F0, 4⟩] ∧
    (∀ g ∈ table, ¬SameKey g ⟨0x050, 0x7F0, 1⟩) ∧ (∃ g ∈ table, SameKey g ⟨0x030, 0x7F0, 2⟩ ∧ g.chan ≠ 2) := by
  unfold SameKey; decide

theorem witness_drain_ends_only_on_empty_queue :
    (WorkerAt (sAt .drain true) .drain ∧ (sAt .drain true).node.cmdq = []) ∧
    (sDrain [] (.send f1)).node.cmdq ≠ [] := by decide

/-- `CHAN_DEPTH` 2: no match; a match with one frame; a match with two frames under each policy. -/
theorem witness_polled_frame_goes_to_first_match :
    (WorkerAt (sPoll .dropNewest [f1]) .poll ∧ WorkerAt (sPoll .block [f1, f2]) .poll) ∧
    (∀ g ∈ (sPoll .dropNewest [f1]).node.filters, ¬MatchesFilter 0x040 g) ∧
    ((sPoll .dropNewest [f1]).node.filters = [] ++ ⟨0x030, 0x7F0, 1⟩ :: [] ∧ MatchesFilter 0x03F ⟨0x030, 0x7F0, 1⟩ ∧
      chanGet (sPoll .dropNewest [f1]).node.chans 1 = some [f1]) ∧
    [f1].length < (sPoll .dropNewest [f1]).cfg.chanDepth ∧ ¬[f1, f2].length < (sPoll .dropNewest [f1]).cfg.chanDepth ∧
    (sPoll .dropNewest []).cfg.chanFullPolicy = .dropNewest ∧ (sPoll .block []).cfg.chanFullPolicy = .block := by
  unfold MatchesFilter; decide

theorem witness_poll_without_frame : WorkerAt (sPoll .dropNewest [f1]) .poll := by decide

/-- A node that holds a frame for channel 1. -/
def sHeld (frames : List Frame) : State :=
  { sPoll .block frames with node := { (sPoll .block frames).node with phase := .start, held := some (f1, 1) } }

/-- No frame held; a frame held with room; a frame held for a full channel. -/
theorem witness_worker_steps : State.reset.node.halted = false ∧ State.reset.node.held = none ∧
    ((sHeld [f2]).node.halted = false ∧ (sHeld [f2]).node.held = some (f1, 1) ∧ ∃ t, exec .wrkDeliver (sHeld [f2]) = .next t) ∧
    (sHeld [f1, f2]).node.halted = false ∧ stopped (exec .wrkDeliver (sHeld [f1, f2])) = some .notSelected :=
  ⟨by decide, by decide, ⟨by decide, by decide, _, rfl⟩, by decide, by decide⟩

theorem witness_deliver_moves_held_frame :
    (sHeld [f2]).node.halted = false ∧ (sHeld [f2]).node.held = some (f1, 1) ∧
    chanGet (sHeld [f2]).node.chans 1 = some [f2] ∧ [f2].length < (sHeld [f2]).cfg.chanDepth ∧
    chanGet (sHeld [f1, f2]).node.chans 1 = some [f1, f2] ∧ ¬[f1, f2].length < (sHeld [f1, f2]).cfg.chanDepth := by
  decide

theorem witness_fatal_leads_to_shutdown : State.reset.node.halted = false := by decide

theorem witness_halted_node_only_refuses : (halt .reset).node.halted = true ∧ HaltOk (halt .reset).node := by decide

/-- `epc3` is constructed, no call on it is held, the queue takes a command, the code tables are the decided ones and
well formed. -/
abbrev EpcReady (s : State) : Prop :=
  EpcIdle s 0 epc3 ∧ Accepting s ∧ epc3.props = p0 ∧ CodesOk s.cfg ∧ CodesDecided s.cfg

/-- The unit of P3 is constructed, no call on it is held, the queue takes a command. -/
abbrev BmsReady (b : Bms) : Prop := BmsIdle (sBms b []) 0 b ∧ Accepting (sBms b [])

/-- For the statements on an EPC whose only hypotheses are these: the wait and disable calls and the first turns of
`open` and `close`. -/
theorem witness_epc_ready : EpcReady (sEpc [f1]) := by decide

/-- `get_data` is in progress on `epc3` and has to decode a frame of message type `type` for device 0x03 and one frame
after it; the code tables are well formed. -/
abbrev RowReady (type : BitVec 4) (data : List Byte) : Prop :=
  EpcDraining (sRow [⟨3#7 ++ type, data⟩, f1]) 0 epc3 ⟨3#7 ++ type, data⟩ [f1] ∧ CodesOk (sRow []).cfg

/-- For the rows whose only hypothesis this is: every message type, the empty frame and the longest. -/
theorem witness_epc_rows : ∀ data ∈ [([] : List Byte), [0, 0, 0, 0, 0, 0, 0, 0]],
    ∀ row ∈ epcRows 0 3 0 data ++ epcRows 0 3 1 data, RowReady row.1 data := by decide

/-- Both ends of each bound of P0, and the ends of the time limit. -/
theorem witness_mode_calls_submit_their_frame : EpcReady (sEpc []) ∧
    (∀ ref ∈ [(400 : Int), 5100], FitsS16 ref ∧ LimitRefOk p0 .voltage ref) ∧
    (∀ ref ∈ [(-15500 : Int), 15500], FitsS16 ref ∧ LimitRefOk p0 .current ref) ∧
    (∀ ref ∈ [(-5000 : Int), 5000], FitsS16 ref ∧ LimitRefOk p0 .power ref) ∧
    (∀ lr ∈ [(0 : Int), 2147483647], LimitRefOk p0 .time lr) := by
  unfold FitsS16 LimitRefOk; decide

/-- One past each end. -/
theorem witness_mode_call_errors_in_order : EpcReady (sEpc []) ∧
    (∀ ref ∈ [(399 : Int), 5101], ¬(LimitRefOk p0 .voltage ref ∧ FitsS16 ref)) ∧
    (∀ lr ∈ [(-15501 : Int), 15501], ¬LimitRefOk p0 .current lr) ∧
    (∀ lr ∈ [(-1 : Int), 2147483648], ¬LimitRefOk p0 .time lr) ∧ LimitRefOk p0 .voltage 5000 ∧ FitsS16 5000 := by
  unfold FitsS16 LimitRefOk; decide

theorem witness_set_periodic_submits_its_frame : EpcReady (sEpc []) ∧
    (∀ x ∈ [(0 : Int), 1, 1], x = 0 ∨ x = 1) ∧ (∀ p ∈ [(0 : Int), 32767, 1], 0 ≤ p ∧ p ≤ 32767) := by decide

/-- The ends of `HW_BOUNDS` of each quantity fit its field. -/
theorem witness_limit_calls_submit_their_frame : EpcReady (sEpc []) ∧
    ∀ c ∈ [(Quantity.lsVolt, (6000 : Int), (0 : Int)), (.lsCurr, 20000, -20000), (.hsVolt, 20000, 0),
        (.lsPwr, 10000, -10000), (.temp, 1000, -500)],
      ∀ v ∈ [c.2.1, c.2.2], ((sEpc []).cfg.hwBounds.of c.1).min ≤ v ∧ v ≤ ((sEpc []).cfg.hwBounds.of c.1).max ∧
        (if c.1 = .lsVolt ∨ c.1 = .hsVolt then 0 ≤ v ∧ v ≤ 65535 else FitsS16 v) := by
  unfold FitsS16; decide

theorem witness_configuration_calls_raise_range_error : EpcReady (sEpc []) ∧
    (∀ lr ∈ [(-1 : Int), 2147483648], ¬(0 ≤ lr ∧ lr ≤ 2147483647)) ∧
    (([0, 2, 3] : List Int) = [0] ++ 2 :: [3] ∧ (∀ x ∈ [(0 : Int)], x = 0 ∨ x = 1) ∧ ¬((2 : Int) = 0 ∨ (2 : Int) = 1)) ∧
    (([32767, 0, 32768] : List Int) = [32767, 0] ++ 32768 :: [] ∧ (∀ p ∈ [(32767 : Int), 0], 0 ≤ p ∧ p ≤ 32767) ∧
      ¬((0 : Int) ≤ 32768 ∧ (32768 : Int) ≤ 32767)) ∧
    (∀ v ∈ [(-1 : Int), 6001], ¬(((sEpc []).cfg.hwBounds.of .lsVolt).min ≤ v ∧
      v ≤ ((sEpc []).cfg.hwBounds.of .lsVolt).max)) := by decide

theorem witness_calls_raise_submit_errors :
    (halt (sEpc [])).node.cmdqOpen = false ∧ (full (sEpc [])).node.cmdqOpen = true ∧
    (full (sEpc [])).node.cmdq.length = (full (sEpc [])).cfg.cmdDepth ∧
    EpcIdle (full (sEpc [])) 0 epc3 ∧ EpcIdle (halt (sEpc [])) 0 epc3 ∧
    modeCheck p0 .voltage 5000 .current 2000 = none ∧ modeCheck p0 .current 0 .time 0 = none ∧
    modeCheck p0 .power 0 .time 0 = none ∧ waitCheck 0 = none ∧ periodicCheck 1 1 0 0 0 0 = none ∧
    (∀ q ∈ quantities, limitCheck Config.reference.hwBounds q 1 0 = none) ∧ BmsIdle (full (sBms unit0 [])) 0 unit0 := by
  decide

theorem witness_epc_drain_decodes_oldest_frames :
    ({ State.reset with epcs := [epc3] }.epcs[0]? = some epc3 ∧ chanGet State.reset.node.chans epc3.chan = none) ∧
    (sEpc [f1, f2]).epcs[0]? = some epc3 ∧ chanGet (sEpc [f1, f2]).node.chans epc3.chan = some [f1, f2] ∧
    drainOf (sRow [f1]) (.epc 0) = some ⟨.epc 0, [f1], 0⟩ := by decide

theorem witness_monitoring_calls_always_answer :
    (∀ s ∈ [sEpc [], full (sEpc []), halt (sEpc [])], EpcIdle s 0 epc3) ∧
    (halt (sEpc [])).node.cmdqOpen = false ∧ (sEpc []).node.cmdqOpen = true ∧
    (full (sEpc [])).node.cmdq.length ≤ (full (sEpc [])).cfg.cmdDepth ∧
    chanGet (sEpc [f1]).node.chans epc3.chan = some [f1] ∧
    ((sRow [f1]).epcs[0]? = some epc3 ∧ drainOf (sRow [f1]) (.epc 0) = some ⟨.epc 0, [f1], 0⟩) ∧
    drainOf (sRow []) (.epc 0) = some ⟨.epc 0, [], 0⟩ := by decide

/-- A call in two transitions with one frame to decode, from its start to its return. -/
theorem witness_staged_get_data : ∃ t u v, exec (.epcGetData 0 (.start false)) (sEpc [⟨0x031, []⟩]) = .next t ∧
    Relation.ReflTransGen (EpcRowStep 0) t u ∧ exec (.epcGetData 0 .finish) u = .next v ∧ drainOf v (.epc 0) = none :=
  ⟨_, _, _, rfl, .single ⟨3, 0, [], (1, .epcRxIgnored 0 3 []), by simp [epcRows], rfl⟩, rfl, by decide⟩

/-- A held call of each kind, with the outcomes and views of the clauses. -/
theorem witness_held_calls : (held (sEpc []) .epcOpen 5 [(5, .ok)]).epcs[0]? = some epc3 ∧
    (held (sBms unit0 []) .bmsNew 5 [(5, .noop)]).bmses[0]? = some unit0 ∧
    (∀ k ∈ [WaitKind.epcOpen, .epcClose, .bmsNew, .bmsClose],
      (⟨5, k, 0⟩ : Wait) ∈ (held (sEpc []) k 5 []).waits ∧ ((held (sEpc []) k 5 []).waits.map Wait.seq).Nodup) ∧
    (held (sEpc []) .epcOpen 5 [(5, .ok)]).node.results.lookup 5 = some .ok ∧
    (held (sEpc []) .epcOpen 5 [(5, .configConflict ⟨0, 0, 0⟩)]).node.results.lookup 5 =
      some (.configConflict ⟨0, 0, 0⟩) ∧
    (held (sEpc []) .epcOpen 5 []).node.results.lookup 5 = none ∧
    (held (sEpc []) .epcOpen 5 []).node.halted = false ∧ (halt (held (sEpc []) .epcOpen 5 [])).node.halted = true := by
  decide

/-- The limits of R226 of properties, in its order. -/
def limitsOf (p : EpcProps) : List (Quantity × Int) :=
  [(.lsVolt, (p.lsVoltMax.toNat : Int)), (.lsVolt, (p.lsVoltMin.toNat : Int)),
    (.lsCurr, p.lsCurrMax.toInt), (.lsCurr, p.lsCurrMin.toInt), (.lsPwr, p.lsPwrMax.toInt), (.lsPwr, p.lsPwrMin.toInt),
    (.hsVolt, (p.hsVoltMax.toNat : Int)), (.hsVolt, (p.hsVoltMin.toNat : Int)),
    (.temp, p.tempMax.toInt), (.temp, p.tempMin.toInt)]

/-- All ten limits of P0 in bounds; the first of P0 with 6001 out of bounds; the last one, and LS_PWR before HS_VOLT. -/
theorem witness_epc_new :
    (∀ x ∈ limitsOf p0, (Config.reference.hwBounds.of x.1).min ≤ x.2 ∧ x.2 ≤ (Config.reference.hwBounds.of x.1).max) ∧
    (∀ x ∈ [((limitsOf { p0 with lsVoltMax := 6001 }).getD 0 (.temp, 0)),
        (limitsOf { p0 with tempMin := BitVec.ofInt 16 (-501) }).getD 9 (.temp, 0)],
      ¬((Config.reference.hwBounds.of x.1).min ≤ x.2 ∧ x.2 ≤ (Config.reference.hwBounds.of x.1).max)) ∧
    seen State.reply (.epcNew 3 3 { p0 with lsPwrMin := BitVec.ofInt 16 (-10001), hsVoltMax := 20001 }) .reset =
      some (some (.raised (.rangeError (-10001)))) := by decide

/-- The first and the last code that is a mode, and both that are not; the limit types at both ends. -/
theorem witness_mode_frame_updates_live_data :
    (∀ b ∈ [(0x01 : Byte), 0x0B, 0x3B, 0x0C, 0x0E], RowReady 0 [b, 0, 1, 2, 3, 4, 5, 6]) ∧ CodesDecided (sEpc []).cfg ∧
    (0x01 : Byte).extractLsb' 1 3 = modeNumber (sEpc []).cfg.modeCode .wait ∧
    (0x0B : Byte).extractLsb' 1 3 = modeNumber (sEpc []).cfg.modeCode .error ∧
    (0x0B : Byte).extractLsb' 4 2 = limitNumber (sEpc []).cfg.limitCode .time ∧
    (0x3B : Byte).extractLsb' 4 2 = limitNumber (sEpc []).cfg.limitCode .power ∧
    5 < ((0x0C : Byte).extractLsb' 1 3).toNat ∧ 5 < ((0x0E : Byte).extractLsb' 1 3).toNat := by decide

/-- LS_VOLT at 6000 and 6001, TEMP at -500 and -501. -/
theorem witness_limit_frames_update_their_pair :
    (∀ lo ∈ [(0x70 : Byte), 0x71], RowReady 2 [lo, 0x17, 0, 0]) ∧ (∀ lo ∈ [(0x0C : Byte), 0x0B], RowReady 6 [lo, 0xFE, 0, 0, 1]) ∧
    ((0x17 : Byte) ++ (0x70 : Byte) : BitVec 16).toNat = 6000 ∧ ((0x17 : Byte) ++ (0x71 : Byte) : BitVec 16).toNat = 6001 ∧
    ((0xFE : Byte) ++ (0x0C : Byte) : BitVec 16).toInt = -500 ∧
    ((0xFE : Byte) ++ (0x0B : Byte) : BitVec 16).toInt = -501 ∧
    Config.reference.hwBounds.of .lsVolt = ⟨0, 6000⟩ ∧ Config.reference.hwBounds.of .temp = ⟨-500, 1000⟩ :=
  ⟨by decide, by decide, by decide⟩

theorem witness_status_frame : RowReady 0xB [0x40, 1, 2, 3, 4, 5, 6, 7] ∧ RowReady 0xB [0x20] ∧
    ([1, 2, 3, 4, 5, 6, 7] : List Byte).length ≤ 7 ∧ (0x40 : Byte).extractLsb' 0 6 = 0 ∧
    (0x20 : Byte).extractLsb' 0 6 ≠ 0 := by decide

theorem witness_elec_frame : RowReady 0xC [0x74, 0x0E, 0x30, 0xF8, 0xE0, 0x2E] ∧
    (sEpc []).cfg.powerRounding = .trunc ∧
    { (sEpc []).cfg with powerRounding := .floor }.powerRounding = .floor := by decide

theorem witness_short_frames : RowReady 0x0 [1, 2, 3, 4, 5, 6, 7] ∧ RowReady 0xA [1, 2, 3] ∧
    RowReady 0xC [1, 2, 3, 4, 5] ∧ RowReady 0xB [] ∧
    ([1, 2, 3, 4, 5, 6, 7] : List Byte).length < 8 ∧ ([1, 2, 3] : List Byte).length < 4 ∧
    ([1, 2, 3, 4, 5] : List Byte).length < 6 ∧ ([] : List Byte).length < 1 := by decide

/-- For BMS.NEW and the first turn of BMS `close`. -/
theorem witness_bms_ready : BmsReady unit0 ∧ Accepting .reset := by decide

/-- `get_data` is in progress on the unit `b` and has to process a frame with the data `data` and one frame after it. -/
abbrev BmsRowReady (b : Bms) (data : List Byte) : Prop :=
  BmsDraining (sUnit b [⟨0x101, data⟩, f1]) 0 b ⟨0x101, data⟩ [f1] 1000

/-- For the marker and the empty frame. -/
theorem witness_bms_rows : BmsRowReady unit0 [] ∧ BmsRowReady unit0 [0x10, 0x45, 0x52, 0x52, 0x4F, 0x52, 0, 9] := by
  decide

theorem witness_bms_get_data_and_timeout : BmsIdle (sBms unit0 [f1]) 0 unit0 ∧
    chanGet (sBms unit0 [f1]).node.chans unit0.chan = some [f1] ∧ chanGet State.reset.node.chans unit0.chan = none ∧
    (unit0.status = .ok ∧ unit0.lastTs + (sBms unit0 []).cfg.bmsTimeoutMs < 30001) ∧ ¬(unit0.lastTs + (sBms unit0 []).cfg.bmsTimeoutMs < 30000 ∧ unit0.status = .ok) ∧
    (sUnit unit0 [f1]).bmses[0]? = some unit0 ∧ drainOf (sUnit unit0 [f1]) (.bms 0) = some ⟨.bms 0, [f1], 1000⟩ ∧
    drainOf (sUnit unit0 []) (.bms 0) = some ⟨.bms 0, [], 1000⟩ := by decide

/-- As `witness_staged_get_data`. -/
theorem witness_staged_bms_get_data : ∃ t u v, exec (.bmsGetData 0 (.start 5)) (sBms unit0 [⟨0x101, []⟩]) = .next t ∧
    Relation.ReflTransGen (BmsRowStep 0) t u ∧ exec (.bmsGetData 0 .finish) u = .next v ∧ drainOf v (.bms 0) = none :=
  ⟨_, _, _, rfl, .single ⟨0x101, 0, 0, ⟨0x101, []⟩, 5, (.empty, ⟨0x101, []⟩, .bmsRxEmpty 0 0x101), by simp [bmsRows], rfl⟩,
    rfl, by decide⟩

theorem witness_bms_timeout_flips_once : BmsReady unit0 ∧ unit0.status = .ok ∧ unit0.lastTs + (sBms unit0 []).cfg.bmsTimeoutMs < 30001 ∧
    chanGet (sBms unit0 []).node.chans unit0.chan = some [] ∧ ∃ t u, exec (.bmsGetData 0 (.whole 30001)) (sBms unit0 []) = .next t ∧
    exec (.bmsGetData 0 (.whole 60002)) t = .next u :=
  ⟨by decide, by decide, by decide, by decide, _, _, rfl, rfl⟩

/-- The unit in the middle of a message. -/
def unit1 : Bms := { unit0 with nextIdx := 1, buf := [1, 2] }

theorem witness_fragments : (∀ h ∈ [(0x20 : Byte), 0x21, 0x31, 0x01, 0x11], BmsRowReady unit1 [h, 3, 4]) ∧
    BmsRowReady unit1 [0x21, 3] ∧ ¬MarkerBytes [0x21, 3] ∧
    (∀ h ∈ [(0x20 : Byte), 0x21, 0x31, 0x01, 0x11], ¬MarkerBytes (h :: [3, 4])) ∧
    ((0x20 : Byte).extractLsb' 0 4).toNat ≠ unit1.nextIdx ∧
    (((0x21 : Byte).extractLsb' 0 4).toNat = unit1.nextIdx ∧ ((0x21 : Byte).extractLsb' 4 4).toNat = unit1.nextIdx + 1) ∧
    (∀ h ∈ [(0x01 : Byte), 0x11, 0x31], (h.extractLsb' 0 4).toNat = unit1.nextIdx ∧
      (h.extractLsb' 4 4).toNat ≠ unit1.nextIdx + 1) ∧
    (unit1.buf.length + [3, 4].length) % 2 = 0 ∧ (unit1.buf.length + [3].length) % 2 = 1 :=
  ⟨by decide, by decide, by unfold MarkerBytes; decide, by unfold MarkerBytes; decide, by decide⟩

/-- A run of two in-order fragments with the counts 0 and 5, from index 1; the last index a fragment can have. -/
theorem witness_gathered_run : unit1.nextIdx + ([[1, 2], [3, 4]] : List (List Byte)).length ≤ 16 ∧
    (∀ i < 2, (([0, 5] : List (BitVec 4)).getD i 0).toNat ≠ unit1.nextIdx + i + 1) ∧
    (∀ fr ∈ [(⟨0x101, [0x01, 1, 2]⟩ : Frame), ⟨0x101, [0x52, 3, 4]⟩], ¬MarkerBytes fr.data) ∧
    { unit1 with nextIdx := 14 }.nextIdx + ([[1, 2], [3, 4]] : List (List Byte)).length ≤ 16 := by
  unfold MarkerBytes; decide

/-- V B3: three fragments; and an odd message of one. -/
theorem witness_in_order_message :
    unit0.nextIdx = 0 ∧ unit0.buf = [] ∧
    (∀ d ∈ [([1, 2, 3, 4, 5, 6, 7] : List Byte), [8, 9, 10, 11, 12, 13, 14], [15, 16]], d.length ≤ 7) ∧
    ([(0, 3), (1, 3), (2, 3)].map (fun p : Nat × Nat => BitVec.ofNat 8 (p.2 * 16 + p.1)) : List Byte) = [0x30, 0x31, 0x32] ∧
    (∀ fr ∈ [(⟨0x101, [0x30, 1, 2, 3, 4, 5, 6, 7]⟩ : Frame), ⟨0x101, [0x31, 8, 9, 10, 11, 12, 13, 14]⟩,
      ⟨0x101, [0x32, 15, 16]⟩, ⟨0x101, [0x10, 1, 2, 3]⟩], ¬MarkerBytes fr.data) ∧
    ((0x32 : Byte).extractLsb' 0 4).toNat ≠ 1 := by
  unfold MarkerBytes; decide

/-- A state that is scheduled to take a worker step. -/
def sScheduled : State := { sEpc [f1] with agenda := [⟨.workerStep, [0]⟩] }

theorem witness_step_runs_decoded_operation : sScheduled.agenda = ⟨.workerStep, [0]⟩ :: [] ∧
    decode ⟨.workerStep, [0]⟩ = some .wrkStart ∧ decode ⟨.workerStep, [7]⟩ = none := by decide

theorem witness_operations_out_of_place :
    State.reset.epcs[0]? = none ∧ State.reset.bmses[0]? = none ∧ (∀ w ∈ State.reset.waits, w.seq ≠ 5) ∧
    ¬WorkerAt .reset .drain ∧ ¬WorkerAt .reset .poll ∧ State.reset.node.working = true ∧
    selectRow unit0 ⟨0x101, [0x10, 1, 2, 3]⟩ ≠ .last := by decide

/-- A held call and a call in progress on each kind of instance; an instance with neither, and one whose call in progress
has another frame next. -/
theorem witness_overlapping_calls_and_other_frames :
    ((held (sEpc []) .epcClose 5 []).epcs[0]? ≠ none ∧
      ∃ w ∈ (held (sEpc []) .epcClose 5 []).waits, w.target = 0 ∧ (w.kind = .epcOpen ∨ w.kind = .epcClose)) ∧
    ((held (sBms unit0 []) .bmsNew 5 []).bmses[0]? ≠ none ∧
      ∃ w ∈ (held (sBms unit0 []) .bmsNew 5 []).waits, w.target = 0 ∧ (w.kind = .bmsNew ∨ w.kind = .bmsClose)) ∧
    ((sRow []).epcs[0]? ≠ none ∧ ∃ x ∈ (sRow []).drains, x.device = .epc 0) ∧
    ((sUnit unit0 []).bmses[0]? ≠ none ∧ ∃ x ∈ (sUnit unit0 []).drains, x.device = .bms 0) ∧
    (EpcIdle (sEpc []) 0 epc3 ∧ BmsIdle (sBms unit0 []) 0 unit0) ∧
    (drainOf (sEpc []) (.epc 0) = none ∧ drainOf (sBms unit0 []) (.bms 0) = none) ∧
    (drainOf (sRow [f2]) (.epc 0)).map Drain.frames = some [f2] ∧
    (drainOf (sUnit unit0 [f1]) (.bms 0)).map Drain.now = some 1000 := by decide

theorem witness_decode_of_encode : (Instr.epcSetPeriodic (2 ^ 32 - 1) (-2 ^ 63) (2 ^ 63 - 1) 0 0 0 0).wf = true ∧
    (Instr.bmsNew 9 0x7FF 0x7FF (2 ^ 64 - 1) (.resume (2 ^ 64 - 2))).wf = true ∧
    decode ⟨.hostOp, [0x01]⟩ = some .nodeStop := by decide

theorem witness_every_step_keeps_invariant : (BlockInv sScheduled ∧ ∃ t, step sScheduled = .next t) ∧
    BlockInv (sRow [f1]) ∧ BlockInv (sUnit unit0 [f1]) :=
  ⟨⟨by decide, _, rfl⟩, by decide, by decide⟩

/-- Every worker operation runs somewhere (the states of the tests above). -/
theorem witness_worker_never_touches_records :
    ∃ t, exec .wrkStart State.reset = .next t := ⟨_, rfl⟩

end Sys2Proof.Tests
end

section
/-! The filter matcher (R160, R161). -/

namespace Sys2Proof.Machine

open Sys2Proof

theorem exec_filterMatch (id address mask : CanId) (s : State) :
    exec (.filterMatch id address mask) s =
      .next { s with reply := some (.matched (filterMatches id address mask)) } := rfl

theorem filterMatches_eq_true_iff (id address mask : CanId) :
    filterMatches id address mask = true ↔ id &&& mask = address &&& mask :=
  decide_eq_true_iff

/-- Two words agree under a mask exactly when they agree at every bit the mask sets (R37). -/
theorem and_mask_eq_iff_getLsbD {w : Nat} (x y mask : BitVec w) :
    x &&& mask = y &&& mask ↔ ∀ k < w, mask.getLsbD k = true → x.getLsbD k = y.getLsbD k := by
  simp only [BitVec.eq_of_getLsbD_eq_iff, BitVec.getLsbD_and]
  refine forall₂_congr fun k _ => ?_
  cases mask.getLsbD k with
  | false => simp
  | true => simp

theorem filterMatches_eq_true_iff_getLsbD (id address mask : CanId) :
    filterMatches id address mask = true ↔
      ∀ k < 11, mask.getLsbD k = true → id.getLsbD k = address.getLsbD k :=
  (filterMatches_eq_true_iff id address mask).trans (and_mask_eq_iff_getLsbD id address mask)

theorem filterMatches_entry_iff (id : CanId) (f : FilterEntry) :
    filterMatches id f.address f.mask = true ↔ MatchesFilter id f :=
  filterMatches_eq_true_iff id f.address f.mask

/-- `FirstMatch` is the library's search, so the library's facts about `List.find?` speak of it. -/
theorem firstMatch_eq_find? (fs : List FilterEntry) (id : CanId) :
    firstMatch fs id = fs.find? (fun f => filterMatches id f.address f.mask) := by
  induction fs with
  | nil => rfl
  | cons f fs ih =>
    cases hf : filterMatches id f.address f.mask with
    | false => simp [firstMatch, hf, ih]
    | true => simp [firstMatch, hf]

theorem firstMatch_eq_some_iff (fs : List FilterEntry) (id : CanId) (f : FilterEntry) :
    firstMatch fs id = some f ↔
      ∃ before after, fs = before ++ f :: after ∧ MatchesFilter id f ∧
        ∀ g ∈ before, ¬MatchesFilter id g := by
  simp only [firstMatch_eq_find?, List.find?_eq_some_iff_append, filterMatches_entry_iff,
    Bool.not_eq_true', ← Bool.not_eq_true]
  constructor
  · rintro ⟨hf, before, after, hfs, hbefore⟩
    exact ⟨before, after, hfs, hf, hbefore⟩
  · rintro ⟨before, after, hfs, hf, hbefore⟩
    exact ⟨hf, before, after, hfs, hbefore⟩

theorem firstMatch_eq_none_iff (fs : List FilterEntry) (id : CanId) :
    firstMatch fs id = none ↔ ∀ g ∈ fs, ¬MatchesFilter id g := by
  simp only [firstMatch_eq_find?, List.find?_eq_none, filterMatches_entry_iff]

/-- Settles O1: the answer is `filterMatches`, characterised once by its words and once by their bits. -/
theorem filterMatchComparesMaskedBits : Obligations.FilterMatchComparesMaskedBits :=
  fun id address mask s =>
    ⟨filterMatches id address mask, exec_filterMatch id address mask s,
      filterMatches_eq_true_iff id address mask, filterMatches_eq_true_iff_getLsbD id address mask⟩

/-- Settles O2: both parts are the library's facts about the search that `FirstMatch` is. -/
theorem firstMatchIsEarliestMatchingEntry : Obligations.FirstMatchIsEarliestMatchingEntry :=
  fun fs id => ⟨firstMatch_eq_some_iff fs id, firstMatch_eq_none_iff fs id⟩

end Sys2Proof.Machine
end

section
/-! The MODE frame: the encoder builds it and the decoder reads it back (R116, R229, R261). -/

namespace Sys2Proof.Machine

open Sys2Proof

/-! ## Joined words, signed fields and bytes -/

theorem toNat_append_eq_add {m n : Nat} (x : BitVec m) (y : BitVec n) :
    (x ++ y).toNat = 2 ^ n * x.toNat + y.toNat := by
  rw [BitVec.toNat_append, ← Nat.shiftLeft_add_eq_or_of_lt y.isLt, Nat.shiftLeft_eq, Nat.mul_comm]

/-- `uN(v)` is the number of the two's complement word of `v` (R11). -/
theorem uMod_eq_toNat_ofInt (n : Nat) (v : Int) : uMod n v = (BitVec.ofInt n v).toNat := by
  simp [uMod]

theorem toNat_byteOf {w : Nat} (v : BitVec w) (k : Nat) : (byteOf v k).toNat = v.toNat / 256 ^ k % 256 := by
  rw [byteOf, BitVec.extractLsb'_toNat, Nat.shiftRight_eq_div_pow, Nat.pow_mul]

/-- Dropping `j` low bytes of a word leaves its bytes from `j` on (R12). -/
theorem toLE_div_eq_map_byteOf {w : Nat} (v : BitVec w) (n j : Nat) :
    toLE n (v.toNat / 256 ^ j) = (List.range' j n).map (byteOf v) := by
  induction n generalizing j with
  | zero => rfl
  | succ n ih =>
    have hhead : BitVec.ofNat 8 (v.toNat / 256 ^ j % 256) = byteOf v j := by
      rw [← toNat_byteOf, BitVec.ofNat_toNat, BitVec.setWidth_eq]
    have htail : v.toNat / 256 ^ j / 256 = v.toNat / 256 ^ (j + 1) := by
      rw [Nat.div_div_eq_div_mul, pow_succ]
    rw [toLE, hhead, htail, ih, List.range'_succ, List.map_cons]

theorem toLE_toNat_eq_map_byteOf {w : Nat} (v : BitVec w) (n : Nat) :
    toLE n v.toNat = (List.range' 0 n).map (byteOf v) := by
  simpa using toLE_div_eq_map_byteOf v n 0

theorem leNat_toLE_toNat {w n : Nat} (v : BitVec w) (h : 2 ^ w ≤ 256 ^ n) : leNat (toLE n v.toNat) = v.toNat := by
  rw [leNat_toLE, Nat.mod_eq_of_lt (v.isLt.trans_le h)]

/-! ## Identifiers and codes -/

theorem toNat_epcId (dev : BitVec 6) (type : BitVec 4) : (epcId dev type).toNat = dev.toNat * 16 + type.toNat := by
  rw [epcId, toNat_append_eq_add, toNat_append_eq_add, BitVec.toNat_zero]
  omega

theorem identifier_eq_epcId (dev : BitVec 6) (type : BitVec 4) :
    identifier dev.toNat type.toNat = epcId dev type := by
  rw [identifier, ← toNat_epcId, BitVec.ofNat_toNat, BitVec.setWidth_eq]

theorem messageType_epcId (dev : BitVec 6) (type : BitVec 4) : messageType (epcId dev type) = type.toNat := by
  simp only [messageType, toNat_epcId, bits]
  omega

theorem modeNumber_eq_modeCode (c : ModeCodes) (m : Mode) : modeNumber c m = modeCode c m := by
  cases m <;> rfl

theorem limitNumber_eq_limitCode (c : LimitCodes) (lt : LimitType) : limitNumber c lt = limitCode c lt := by
  cases lt <;> rfl

/-! ## The word of a MODE frame -/

/-- The 64-bit word of a MODE frame (R116), from the words of its fields. -/
def modeWord (en : BitVec 1) (k : BitVec 3) (l : BitVec 2) (ref : BitVec 16) (lr : BitVec 32) : Nat :=
  en.toNat + 2 ^ 1 * k.toNat + 2 ^ 4 * l.toNat + 2 ^ 16 * ref.toNat + 2 ^ 32 * lr.toNat

/-- The fields of R116 do not overlap: each is read back from its own bits. -/
theorem bits_modeWord (en : BitVec 1) (k : BitVec 3) (l : BitVec 2) (ref : BitVec 16) (lr : BitVec 32) :
    bits (modeWord en k l ref lr) 0 0 = en.toNat ∧ bits (modeWord en k l ref lr) 3 1 = k.toNat ∧
    bits (modeWord en k l ref lr) 5 4 = l.toNat ∧ bits (modeWord en k l ref lr) 31 16 = ref.toNat ∧
    bits (modeWord en k l ref lr) 63 32 = lr.toNat := by
  simp only [bits, modeWord]
  omega

/-- The eight bytes of R116 are the bytes of the word: the control byte and the zero byte, then the bytes of the two
references. -/
theorem leNat_modeBytes (en : BitVec 1) (k : BitVec 3) (l : BitVec 2) (ref lr : Int) :
    leNat (modeBytes en k l ref lr) = modeWord en k l (BitVec.ofInt 16 ref) (BitVec.ofInt 32 lr) := by
  have hparts : modeBytes en k l ref lr =
      [0#2 ++ l ++ k ++ en, 0#8] ++
        (toLE 2 (BitVec.ofInt 16 ref).toNat ++ toLE 4 (BitVec.ofInt 32 lr).toNat) := by
    rw [toLE_toNat_eq_map_byteOf, toLE_toNat_eq_map_byteOf]
    rfl
  have hcontrol : (0#2 ++ l ++ k ++ en).toNat = en.toNat + 2 ^ 1 * k.toNat + 2 ^ 4 * l.toNat := by
    simp only [toNat_append_eq_add, BitVec.toNat_zero]
    omega
  rw [hparts, leNat_append, leNat_append, leNat_toLE_toNat _ (by decide), leNat_toLE_toNat _ (by decide),
    length_toLE, modeWord]
  simp only [leNat, hcontrol, List.length_cons, List.length_nil, BitVec.toNat_zero]
  omega

/-! ## Encoding and decoding -/

/-- The encoder writes the bytes of R116 under the identifier of R113, and never fails (R229). -/
theorem encodeMode_eq (cfg : Config) (dev : BitVec 6) (en : BitVec 1) (m : Mode) (lt : LimitType) (ref lr : Int) :
    encodeMode cfg dev en.toNat m lt ref lr =
      .ok ⟨epcId dev 0, modeBytes en (modeCode cfg.modeCode m) (limitCode cfg.limitCode lt) ref lr⟩ := by
  have hbytes := toLE_leNat (modeBytes en (modeCode cfg.modeCode m) (limitCode cfg.limitCode lt) ref lr)
  rw [leNat_modeBytes] at hbytes
  rw [encodeMode, uMod_eq_toNat_ofInt, uMod_eq_toNat_ofInt, ← modeWord,
    epcFrame_ok dev _ (by decide) (by decide)]
  exact congrArg _ (congrArg₂ Frame.mk (identifier_eq_epcId dev 0) hbytes)

theorem decodeFrame_of_typeMode (cfg : Config) (r : Epc) {fr : Frame} (h : messageType fr.id = typeMode) :
    decodeFrame cfg r fr = decodeMode cfg r fr := by
  rw [decodeFrame, h]
  rfl

/-- The decoder reads the fields of a MODE frame's bytes, whoever sent it, if its mode code names a mode (R261). -/
theorem decodeMode_modeBytes {cfg : Config} {k : BitVec 3} {m : Mode} (hm : modeOfCode cfg.modeCode k.toNat = some m)
    (r : Epc) (id : CanId) (en : BitVec 1) (l : BitVec 2) (ref lr : Int) :
    decodeMode cfg r ⟨id, modeBytes en k l ref lr⟩ =
      { r with live := { r.live with
          outputEnable := en
          mode := m
          limitMode := limitOfCode cfg.limitCode l.toNat
          ref := BitVec.ofInt 16 ref
          limitRef := BitVec.ofInt 32 lr } } := by
  have hlong : ¬Frame.dlc ⟨id, modeBytes en k l ref lr⟩ < 8 := by simp [Frame.dlc, modeBytes]
  rw [decodeMode, if_neg hlong, frameWord, leNat_modeBytes]
  obtain ⟨hen, hk, hl, href, hlr⟩ := bits_modeWord en k l (BitVec.ofInt 16 ref) (BitVec.ofInt 32 lr)
  simp only [hen, hk, hl, href, hlr, hm, BitVec.ofNat_toNat, BitVec.setWidth_eq]

/-- Settles O41: the frame is `encodeMode_eq`; its decoding reads back the codes, which name the mode and the limit type
apart, and the two's complement of the references, which are the references in their signed ranges. -/
theorem modeFrameSurvivesRoundTrip : Obligations.ModeFrameSurvivesRoundTrip := by
  intro cfg r dev en m lt ref lr
  rw [modeNumber_eq_modeCode, limitNumber_eq_limitCode]
  refine ⟨_, encodeMode_eq cfg dev en m lt ref lr, rfl, ?_⟩
  rintro ⟨hmodes, hlimits⟩ href_lo href_hi hlr_lo hlr_hi
  have hmode := modeOfCode_modeCode hmodes m
  have hlimit := limitOfCode_limitCode hlimits lt
  have href : (BitVec.ofInt 16 ref).toInt = ref :=
    BitVec.toInt_ofInt_eq_self (by decide) (by omega) (by omega)
  have hlr : (BitVec.ofInt 32 lr).toInt = lr :=
    BitVec.toInt_ofInt_eq_self (by decide) (by omega) (by omega)
  have hdecode := (decodeFrame_of_typeMode cfg r (messageType_epcId dev 0)).trans
    (decodeMode_modeBytes hmode r _ en (limitCode cfg.limitCode lt) ref lr)
  exact ⟨_, hdecode, rfl, rfl, hlimit, href, hlr⟩

end Sys2Proof.Machine
end

section
/-! The message of every well-formed operation decodes to that operation (R140 to R144, log 3). -/

namespace Sys2Proof

/-! ## Writing an argument list and reading it back -/

theorem takeNat4_handle {e : Nat} (rest : List Byte) (h : handleOk e = true) :
    takeNat 4 (toLE 4 e ++ rest) = some (e, rest) :=
  takeNat_toLE 4 e rest (by simpa [handleOk] using h)

theorem takeNat8_nat64 {n : Nat} (rest : List Byte) (h : nat64Ok n = true) :
    takeNat 8 (toLE 8 n ++ rest) = some (n, rest) :=
  takeNat_toLE 8 n rest (by simpa [nat64Ok] using h)

theorem decodeHostOp_append {op : Nat} (args : List Byte) (h : op < 256) :
    decodeHostOp (toLE 1 op ++ args) = decodeArgs op args := by
  simp [decodeHostOp, takeNat_toLE 1 op args h]

theorem takeModeArgs_append (f : Nat → Int → LimitType → Int → Instr) {e : Nat} {ref lr : Int} (lt : LimitType)
    (rest : List Byte) (he : handleOk e = true) (href : int64Ok ref = true) (hlr : int64Ok lr = true) :
    takeModeArgs f (toLE 4 e ++ (putInt ref ++ (putLimitType lt ++ (putInt lr ++ rest)))) =
      some (f e ref lt lr, rest) := by
  simp [takeModeArgs, takeNat4_handle _ he, takeInt_putInt _ _ href, takeLimitType_put, takeInt_putInt _ _ hlr]

theorem takeLimitArgs_append (f : Nat → Int → Int → Instr) {e : Nat} {mx mn : Int} (rest : List Byte)
    (he : handleOk e = true) (hmx : int64Ok mx = true) (hmn : int64Ok mn = true) :
    takeLimitArgs f (toLE 4 e ++ (putInt mx ++ (putInt mn ++ rest))) = some (f e mx mn, rest) := by
  simp [takeLimitArgs, takeNat4_handle _ he, takeInt_putInt _ _ hmx, takeInt_putInt _ _ hmn]

theorem takeUpdateArgs_append (f : Nat → Bool → Instr) {e : Nat} (update : Bool) (rest : List Byte)
    (he : handleOk e = true) :
    takeUpdateArgs f (toLE 4 e ++ (putBool update ++ rest)) = some (f e update, rest) := by
  simp [takeUpdateArgs, takeNat4_handle _ he, takeBool_putBool]

theorem takeTurnArgs_append (f : Nat → Turn → Instr) {e : Nat} {turn : Turn} (rest : List Byte)
    (he : handleOk e = true) (ht : turn.wf = true) :
    takeTurnArgs f (toLE 4 e ++ (putTurn turn ++ rest)) = some (f e turn, rest) := by
  simp [takeTurnArgs, takeNat4_handle _ he, takeTurn_put _ _ ht]

/-! ## Each format -/

/-- The tag of the word of a command is that of its kind, never the reserved one (R140). -/
theorem tag_commandWord_ne (c : Command) (h : c.wf = true) : bits (commandWord c).toNat 1 0 ≠ 3 := by
  intro htag
  have hc := commandOfWord_commandWord c h
  simp [commandOfWord, htag] at hc

theorem decodeCommand_commandWord {c : Command} (rest : List Byte) (h : c.wf = true) :
    decodeCommand (toLE 12 (commandWord c).toNat ++ rest) =
      match c with
      | .send fr => (takeTx rest).map (fun p => (.cmdSend fr p.1, p.2))
      | .addFilter fe => some (.cmdAddFilter fe, rest)
      | .removeFilter fe => some (.cmdRemoveFilter fe, rest) := by
  have hword := takeBits_toLE 12 96 (commandWord c) rest (by norm_num)
  simp only [decodeCommand, hword, Option.bind_eq_bind, Option.bind_some, if_neg (tag_commandWord_ne c h),
    commandOfWord_commandWord c h]
  cases c with
  | send fr => cases takeTx rest <;> rfl
  | addFilter fe => rfl
  | removeFilter fe => rfl

theorem toNat_reservedWord (rest : BitVec 94) : (reservedWord rest).toNat = 3 + 4 * rest.toNat := by
  have := rest.isLt
  rw [reservedWord, BitVec.toNat_ofNat, Nat.mod_eq_of_lt]
  omega

theorem decodeCommand_reservedWord (rest : BitVec 94) (after : List Byte) :
    decodeCommand (toLE 12 (reservedWord rest).toNat ++ after) = some (.cmdReserved rest, after) := by
  have hword := takeBits_toLE 12 96 (reservedWord rest) after (by norm_num)
  have htag : bits (reservedWord rest).toNat 1 0 = 3 := by rw [toNat_reservedWord, bits]; omega
  have hrest : (reservedWord rest).toNat / 4 = rest.toNat := by rw [toNat_reservedWord]; omega
  simp [decodeCommand, hword, htag, hrest]

theorem decodeEpcFrame_append {type e : Nat} {dev : BitVec 7} {data : List Byte} {i : Instr} (rest : List Byte)
    (ht : type < 16) (hok : epcRowOk e data = true) (hrow : epcRow type e dev data = some i) :
    decodeEpcFrame ((epcMessage type e dev data).bytes ++ rest) = some (i, rest) := by
  obtain ⟨he, hdata⟩ := Bool.and_eq_true_iff.mp hok
  have hwf : (⟨identifier dev.toNat type, data⟩ : Frame).wf = true := hdata
  simp [decodeEpcFrame, epcMessage, takeFrame_put _ _ hwf, takeNat4_handle _ he, messageType_identifier dev ht,
    deviceId_identifier dev ht, hrow]

theorem data_eq_cons_of_hasHeader {fr : Frame} (h : fr.hasHeader = true) : ∃ header data, fr.data = header :: data := by
  cases hd : fr.data with
  | nil => simp [Frame.hasHeader, hd] at h
  | cons header data => exact ⟨header, data, rfl⟩

theorem decodeBmsFrame_marker {b : Nat} (id : CanId) (free code : Byte) (rest : List Byte) (hb : handleOk b = true) :
    decodeBmsFrame ((bmsMessage 1 b (markerFrame id free code) []).bytes ++ rest) =
      some (.bmsRxMarker b id free code, rest) := by
  have hwf : (markerFrame id free code).wf = true := rfl
  simp only [decodeBmsFrame, bmsMessage, List.append_assoc, takeFrame_put _ _ hwf, takeNat4_handle _ hb,
    takeNat_toLE 1 1 _ (by norm_num), Option.bind_eq_bind, Option.bind_some]
  exact if_pos rfl

/-! ## Every operation -/

/-- Reading the message of an operation gives the operation, and leaves the bytes after the message. -/
theorem decodeBytes_encode_append (i : Instr) (rest : List Byte) (h : i.wf = true) :
    decodeBytes (encode i).format ((encode i).bytes ++ rest) = some (i, rest) := by
  cases i <;> simp only [Instr.wf, Bool.and_eq_true] at h <;>
    simp only [encode, decodeBytes, hostMessage, modeMessage, limitMessage, workerMessage, List.append_assoc]
  case filterMatch id address mask =>
    have h11 := fun (v : CanId) rest => takeBits_toLE 2 11 v rest (by norm_num)
    simp [decodeInternal, h11]
  case nodeSubmit word =>
    have hword := takeBits_toLE 12 96 word rest (by norm_num)
    simp [decodeHostOp_append, decodeArgs, hword]
  case nodeStop => simp [decodeHostOp_append, decodeArgs]
  case chanRead chan =>
    have hchan := takeBits_toLE 8 64 chan rest (by norm_num)
    simp [decodeHostOp_append, decodeArgs, hchan]
  case epcSetCvMode | epcSetCcMode | epcSetCpMode => simp [decodeHostOp_append, decodeArgs, takeModeArgs_append, h]
  case epcSetWaitMode | epcSetPeriodic =>
    simp [decodeHostOp_append, decodeArgs, takeNat4_handle, takeInt_putInt, h]
  case epcDisable => simp [decodeHostOp_append, decodeArgs, takeNat4_handle, h]
  case epcSetLsVoltLimit | epcSetLsCurrLimit | epcSetHsVoltLimit | epcSetLsPwrLimit | epcSetTempLimit =>
    simp [decodeHostOp_append, decodeArgs, takeLimitArgs_append, h]
  case epcGetData e call =>
    have hfits : call.fits (fun _ => true) = true := by cases call <;> rfl
    have hcall := takeCall_put (fun x rest _ => takeBool_putBool x rest) call rest hfits
    simp [decodeHostOp_append, decodeArgs, takeNat4_handle, hcall, h]
  case epcGetProperties => simp [decodeHostOp_append, decodeArgs, takeUpdateArgs_append, h]
  case epcOpen | epcClose | bmsClose => simp [decodeHostOp_append, decodeArgs, takeTurnArgs_append, h]
  case epcNew devId chan props =>
    have hchan := fun rest => takeBits_toLE 8 64 chan rest (by norm_num)
    simp [decodeHostOp_append, decodeArgs, takeNat8_nat64, hchan, takeProps_put, h]
  case bmsNew => simp [decodeHostOp_append, decodeArgs, takeFilter_put, takeNat8_nat64, takeTurn_put, h]
  case bmsGetData b call =>
    have hcall := takeCall_put (fun x rest hx => takeNat8_nat64 rest hx) call rest h.2
    simp [decodeHostOp_append, decodeArgs, takeNat4_handle, hcall, h]
  case cmdSend fr tx =>
    have hwf : (Command.send fr).wf = true := h
    simp [commandMessage, decodeCommand_commandWord _ hwf, takeTx_put]
  case cmdAddFilter fe => exact decodeCommand_commandWord (c := .addFilter fe) rest rfl
  case cmdRemoveFilter fe => exact decodeCommand_commandWord (c := .removeFilter fe) rest rfl
  case cmdReserved reserved => exact decodeCommand_reservedWord reserved rest
  case wrkStart | wrkDrainEnd | wrkDeliver | wrkShutdown | wrkFatal => simp [decodeWorkerStep, takeNat_toLE]
  case wrkApply tx => simp [decodeWorkerStep, takeNat_toLE, takeTx_put]
  case wrkPoll ev => simp [decodeWorkerStep, takeNat_toLE, takeEvent_put, h]
  case rxData fr => simp [decodeBusEvent, takeEvent_put (.frame fr) rest h]
  case rxNone => simp [decodeBusEvent, takeEvent_put .none rest rfl]
  case rxErrorFrame => simp [decodeBusEvent, takeEvent_put .errorFrame rest rfl]
  case rxInvalid => simp [decodeBusEvent, takeEvent_put .invalid rest rfl]
  case epcRxMode | epcRxLsVoltLim | epcRxLsCurrLim | epcRxHsVoltLim | epcRxLsPwrLim | epcRxTempLim | epcRxPeriodic |
      epcRxInfo | epcRxStatus | epcRxElecMeas | epcRxTempMeas | epcRxIgnored =>
    exact decodeEpcFrame_append rest (by decide) h rfl
  case epcRxIgnored89 e dev low data =>
    fin_cases low <;> exact decodeEpcFrame_append rest (by decide) h rfl
  case epcRxIgnoredEF e dev low data =>
    fin_cases low <;> exact decodeEpcFrame_append rest (by decide) h rfl
  case bmsRxEmpty b id =>
    have hwf : (⟨id, []⟩ : Frame).wf = true := rfl
    simp [decodeBmsFrame, bmsMessage, takeFrame_put _ _ hwf, takeNat4_handle, takeNat_toLE, h]
  case bmsRxMarker b id free code => exact decodeBmsFrame_marker id free code rest h
  case bmsRxSeqFault b fr | bmsRxFragment b fr | bmsRxOdd b fr =>
    obtain ⟨header, data, hd⟩ := data_eq_cons_of_hasHeader h.2
    simp [decodeBmsFrame, bmsMessage, takeFrame_put, wf_of_hasHeader, takeNat4_handle, takeNat_toLE, h, hd]
  case bmsRxLast b fr now =>
    obtain ⟨header, data, hd⟩ := data_eq_cons_of_hasHeader h.1.2
    simp [decodeBmsFrame, bmsMessage, takeFrame_put, wf_of_hasHeader, takeNat4_handle, takeNat_toLE, takeNat8_nat64, h,
      hd]

/-- Settles O53: the bytes left after an operation's message are the padding, which is zero. -/
theorem decodeOfEncodeIsIdentity : Obligations.DecodeOfEncodeIsIdentity := by
  intro i pad h
  simp [decode, decodeBytes_encode_append i _ h]

end Sys2Proof
end

section
/-! What the decoder accepts is well formed: each reader's result fits its field (log 3, R110). -/

namespace Sys2Proof

/-! ## What the fields of a message can hold -/

theorem takeNat_lt {n v : Nat} {bs rest : List Byte} (h : takeNat n bs = some (v, rest)) : v < 256 ^ n := by
  unfold takeNat at h
  split at h
  next hlen =>
    cases h
    simpa [List.length_take, Nat.min_eq_left hlen] using leNat_lt (bs.take n)
  next => cases h

theorem handleOk_of_takeNat {e : Nat} {bs rest : List Byte} (h : takeNat 4 bs = some (e, rest)) : handleOk e = true := by
  have := takeNat_lt h
  simp [handleOk]
  omega

theorem nat64Ok_of_takeNat {v : Nat} {bs rest : List Byte} (h : takeNat 8 bs = some (v, rest)) : nat64Ok v = true := by
  have := takeNat_lt h
  simp [nat64Ok]
  omega

theorem int64Ok_of_takeInt {x : Int} {bs rest : List Byte} (h : takeInt bs = some (x, rest)) : int64Ok x = true := by
  unfold takeInt at h
  split at h
  next v rest' hv =>
    have := takeNat_lt hv
    cases h
    unfold sVal
    split <;> simp [int64Ok] <;> omega
  next => cases h

theorem turn_wf_of_takeTurn {t : Turn} {bs rest : List Byte} (h : takeTurn bs = some (t, rest)) : t.wf = true := by
  unfold takeTurn at h
  split at h
  next => cases h; rfl
  next seq _ hv =>
    have := takeNat_lt hv
    cases h
    simp only [Turn.wf, decide_eq_true_eq]
    omega
  next => cases h

/-- A monitoring call that is read has an argument that was read. -/
theorem fits_of_takeCall {α : Type} {take : List Byte → Option (α × List Byte)} {ok : α → Bool}
    (harg : ∀ {x bs rest}, take bs = some (x, rest) → ok x = true) {c : MonitorCall α} {bs rest : List Byte}
    (h : takeCall take bs = some (c, rest)) : c.fits ok = true := by
  simp only [takeCall, Option.bind_eq_bind, Option.bind_eq_some_iff, Prod.exists] at h
  obtain ⟨form, bs', -, h⟩ := h
  split at h
  next =>
    simp only [Option.bind_eq_some_iff, Option.some.injEq, Prod.mk.injEq] at h
    obtain ⟨⟨x, bs''⟩, hx, rfl, rfl⟩ := h
    exact harg hx
  next =>
    simp only [Option.bind_eq_some_iff, Option.some.injEq, Prod.mk.injEq] at h
    obtain ⟨⟨x, bs''⟩, hx, rfl, rfl⟩ := h
    exact harg hx
  next => cases h; rfl
  next => cases h

theorem length_of_unpadData {dlc : Nat} {bytes data : List Byte} (h : unpadData dlc bytes = some data) :
    data.length ≤ 8 := by
  unfold unpadData at h
  split at h
  next hok => cases h; exact (List.length_take_le _ _).trans hok.1
  next => cases h

theorem wf_of_takeFrame {fr : Frame} {bs rest : List Byte} (h : takeFrame bs = some (fr, rest)) : fr.wf = true := by
  unfold takeFrame at h
  split at h
  next =>
    split at h
    next =>
      split at h
      next data hdata => cases h; exact decide_eq_true (length_of_unpadData hdata)
      next => cases h
    next => cases h
  next => cases h

theorem wf_of_takeEvent {ev : BusEvent} {bs rest : List Byte} (h : takeEvent bs = some (ev, rest)) : ev.wf = true := by
  simp only [takeEvent, Option.bind_eq_bind, Option.bind_eq_some_iff, Prod.exists] at h
  obtain ⟨fr, bs', hfr, kind, bs'', -, h⟩ := h
  split at h
  next => cases h; exact wf_of_takeFrame hfr
  next =>
    split at h
    next => split at h <;> cases h <;> rfl
    next => cases h

/-- Every command that a word stands for has a proper frame (R110, R141). -/
theorem wf_of_commandOfWord {w : BitVec 96} {c : Command} (h : commandOfWord w = some c) : c.wf = true := by
  simp only [commandOfWord] at h
  split at h
  next =>
    split at h
    next =>
      split at h
      next data hdata => cases h; exact decide_eq_true (length_of_unpadData hdata)
      next => cases h
    next => cases h
  next => split at h <;> cases h; rfl
  next => split at h <;> cases h; rfl
  next => cases h

/-! ## What an argument list can hold -/

theorem takeModeArgs_eq_some {f : Nat → Int → LimitType → Int → Instr} {i : Instr} {bs rest : List Byte}
    (h : takeModeArgs f bs = some (i, rest)) :
    ∃ e ref lt lr, i = f e ref lt lr ∧ handleOk e = true ∧ int64Ok ref = true ∧ int64Ok lr = true := by
  simp only [takeModeArgs, Option.bind_eq_bind, Option.bind_eq_some_iff, Prod.exists, Option.some.injEq,
    Prod.mk.injEq] at h
  obtain ⟨e, _, he, ref, _, href, lt, _, -, lr, _, hlr, rfl, -⟩ := h
  exact ⟨e, ref, lt, lr, rfl, handleOk_of_takeNat he, int64Ok_of_takeInt href, int64Ok_of_takeInt hlr⟩

theorem takeLimitArgs_eq_some {f : Nat → Int → Int → Instr} {i : Instr} {bs rest : List Byte}
    (h : takeLimitArgs f bs = some (i, rest)) :
    ∃ e mx mn, i = f e mx mn ∧ handleOk e = true ∧ int64Ok mx = true ∧ int64Ok mn = true := by
  simp only [takeLimitArgs, Option.bind_eq_bind, Option.bind_eq_some_iff, Prod.exists, Option.some.injEq,
    Prod.mk.injEq] at h
  obtain ⟨e, _, he, mx, _, hmx, mn, _, hmn, rfl, -⟩ := h
  exact ⟨e, mx, mn, rfl, handleOk_of_takeNat he, int64Ok_of_takeInt hmx, int64Ok_of_takeInt hmn⟩

theorem takeUpdateArgs_eq_some {f : Nat → Bool → Instr} {i : Instr} {bs rest : List Byte}
    (h : takeUpdateArgs f bs = some (i, rest)) : ∃ e update, i = f e update ∧ handleOk e = true := by
  simp only [takeUpdateArgs, Option.bind_eq_bind, Option.bind_eq_some_iff, Prod.exists, Option.some.injEq,
    Prod.mk.injEq] at h
  obtain ⟨e, _, he, update, _, -, rfl, -⟩ := h
  exact ⟨e, update, rfl, handleOk_of_takeNat he⟩

theorem takeTurnArgs_eq_some {f : Nat → Turn → Instr} {i : Instr} {bs rest : List Byte}
    (h : takeTurnArgs f bs = some (i, rest)) :
    ∃ e turn, i = f e turn ∧ handleOk e = true ∧ turn.wf = true := by
  simp only [takeTurnArgs, Option.bind_eq_bind, Option.bind_eq_some_iff, Prod.exists, Option.some.injEq,
    Prod.mk.injEq] at h
  obtain ⟨e, _, he, turn, _, ht, rfl, -⟩ := h
  exact ⟨e, turn, rfl, handleOk_of_takeNat he, turn_wf_of_takeTurn ht⟩

/-- The operation codes in the order of `decodeArgs`; those whose arguments one reader takes together. -/
theorem wf_of_decodeArgs {op : Nat} {i : Instr} {bs rest : List Byte} (h : decodeArgs op bs = some (i, rest)) :
    i.wf = true := by
  unfold decodeArgs at h
  split at h
  case h_4 | h_5 | h_6 =>
    obtain ⟨e, ref, lt, lr, rfl, he, href, hlr⟩ := takeModeArgs_eq_some h
    simp [Instr.wf, he, href, hlr]
  case h_10 | h_11 | h_12 | h_13 | h_14 =>
    obtain ⟨e, mx, mn, rfl, he, hmx, hmn⟩ := takeLimitArgs_eq_some h
    simp [Instr.wf, he, hmx, hmn]
  case h_16 =>
    obtain ⟨e, update, rfl, he⟩ := takeUpdateArgs_eq_some h
    exact he
  case h_17 | h_18 | h_22 =>
    obtain ⟨e, turn, rfl, he, ht⟩ := takeTurnArgs_eq_some h
    simp [Instr.wf, he, ht]
  case h_2 => cases h; rfl
  case h_23 => cases h
  all_goals
    simp only [Option.bind_eq_bind, Option.bind_eq_some_iff, Prod.exists, Option.some.injEq, Prod.mk.injEq] at h
  case h_1 =>
    obtain ⟨word, _, -, rfl, -⟩ := h
    rfl
  case h_3 =>
    obtain ⟨chan, _, -, rfl, -⟩ := h
    rfl
  case h_7 =>
    obtain ⟨e, _, he, lr, _, hlr, rfl, -⟩ := h
    simp [Instr.wf, handleOk_of_takeNat he, int64Ok_of_takeInt hlr]
  case h_8 =>
    obtain ⟨e, _, he, rfl, -⟩ := h
    exact handleOk_of_takeNat he
  case h_9 =>
    obtain ⟨e, _, he, ae, _, hae, ap, _, hap, ee, _, hee, ep, _, hep, te, _, hte, tp, _, htp, rfl, -⟩ := h
    simp [Instr.wf, handleOk_of_takeNat he, int64Ok_of_takeInt hae, int64Ok_of_takeInt hap, int64Ok_of_takeInt hee,
      int64Ok_of_takeInt hep, int64Ok_of_takeInt hte, int64Ok_of_takeInt htp]
  case h_15 =>
    obtain ⟨e, _, he, call, _, -, rfl, -⟩ := h
    exact handleOk_of_takeNat he
  case h_19 =>
    obtain ⟨devId, _, hdev, chan, _, -, props, _, -, rfl, -⟩ := h
    exact nat64Ok_of_takeNat hdev
  case h_20 =>
    obtain ⟨fe, _, -, now, _, hnow, turn, _, ht, rfl, -⟩ := h
    simp [Instr.wf, nat64Ok_of_takeNat hnow, turn_wf_of_takeTurn ht]
  case h_21 =>
    obtain ⟨b, _, hb, call, _, hcall, rfl, -⟩ := h
    simp [Instr.wf, handleOk_of_takeNat hb, fits_of_takeCall nat64Ok_of_takeNat hcall]

/-! ## What each format can hold -/

theorem wf_of_decodeInternal {i : Instr} {bs rest : List Byte} (h : decodeInternal bs = some (i, rest)) :
    i.wf = true := by
  simp only [decodeInternal, Option.bind_eq_bind, Option.bind_eq_some_iff, Prod.exists, Option.some.injEq,
    Prod.mk.injEq] at h
  obtain ⟨id, _, -, address, _, -, mask, _, -, rfl, -⟩ := h
  rfl

theorem wf_of_decodeHostOp {i : Instr} {bs rest : List Byte} (h : decodeHostOp bs = some (i, rest)) :
    i.wf = true := by
  simp only [decodeHostOp, Option.bind_eq_bind, Option.bind_eq_some_iff, Prod.exists] at h
  obtain ⟨op, _, -, hargs⟩ := h
  exact wf_of_decodeArgs hargs

theorem wf_of_decodeCommand {i : Instr} {bs rest : List Byte} (h : decodeCommand bs = some (i, rest)) :
    i.wf = true := by
  simp only [decodeCommand, Option.bind_eq_bind, Option.bind_eq_some_iff, Prod.exists] at h
  obtain ⟨word, _, -, h⟩ := h
  split at h
  next => cases h; rfl
  next =>
    split at h
    next fr hword =>
      simp only [Option.bind_eq_some_iff, Option.some.injEq, Prod.exists, Prod.mk.injEq] at h
      obtain ⟨tx, _, -, rfl, -⟩ := h
      exact wf_of_commandOfWord hword
    next => cases h; rfl
    next => cases h; rfl
    next => cases h

theorem wf_of_decodeBusEvent {i : Instr} {bs rest : List Byte} (h : decodeBusEvent bs = some (i, rest)) :
    i.wf = true := by
  simp only [decodeBusEvent, Option.bind_eq_bind, Option.bind_eq_some_iff, Prod.exists] at h
  obtain ⟨ev, _, hev, h⟩ := h
  have hwf := wf_of_takeEvent hev
  cases ev with
  | frame fr => cases h; exact hwf
  | none => cases h; rfl
  | errorFrame => cases h; rfl
  | invalid => cases h; rfl

theorem wf_of_decodeWorkerStep {i : Instr} {bs rest : List Byte} (h : decodeWorkerStep bs = some (i, rest)) :
    i.wf = true := by
  simp only [decodeWorkerStep, Option.bind_eq_bind, Option.bind_eq_some_iff, Prod.exists] at h
  obtain ⟨k, _, -, h⟩ := h
  split at h
  case h_2 =>
    simp only [Option.bind_eq_some_iff, Option.some.injEq, Prod.exists, Prod.mk.injEq] at h
    obtain ⟨tx, _, -, rfl, -⟩ := h
    rfl
  case h_4 =>
    simp only [Option.bind_eq_some_iff, Option.some.injEq, Prod.exists, Prod.mk.injEq] at h
    obtain ⟨ev, _, hev, rfl, -⟩ := h
    exact wf_of_takeEvent hev
  all_goals cases h
  all_goals rfl

/-- Whatever its message type, an EPC row is well formed when its handle and its data are. -/
theorem wf_of_epcRow {type e : Nat} {dev : BitVec 7} {data : List Byte} {i : Instr}
    (h : epcRow type e dev data = some i) (hok : epcRowOk e data = true) : i.wf = true := by
  unfold epcRow at h
  split at h <;> cases h <;> exact hok

theorem wf_of_decodeEpcFrame {i : Instr} {bs rest : List Byte} (h : decodeEpcFrame bs = some (i, rest)) :
    i.wf = true := by
  simp only [decodeEpcFrame, Option.bind_eq_bind, Option.bind_eq_some_iff, Prod.exists] at h
  obtain ⟨fr, _, hfr, e, _, he, h⟩ := h
  split at h
  next hrow =>
    cases h
    exact wf_of_epcRow hrow (Bool.and_eq_true_iff.mpr ⟨handleOk_of_takeNat he, wf_of_takeFrame hfr⟩)
  next => cases h

theorem wf_of_decodeBmsFrame {i : Instr} {bs rest : List Byte} (h : decodeBmsFrame bs = some (i, rest)) :
    i.wf = true := by
  simp only [decodeBmsFrame, Option.bind_eq_bind, Option.bind_eq_some_iff, Prod.exists] at h
  obtain ⟨fr, _, hfr, b, _, hb, row, _, -, h⟩ := h
  have hhandle := handleOk_of_takeNat hb
  have hwf := wf_of_takeFrame hfr
  split at h
  case h_1 => cases h; exact hhandle
  case h_2 =>
    split at h
    next => cases h; exact hhandle
    next => cases h
  case h_3 hdata | h_4 hdata | h_6 hdata =>
    cases h
    simp [Instr.wf, Frame.hasHeader, hhandle, hwf, hdata]
  case h_5 hdata =>
    simp only [Option.bind_eq_some_iff, Option.some.injEq, Prod.exists, Prod.mk.injEq] at h
    obtain ⟨now, _, hnow, rfl, -⟩ := h
    simp [Instr.wf, Frame.hasHeader, hhandle, hwf, hdata, nat64Ok_of_takeNat hnow]
  case h_7 => cases h

theorem wf_of_decodeBytes {format : Format} {i : Instr} {bs rest : List Byte}
    (h : decodeBytes format bs = some (i, rest)) : i.wf = true := by
  cases format with
  | internal => exact wf_of_decodeInternal h
  | hostOp => exact wf_of_decodeHostOp h
  | commandWord => exact wf_of_decodeCommand h
  | workerStep => exact wf_of_decodeWorkerStep h
  | busEvent => exact wf_of_decodeBusEvent h
  | canId => exact wf_of_decodeEpcFrame h
  | bmsFrame => exact wf_of_decodeBmsFrame h

theorem wf_of_decode {m : Message} {i : Instr} (h : decode m = some i) : i.wf = true := by
  unfold decode at h
  split at h
  next hbytes =>
    split at h
    next => cases h; exact wf_of_decodeBytes hbytes
    next => cases h
  next => cases h

/-- Settles O54: every format reads its operands from fields that hold them. -/
theorem decodedOperationIsWellFormed : Obligations.DecodedOperationIsWellFormed :=
  fun _ _ => wf_of_decode

/-- Settles O55: the decoder evaluates on the words written out. -/
theorem specWordsDecode : Obligations.SpecWordsDecode := by
  unfold Obligations.SpecWordsDecode
  decide

end Sys2Proof
end

section
/-! The frame rows: each row EPC.RX_* and BMS.RX_* runs the drain's own decoder on the next frame of the call in
progress (R100, R260, R300, log 8). -/

namespace Sys2Proof.Machine

open Sys2Proof

/-! ## EPC rows -/

theorem toNat_typed_id (dev : BitVec 7) (type : BitVec 4) : (dev ++ type).toNat = dev.toNat * 16 + type.toNat := by
  rw [toNat_append_eq_add]
  omega

/-- The message type of an identifier is its low four bits (R111). -/
theorem messageType_append (dev : BitVec 7) (type : BitVec 4) : messageType (dev ++ type) = type.toNat := by
  simp only [messageType, toNat_typed_id, bits]
  omega

theorem rowFrame_eq (dev : BitVec 7) {n : Nat} (type : BitVec 4) (data : List Byte) (h : type.toNat = n) :
    rowFrame dev n data = ⟨dev ++ type, data⟩ := by
  rw [rowFrame, identifier, ← h, ← toNat_typed_id, BitVec.ofNat_toNat, BitVec.setWidth_eq]

/-- A row that decodes its own frame as the drain does is the decoding of that frame. -/
theorem epcRx_congr {s : State} {e : Nat} {fr : Frame} {f g : Epc → Frame → Epc} (h : ∀ r, f r fr = g r fr) :
    epcRx s e fr f = epcRx s e fr g := by
  simp only [epcRx, h]

theorem epcRx_decodeFrame {s : State} {e n : Nat} {dev : BitVec 7} {data : List Byte} {f : Epc → Frame → Epc}
    (type : BitVec 4) (hn : type.toNat = n)
    (h : ∀ r fr, messageType fr.id = n → decodeFrame s.cfg r fr = f r fr) :
    epcRx s e (rowFrame dev n data) f = epcRx s e ⟨dev ++ type, data⟩ (decodeFrame s.cfg) := by
  rw [rowFrame_eq dev type data hn]
  exact epcRx_congr fun r => (h r _ ((messageType_append dev type).trans hn)).symm

/-- Every row EPC.RX_* is the drain's decoder on the row's frame, for each of the 16 message types (R260). -/
theorem exec_epcRow (s : State) (e : Nat) (dev : BitVec 7) (low : BitVec 1) (data : List Byte) :
    ∀ row ∈ epcRows e dev low data, exec row.2 s = epcRx s e ⟨dev ++ row.1, data⟩ (decodeFrame s.cfg) := by
  have hlow89 : (4#3 ++ low).toNat = 0x8 + low.toNat := by rw [toNat_append_eq_add]; rfl
  have hlowEF : (7#3 ++ low).toNat = 0xE + low.toNat := by rw [toNat_append_eq_add]; rfl
  simp only [epcRows, List.forall_mem_cons, List.not_mem_nil, false_implies, implies_true, and_true]
  refine ⟨?_, ?_, ?_, ?_, ?_, ?_, ?_, ?_, ?_, ?_, ?_, ?_, ?_, ?_⟩
  · exact epcRx_decodeFrame 0x0#4 rfl fun r fr h => by rw [decodeFrame, h]; rfl
  · exact epcRx_decodeFrame 0x1#4 rfl fun r fr h => rfl
  · exact epcRx_decodeFrame 0x2#4 rfl fun r fr h => by rw [decodeFrame, h]; rfl
  · exact epcRx_decodeFrame 0x3#4 rfl fun r fr h => by rw [decodeFrame, h]; rfl
  · exact epcRx_decodeFrame 0x4#4 rfl fun r fr h => by rw [decodeFrame, h]; rfl
  · exact epcRx_decodeFrame 0x5#4 rfl fun r fr h => by rw [decodeFrame, h]; rfl
  · exact epcRx_decodeFrame 0x6#4 rfl fun r fr h => by rw [decodeFrame, h]; rfl
  · exact epcRx_decodeFrame 0x7#4 rfl fun r fr h => by rw [decodeFrame, h]; rfl
  · exact epcRx_decodeFrame _ hlow89 fun r fr h => rfl
  · exact epcRx_decodeFrame 0xA#4 rfl fun r fr h => by rw [decodeFrame, h]; rfl
  · exact epcRx_decodeFrame 0xB#4 rfl fun r fr h => by rw [decodeFrame, h]; rfl
  · exact epcRx_decodeFrame 0xC#4 rfl fun r fr h => by rw [decodeFrame, h]; rfl
  · exact epcRx_decodeFrame 0xD#4 rfl fun r fr h => by rw [decodeFrame, h]; rfl
  · exact epcRx_decodeFrame _ hlowEF fun r fr h => rfl

theorem afterRead_eq_putFrames (s : State) (d : Device) (q : List Frame) : afterRead s d q = s.putFrames d q := rfl

/-- A row EPC.RX_* on the next frame of the call in progress takes it and decodes it. -/
theorem exec_epcRow_next {s : State} {e : Nat} {r : Epc} {q : List Frame} {dev : BitVec 7} {low : BitVec 1}
    {data : List Byte} {row : BitVec 4 × Instr} (hrow : row ∈ epcRows e dev low data)
    (h : EpcDraining s e r ⟨dev ++ row.1, data⟩ q) :
    exec row.2 s = .next { afterRead s (.epc e) q with
      epcs := s.epcs.set e (decodeFrame s.cfg r ⟨dev ++ row.1, data⟩) } := by
  obtain ⟨hr, hdrain⟩ := h
  obtain ⟨x, hx, hframes⟩ := Option.map_eq_some_iff.mp hdrain
  rw [exec_epcRow s e dev low data row hrow]
  exact epcRx_next.mpr ⟨r, x, q, hr, hx, hframes, rfl⟩

/-! ## BMS rows -/

/-- What a row asks of the time of the call in progress: BMS.RX_LAST names it (R303, D44). -/
def RowTimeOk (row : BmsRow) (now callNow : Nat) : Prop := row = .last → callNow = now

/-- A row whose function gives the drain's record, where the row is selected and the time is right, is the processing of
its frame by the drain. -/
theorem bmsRx_processFrame {s t : State} {k : Nat} {fr : Frame} {row : BmsRow} {f : Nat → Bms → Option Bms} (now : Nat)
    (hf : ∀ callNow r r', selectRow r fr = row →
      (f callNow r = some r' ↔ RowTimeOk row now callNow ∧ processFrame r fr callNow = r')) :
    bmsRx s k fr row f = .next t ↔ ∃ r x q, s.bmses[k]? = some r ∧ drainOf s (.bms k) = some x ∧
      x.frames = fr :: q ∧ selectRow r fr = row ∧ RowTimeOk row now x.now ∧
      t = (s.putFrames (.bms k) q).withBms k (processFrame r fr x.now) := by
  rw [bmsRx_next]
  constructor
  · rintro ⟨r, x, q, r', hr, hx, hq, hrow, hr', rfl⟩
    obtain ⟨htime, rfl⟩ := (hf _ _ _ hrow).mp hr'
    exact ⟨r, x, q, hr, hx, hq, hrow, htime, rfl⟩
  · rintro ⟨r, x, q, hr, hx, hq, hrow, htime, rfl⟩
    exact ⟨r, x, q, _, hr, hx, hq, hrow, (hf _ _ _ hrow).mpr ⟨htime, rfl⟩, rfl⟩

/-- As `bmsRx_processFrame`, for the rows that name no time. -/
theorem bmsRx_processFrame_untimed {s t : State} {k : Nat} {fr : Frame} {row : BmsRow} {f : Bms → Bms} (now : Nat)
    (hrow : row ≠ .last) (hf : ∀ callNow r, selectRow r fr = row → processFrame r fr callNow = f r) :
    bmsRx s k fr row (fun _ r => some (f r)) = .next t ↔ ∃ r x q, s.bmses[k]? = some r ∧ drainOf s (.bms k) = some x ∧
      x.frames = fr :: q ∧ selectRow r fr = row ∧ RowTimeOk row now x.now ∧
      t = (s.putFrames (.bms k) q).withBms k (processFrame r fr x.now) := by
  refine bmsRx_processFrame now fun callNow r r' h => ?_
  simp [RowTimeOk, hrow, hf callNow r h]

/-- Everything a row BMS.RX_* can do: it processes its frame as the drain does, at the time of the call in progress
(R300, R309). -/
theorem exec_bmsRow_next {s t : State} {k now : Nat} {id : CanId} {free code : Byte} {fr : Frame}
    {row : BmsRow × Frame × Instr} (hrow : row ∈ bmsRows k id free code fr now) :
    exec row.2.2 s = .next t ↔ ∃ r x q, s.bmses[k]? = some r ∧ drainOf s (.bms k) = some x ∧
      x.frames = row.2.1 :: q ∧ selectRow r row.2.1 = row.1 ∧ RowTimeOk row.1 now x.now ∧
      t = (s.putFrames (.bms k) q).withBms k (processFrame r row.2.1 x.now) := by
  simp only [bmsRows, List.mem_cons, List.not_mem_nil, or_false] at hrow
  rcases hrow with rfl | rfl | rfl | rfl | rfl | rfl
  · exact bmsRx_processFrame_untimed (row := .empty) now (by decide) fun _ r h => by rw [processFrame, h]
  · exact bmsRx_processFrame_untimed (row := .marker) now (by decide) fun _ r h => by rw [processFrame, h]
  · exact bmsRx_processFrame_untimed (row := .seqFault) now (by decide) fun _ r h => by rw [processFrame, h]
  · exact bmsRx_processFrame_untimed (row := .fragment) now (by decide) fun _ r h => by rw [processFrame, h]
  · refine bmsRx_processFrame (row := .last) now fun callNow r r' h => ?_
    by_cases hnow : callNow = now <;> simp [RowTimeOk, hnow, processFrame, h]
  · exact bmsRx_processFrame_untimed (row := .odd) now (by decide) fun _ r h => by rw [processFrame, h]

/-- A row BMS.RX_* on the next frame of the call in progress, which selects it, takes that frame and processes it. -/
theorem exec_bmsRow_of_draining {s : State} {k now : Nat} {b : Bms} {q : List Frame} {id : CanId} {free code : Byte}
    {fr : Frame} {row : BmsRow × Frame × Instr} (hrow : row ∈ bmsRows k id free code fr now)
    (h : BmsDraining s k b row.2.1 q now) (hsel : selectRow b row.2.1 = row.1) :
    exec row.2.2 s = .next { afterRead s (.bms k) q with bmses := s.bmses.set k (processFrame b row.2.1 now) } :=
  (exec_bmsRow_next hrow).mpr ⟨b, _, q, h.1, h.2, rfl, hsel, fun _ => rfl, rfl⟩

end Sys2Proof.Machine
end

section
/-! What a step can do to the state, said once: every operation is a sequence of moves, each one shared operation of the
model with the condition under which it runs. What every step keeps is then shown move by move. -/

namespace Sys2Proof.Machine

open Sys2Proof

/-! ## The moves -/

/-- The worker's part of a step (R196): its steps, each with its selecting condition. -/
inductive WorkerMove (cfg : Config) (n : Node) : Node → Prop
  | start : n.held = none → WorkerMove cfg n { n with phase := .drain }
  | shutdown : n.working = false → WorkerMove cfg n (shutdown n)
  | apply (seq : Nat) (c : Command) (rest : List (Nat × Command)) (tx : TxAnswer) :
      n.halted = false → n.held = none → n.cmdq = (seq, c) :: rest →
      WorkerMove cfg n (applyHead cfg n seq c rest tx)
  | drainEnd : n.held = none → WorkerMove cfg n { n with phase := .poll }
  | poll (ev : BusEvent) : n.halted = false → n.held = none → ev.wf = true → WorkerMove cfg n (pollStep cfg n ev)
  | deliver (fr : Frame) (name : ChanName) (q : List Frame) :
      n.held = some (fr, name) → chanGet n.chans name = some q → q.length < cfg.chanDepth →
      WorkerMove cfg n { n with chans := chanPut n.chans name (q ++ [fr]), held := none }
  | fatal : n.halted = false → WorkerMove cfg n (fatalStep n)

/-- One shared operation on the state, where it runs. -/
inductive Move (s : State) : State → Prop
  | answer (r : Reply) : Move s (s.answer r)
  | enqueue (c : Command) : c.wf = true → Accepting s → Move s (enqueued s c)
  | issue (c : Command) (kind : WaitKind) (target : Nat) : c.wf = true → Accepting s →
      Move s ((enqueued s c).hold ⟨s.node.seq, kind, target⟩)
  | release (w : Wait) : Move s (s.release w)
  | stop : Move s (s.withNode { s.node with working := false })
  | read (k : Nat) (name : ChanName) :
      Move s (s.withNode { s.node with chans := (takeFrames k s.node.chans name).2 })
  | work (n : Node) : WorkerMove s.cfg s.node n → Move s (s.withNode n)
  | decodeFrames (e : Nat) (r : Epc) (frames : List Frame) : s.epcs[e]? = some r →
      Move s (s.withEpc e (frames.foldl (decodeFrame s.cfg) r))
  | addEpc (devId : Nat) (chan : ChanName) (props : EpcProps) : newCheck s.cfg.hwBounds devId props = none →
      Move s (s.addEpc (Epc.reset (BitVec.ofNat 6 devId) chan props))
  | setEpcOpened (e : Nat) (v : Bool) : Move s (s.setEpcOpened e v)
  | addBms (chan : ChanName) (address mask : CanId) (now : Nat) : Move s (s.addBms (Bms.reset chan address mask now))
  | setBmsOpened (b : Nat) (v : Bool) : Move s (s.setBmsOpened b v)
  | processFrame (b : Nat) (r : Bms) (fr : Frame) (now : Nat) : s.bmses[b]? = some r → fr.wf = true →
      Move s (s.withBms b (processFrame r fr now))
  | drainBms (b : Nat) (r : Bms) (now : Nat) : s.bmses[b]? = some r →
      Move s ((s.withNode { s.node with chans := (bmsDrained s r now).1 }).withBms b (bmsDrained s r now).2)
  | timeoutCheck (b : Nat) (r : Bms) (now : Nat) : s.bmses[b]? = some r →
      Move s (s.withBms b (timeoutCheck s.cfg r now))
  | startDrain (d : Device) (name : ChanName) (now : Nat) : (∀ x ∈ s.drains, x.device ≠ d) →
      Move s (startDrain s d name (drainMax s.cfg d) now)
  | nextFrame (d : Device) (x : Drain) (fr : Frame) (q : List Frame) : drainOf s d = some x → x.frames = fr :: q →
      Move s (s.putFrames d q)
  | endDrain (d : Device) : Move s (s.endDrain d)

/-- A sequence of moves. -/
abbrev Moves : State → State → Prop := Relation.ReflTransGen Move

theorem moves_answer (s : State) (r : Reply) : Moves s (s.answer r) := .single (.answer r)

theorem moves_then_answer {s t : State} (h : Moves s t) (r : Reply) : Moves s (t.answer r) := h.tail (.answer r)

/-! ## Host calls -/

theorem frame_wf_of_makeFrame {id dlc : Nat} {payload : List Byte} {fr : Frame}
    (h : makeFrame id dlc payload = .ok fr) : fr.wf = true := by
  rcases makeFrame_cases id dlc payload with ⟨-, he⟩ | ⟨hd, -, hl, hok⟩
  · rw [he] at h; cases h
  · rw [hok] at h
    cases h
    exact decide_eq_true (hl ▸ hd)

/-- The drain of an EPC reads the channel and then decodes what it read (R211). -/
theorem moves_drainEpc {s : State} {e : Nat} {r : Epc} (h : s.epcs[e]? = some r) : Moves s (drainEpc s e r) :=
  .head (.read s.cfg.epcDrainMax r.chan) (.single (.decodeFrames e r _ h))

theorem moves_sendAndDrain {s : State} {e : Nat} {r : Epc} (h : s.epcs[e]? = some r) (check : Option HostError)
    {frame : Except HostError Frame} (hwf : ∀ fr, frame = .ok fr → fr.wf = true) :
    Moves s (sendAndDrain s e r check frame) := by
  rcases sendAndDrain_cases s e r check frame with ⟨err, -, ht⟩ | ⟨err, -, -, ht⟩ | ⟨fr, -, hfr, hsub⟩
  · rw [ht]; exact moves_answer s _
  · rw [ht]; exact moves_answer s _
  · rcases hsub with ⟨-, ht⟩ | ⟨-, -, ht⟩ | ⟨ho, hl, ht⟩
    · rw [ht]; exact moves_answer s _
    · rw [ht]; exact moves_answer s _
    · rw [ht]
      have hsend : Move s (enqueued s (.send fr)) := .enqueue _ (hwf fr hfr) ⟨ho, hl⟩
      exact moves_then_answer (.head hsend (moves_drainEpc h)) _

theorem moves_issueCall (s : State) {c : Command} (hwf : c.wf = true) (kind : WaitKind) (target : Nat) :
    Moves s (issueCall s c kind target) := by
  rcases issueCall_cases s c kind target with ⟨-, ht⟩ | ⟨-, -, ht⟩ | ⟨ho, hl, ht⟩
  · rw [ht]; exact moves_answer s _
  · rw [ht]; exact moves_answer s _
  · rw [ht]
    have hissue : Move s ((enqueued s c).hold ⟨s.node.seq, kind, target⟩) := .issue c kind target hwf ⟨ho, hl⟩
    exact moves_then_answer (.single hissue) _

theorem moves_resumeCall {s t : State} {seq : Nat} {kind : WaitKind} {target : Nat} {good atHalt : State → State}
    (h : resumeCall s seq kind target good atHalt = .next t) (hgood : ∀ u, Moves u (good u))
    (hhalt : ∀ u, Moves u (atHalt u)) : Moves s t := by
  have hrelease : Moves s (s.release ⟨seq, kind, target⟩) := .single (.release _)
  rcases resumeCall_next h with ⟨-, ⟨-, -, rfl⟩ | ⟨-, -, rfl⟩ | ⟨_, -, -, rfl⟩ | ⟨_, _, -, -, rfl⟩⟩
  · exact moves_answer s _
  · exact hrelease.trans (hhalt _)
  · exact hrelease.trans (hgood _)
  · exact moves_then_answer hrelease _

/-- The requests of a monitoring call are submits of REQUEST frames (R223, R227). -/
theorem moves_submitRequests (dev : BitVec 6) (types : List Nat) (s : State) :
    Moves s (s.withNode (submitRequests s.cfg dev types s.node)) := by
  induction types generalizing s with
  | nil => exact .refl
  | cons t ts ih =>
    unfold submitRequests
    cases hf : encodeRequest dev t with
    | error err => exact ih s
    | ok fr =>
      rcases submit_cases s.cfg s.node (.send fr) with ⟨-, h⟩ | ⟨-, -, h⟩ | ⟨ho, hl, h⟩
      · simp only [transmit, h]; exact ih s
      · simp only [transmit, h]; exact ih s
      · simp only [transmit, h]
        have hsend : Move s (enqueued s (.send fr)) := .enqueue _ (frame_wf_of_makeFrame hf) ⟨ho, hl⟩
        exact .head hsend (ih (enqueued s (.send fr)))

theorem moves_requestState (s : State) (r : Epc) (update : Bool) (types : List Nat) :
    Moves s (requestState s r update types) := by
  cases update with
  | false => exact .refl
  | true => exact moves_submitRequests r.devId types s

@[simp] theorem requestState_epcs (s : State) (r : Epc) (update : Bool) (types : List Nat) :
    (requestState s r update types).epcs = s.epcs := by
  cases update <;> rfl

@[simp] theorem requestState_drains (s : State) (r : Epc) (update : Bool) (types : List Nat) :
    (requestState s r update types).drains = s.drains := by
  cases update <;> rfl

@[simp] theorem requestState_cfg (s : State) (r : Epc) (update : Bool) (types : List Nat) :
    (requestState s r update types).cfg = s.cfg := by
  cases update <;> rfl

theorem drains_ne_of_epcFree {s : State} {e : Nat} (h : epcFree s e = true) : ∀ x ∈ s.drains, x.device ≠ .epc e :=
  (epcFree_iff.mp h).2

theorem drains_ne_of_bmsFree {s : State} {b : Nat} (h : bmsFree s b = true) : ∀ x ∈ s.drains, x.device ≠ .bms b :=
  (bmsFree_iff.mp h).2

theorem moves_setMode {s t : State} {e : Nat} {q : LimitType} {m : Mode} {ref lr : Int} {lt : LimitType}
    (h : setMode s e q m ref lt lr = .next t) : Moves s t := by
  obtain ⟨r, hr, -, ht⟩ := onEpc_next.mp h
  cases ht
  exact moves_sendAndDrain hr _ fun _ => frame_wf_of_makeFrame

theorem moves_setLimit {s t : State} {e type : Nat} {q : Quantity} {mx mn : Int}
    (h : setLimit s e q type mx mn = .next t) : Moves s t := by
  obtain ⟨r, hr, -, ht⟩ := onEpc_next.mp h
  cases ht
  exact moves_sendAndDrain hr _ fun _ => frame_wf_of_makeFrame

theorem moves_getData {s t : State} {e : Nat} {call : MonitorCall Bool} (h : execEpcGetData e call s = .next t) :
    Moves s t := by
  cases call with
  | whole update =>
    obtain ⟨r, hr, -, ht⟩ := onEpc_next.mp h
    cases ht
    have hrequest := moves_requestState s r update dataRequests
    exact moves_then_answer (hrequest.trans (moves_drainEpc (by simpa using hr))) _
  | start update =>
    obtain ⟨r, hr, hfree, ht⟩ := onEpc_next.mp h
    cases ht
    have hrequest := moves_requestState s r update dataRequests
    have hstart : Move (requestState s r update dataRequests) _ :=
      .startDrain (.epc e) r.chan 0 (by simpa using drains_ne_of_epcFree hfree)
    rw [requestState_cfg] at hstart
    exact hrequest.tail hstart
  | finish =>
    obtain ⟨r, hr, hfinish⟩ := atEpc_next.mp h
    obtain ⟨x, -, ⟨-, rfl⟩ | ⟨-, rfl⟩⟩ := finishDrain_next.mp hfinish
    · exact moves_then_answer (.single (.endDrain _)) _
    · exact moves_answer s _

theorem moves_getProperties {s t : State} {e : Nat} {update : Bool} (h : execEpcGetProperties e update s = .next t) :
    Moves s t := by
  obtain ⟨r, hr, -, ht⟩ := onEpc_next.mp h
  cases ht
  have hrequest := moves_requestState s r update propertyRequests
  exact moves_then_answer (hrequest.trans (moves_drainEpc (by simpa using hr))) _

theorem moves_epcOpen {s t : State} {e : Nat} {turn : Turn} (h : execEpcOpen e turn s = .next t) : Moves s t := by
  cases turn with
  | issue =>
    obtain ⟨r, -, -, ht⟩ := onEpc_next.mp h
    cases ht
    exact moves_issueCall s rfl _ _
  | resume seq =>
    simp only [execEpcOpen] at h
    exact moves_resumeCall h (fun u => moves_then_answer (.single (.setEpcOpened e true)) _) (fun u => moves_answer u _)

theorem moves_epcClose {s t : State} {e : Nat} {turn : Turn} (h : execEpcClose e turn s = .next t) : Moves s t := by
  cases turn with
  | issue =>
    obtain ⟨r, -, -, ht⟩ := onEpc_next.mp h
    cases ht
    exact moves_issueCall s rfl _ _
  | resume seq =>
    simp only [execEpcClose] at h
    exact moves_resumeCall h (fun u => moves_then_answer (.single (.setEpcOpened e false)) _)
      (fun u => moves_then_answer (.single (.setEpcOpened e false)) _)

theorem moves_epcNew {s t : State} {devId : Nat} {chan : ChanName} {props : EpcProps}
    (h : execEpcNew devId chan props s = .next t) : Moves s t := by
  unfold execEpcNew at h
  split at h
  next err _ => cases h; exact moves_answer s _
  next hcheck => cases h; exact moves_then_answer (.single (.addEpc devId chan props hcheck)) _

theorem moves_bmsNew {s t : State} {chan : ChanName} {address mask : CanId} {now : Nat} {turn : Turn}
    (h : execBmsNew chan address mask now turn s = .next t) : Moves s t := by
  cases turn with
  | issue =>
    cases h
    exact .head (.addBms chan address mask now) (moves_issueCall _ rfl _ _)
  | resume seq =>
    simp only [execBmsNew] at h
    split at h
    next w _ =>
      exact moves_resumeCall h (fun u => moves_then_answer (.single (.setBmsOpened w.target true)) _)
        (fun u => moves_answer u _)
    next => cases h

theorem withBms_withBms (s : State) (b : Nat) (r r' : Bms) : (s.withBms b r).withBms b r' = s.withBms b r' := by
  simp [State.withBms]

theorem withBms_bmses_self {s : State} {b : Nat} {r : Bms} (h : s.bmses[b]? = some r) (r' : Bms) :
    (s.withBms b r').bmses[b]? = some r' := by
  obtain ⟨hb, -⟩ := List.getElem?_eq_some_iff.mp h
  simp [hb]

theorem moves_bmsGetData {s t : State} {b : Nat} {call : MonitorCall Nat} (h : execBmsGetData b call s = .next t) :
    Moves s t := by
  cases call with
  | whole now =>
    obtain ⟨r, hr, -, ht⟩ := onBms_next.mp h
    cases ht
    let u := (s.withNode { s.node with chans := (bmsDrained s r now).1 }).withBms b (bmsDrained s r now).2
    have hdrain : Move s u := .drainBms b r now hr
    have hcheck : Move u _ := .timeoutCheck b (bmsDrained s r now).2 now (withBms_bmses_self hr _)
    rw [withBms_withBms] at hcheck
    exact moves_then_answer (.head hdrain (.single hcheck)) _
  | start now =>
    obtain ⟨r, -, hfree, ht⟩ := onBms_next.mp h
    cases ht
    exact .single (.startDrain (.bms b) r.chan now (drains_ne_of_bmsFree hfree))
  | finish =>
    obtain ⟨r, hr, hfinish⟩ := atBms_next.mp h
    obtain ⟨x, -, ⟨-, rfl⟩ | ⟨-, rfl⟩⟩ := finishDrain_next.mp hfinish
    · have hcheck : Move (s.endDrain (.bms b)) _ := .timeoutCheck b r x.now hr
      exact moves_then_answer (.head (.endDrain _) (.single hcheck)) _
    · exact moves_answer s _

theorem moves_bmsClose {s t : State} {b : Nat} {turn : Turn} (h : execBmsClose b turn s = .next t) : Moves s t := by
  cases turn with
  | issue =>
    obtain ⟨r, -, -, ht⟩ := onBms_next.mp h
    cases ht
    exact moves_issueCall s rfl _ _
  | resume seq =>
    simp only [execBmsClose] at h
    exact moves_resumeCall h (fun u => moves_then_answer (.single (.setBmsOpened b false)) _)
      (fun u => moves_then_answer (.single (.setBmsOpened b false)) _)

/-! ## The worker and the frame rows -/

theorem moves_workerStep {s t : State} {p : Phase} {f : Node → Node} (h : workerStep p s f = .next t)
    (hf : s.node.halted = false → s.node.held = none → WorkerMove s.cfg s.node (f s.node)) : Moves s t := by
  obtain ⟨⟨hhalted, hheld, -⟩, rfl⟩ := workerStep_next.mp h
  exact .single (.work _ (hf hhalted hheld))

theorem moves_applyStep {s t : State} {tx : TxAnswer} {sel : Command → Bool} (h : applyStep s tx sel = .next t) :
    Moves s t := by
  obtain ⟨⟨hhalted, hheld, -⟩, seq, c, rest, hq, -, rfl⟩ := applyStep_next.mp h
  exact .single (.work _ (.apply seq c rest tx hhalted hheld hq))

theorem moves_poll {s t : State} {ev : BusEvent} (hwf : ev.wf = true)
    (h : workerStep .poll s (fun n => pollStep s.cfg n ev) = .next t) : Moves s t :=
  moves_workerStep h fun hhalted hheld => .poll ev hhalted hheld hwf

theorem moves_submitWord {s t : State} {w : BitVec 96} (h : execNodeSubmit w s = .next t) : Moves s t := by
  unfold execNodeSubmit at h
  rcases submitWord_cases s.cfg s.node w with ⟨-, he⟩ | ⟨-, -, he⟩ | ⟨c, -, hword, he⟩
  · rw [he] at h; cases h; exact moves_answer s _
  · rw [he] at h; cases h; exact moves_answer s _
  · rw [he] at h
    rcases submit_cases s.cfg s.node c with ⟨-, hs⟩ | ⟨-, -, hs⟩ | ⟨ho, hl, hs⟩
    · rw [hs] at h; cases h; exact moves_answer s _
    · rw [hs] at h; cases h; exact moves_answer s _
    · rw [hs] at h
      cases h
      have hsend : Move s (enqueued s c) := .enqueue c (wf_of_commandOfWord hword) ⟨ho, hl⟩
      exact moves_then_answer (.single hsend) _

/-- A channel read is a drain's read of one frame (R182, R211). -/
theorem chanRead_snd_eq_takeFrames (m : List (ChanName × List Frame)) (n : ChanName) :
    (chanRead m n).2 = (takeFrames 1 m n).2 := by
  rcases chanRead_cases m n with ⟨-, h⟩ | ⟨-, h⟩ | ⟨fr, q, -, h⟩ <;> simp [takeFrames, h]

theorem moves_chanRead {s t : State} {chan : ChanName} (h : execChanRead chan s = .next t) : Moves s t := by
  unfold execChanRead at h
  have hread : Move s _ := .read 1 chan
  rw [← chanRead_snd_eq_takeFrames] at hread
  split at h
  next => cases h; exact moves_answer s _
  next => cases h; exact moves_answer s _
  next hm => rw [hm] at hread; cases h; exact moves_then_answer (.single hread) _

theorem moves_deliver {s t : State} (h : execWrkDeliver s = .next t) : Moves s t := by
  unfold execWrkDeliver at h
  split at h
  next fr name hheld =>
    split at h
    next q hq =>
      split at h
      next hroom =>
        cases h
        simp only [Bool.and_eq_true, decide_eq_true_eq] at hroom
        exact .single (.work _ (.deliver fr name q hheld hq hroom.2))
      next => cases h
    next => cases h
  next => cases h

theorem moves_epcRow {s t : State} {i : Instr} (e : Nat) (dev : BitVec 7) (low : BitVec 1) (data : List Byte)
    (hrow : i ∈ (epcRows e dev low data).map Prod.snd) (h : exec i s = .next t) : Moves s t := by
  obtain ⟨row, hmem, rfl⟩ := List.mem_map.mp hrow
  rw [exec_epcRow s e dev low data row hmem] at h
  obtain ⟨r, x, q, hr, hx, hq, rfl⟩ := epcRx_next.mp h
  have hdecode : Move (s.putFrames (.epc e) q) _ := .decodeFrames e r [⟨dev ++ row.1, data⟩] hr
  exact .head (.nextFrame _ x _ q hx hq) (.single hdecode)

theorem fragment_wf {b : Nat} {fr : Frame} (h : (handleOk b && fr.hasHeader) = true) : fr.wf = true :=
  wf_of_hasHeader (Bool.and_eq_true_iff.mp h).2

theorem moves_bmsRow {s t : State} (k : Nat) (id : CanId) (free code : Byte) (fr : Frame) (now : Nat)
    (row : BmsRow × Frame × Instr) (hrow : row ∈ bmsRows k id free code fr now) (hwf : row.2.1.wf = true)
    (h : exec row.2.2 s = .next t) : Moves s t := by
  obtain ⟨r, x, q, hr, hx, hq, -, -, rfl⟩ := (exec_bmsRow_next hrow).mp h
  have hprocess : Move (s.putFrames (.bms k) q) _ := .processFrame k r row.2.1 x.now hr hwf
  exact .head (.nextFrame _ x _ q hx hq) (.single hprocess)

/-! ## Every operation -/

theorem moves_of_exec {s t : State} (i : Instr) (hwf : i.wf = true) (h : exec i s = .next t) : Moves s t := by
  cases i
  case filterMatch => cases h; exact moves_answer s _
  case nodeSubmit => exact moves_submitWord h
  case nodeStop => cases h; exact moves_then_answer (.single .stop) _
  case chanRead => exact moves_chanRead h
  case epcSetCvMode | epcSetCcMode | epcSetCpMode => exact moves_setMode h
  case epcSetWaitMode | epcDisable | epcSetPeriodic =>
    obtain ⟨r, hr, -, ht⟩ := onEpc_next.mp h
    cases ht
    exact moves_sendAndDrain hr _ fun _ => frame_wf_of_makeFrame
  case epcSetLsVoltLimit | epcSetLsCurrLimit | epcSetHsVoltLimit | epcSetLsPwrLimit | epcSetTempLimit =>
    exact moves_setLimit h
  case epcGetData => exact moves_getData h
  case epcGetProperties => exact moves_getProperties h
  case epcOpen => exact moves_epcOpen h
  case epcClose => exact moves_epcClose h
  case epcNew => exact moves_epcNew h
  case bmsNew => exact moves_bmsNew h
  case bmsGetData => exact moves_bmsGetData h
  case bmsClose => exact moves_bmsClose h
  case cmdSend | cmdAddFilter | cmdRemoveFilter | wrkApply => exact moves_applyStep h
  case cmdReserved rest => exact moves_submitWord (w := reservedWord rest) h
  case wrkStart =>
    refine moves_workerStep h fun _ hheld => ?_
    unfold startStep
    split
    next => exact .start hheld
    next hworking => exact .shutdown (by simpa using hworking)
  case wrkDrainEnd =>
    simp only [exec, execWrkDrainEnd] at h
    split at h
    next => exact moves_workerStep h fun _ hheld => .drainEnd hheld
    next => cases h
  case wrkPoll ev => exact moves_poll hwf h
  case wrkDeliver => exact moves_deliver h
  case wrkShutdown =>
    simp only [exec, execWrkShutdown] at h
    split at h
    next => cases h
    next hworking => exact moves_workerStep h fun _ _ => .shutdown (by simpa using hworking)
  case wrkFatal =>
    simp only [exec, execWrkFatal] at h
    split at h
    next => cases h
    next hhalted => cases h; exact .single (.work _ (.fatal (by simpa using hhalted)))
  case rxData fr => exact moves_poll (ev := .frame fr) hwf h
  case rxNone => exact moves_poll (ev := .none) rfl h
  case rxErrorFrame => exact moves_poll (ev := .errorFrame) rfl h
  case rxInvalid => exact moves_poll (ev := .invalid) rfl h
  case epcRxMode e dev data | epcRxLsVoltLim e dev data | epcRxLsCurrLim e dev data | epcRxHsVoltLim e dev data |
      epcRxLsPwrLim e dev data | epcRxTempLim e dev data | epcRxPeriodic e dev data | epcRxInfo e dev data |
      epcRxStatus e dev data | epcRxElecMeas e dev data | epcRxTempMeas e dev data | epcRxIgnored e dev data =>
    exact moves_epcRow e dev 0 data (by simp [epcRows]) h
  case epcRxIgnored89 e dev low data | epcRxIgnoredEF e dev low data =>
    exact moves_epcRow e dev low data (by simp [epcRows]) h
  case bmsRxEmpty b id =>
    exact moves_bmsRow b id 0 0 ⟨id, []⟩ 0 (.empty, ⟨id, []⟩, .bmsRxEmpty b id) (by simp [bmsRows]) rfl h
  case bmsRxMarker b id free code =>
    exact moves_bmsRow b id free code ⟨id, []⟩ 0 (.marker, markerFrame id free code, .bmsRxMarker b id free code)
      (by simp [bmsRows, markerFrame]) rfl h
  case bmsRxSeqFault b fr =>
    exact moves_bmsRow b 0 0 0 fr 0 (.seqFault, fr, .bmsRxSeqFault b fr) (by simp [bmsRows]) (fragment_wf hwf) h
  case bmsRxFragment b fr =>
    exact moves_bmsRow b 0 0 0 fr 0 (.fragment, fr, .bmsRxFragment b fr) (by simp [bmsRows]) (fragment_wf hwf) h
  case bmsRxLast b fr now =>
    have hfragment := (Bool.and_eq_true_iff.mp hwf).1
    exact moves_bmsRow b 0 0 0 fr now (.last, fr, .bmsRxLast b fr now) (by simp [bmsRows]) (fragment_wf hfragment) h
  case bmsRxOdd b fr =>
    exact moves_bmsRow b 0 0 0 fr 0 (.odd, fr, .bmsRxOdd b fr) (by simp [bmsRows]) (fragment_wf hwf) h

/-- A step takes its operation from the agenda or the environment and then makes moves. -/
theorem moves_of_step {s t : State} (h : step s = .next t) :
    ∃ agenda draws, Moves { s with agenda := agenda, draws := draws } t := by
  obtain ⟨i, hdecode, hexec⟩ := step_next h
  have hmoves := moves_of_exec i (wf_of_decode hdecode) hexec
  rcases fetch_cases s with ⟨m, rest, -, hfetch⟩ | ⟨-, hfetch⟩
  · exact ⟨rest, s.draws, by rwa [hfetch] at hmoves⟩
  · exact ⟨s.agenda, s.draws + 1, by rwa [hfetch] at hmoves⟩

/-- What every move keeps, and what does not depend on the agenda, every step keeps. -/
theorem step_keeps {P : State → Prop} (hagenda : ∀ s agenda draws, P s → P { s with agenda := agenda, draws := draws })
    (hmove : ∀ s t, Move s t → P s → P t) {s t : State} (h : step s = .next t) (hs : P s) : P t := by
  obtain ⟨agenda, draws, hmoves⟩ := moves_of_step h
  clear h
  induction hmoves with
  | refl => exact hagenda s agenda draws hs
  | tail _ hlast ih => exact hmove _ _ hlast ih

end Sys2Proof.Machine
end

section
/-! The node record's invariant is kept by every move (R35 to R40, R44, R110, R465). It falls into the filter table, the
channels, the queue and the halt, each kept by the updates that reach it. -/

namespace Sys2Proof.Machine

open Sys2Proof

/-! ## The filter table (R37) -/

theorem TableOk.append {cfg : Config} {n : Node} (h : TableOk cfg n) {fe : FilterEntry}
    (hkey : sameKey n.filters fe = none) (hchan : ∀ g ∈ n.filters, g.chan ≠ fe.chan)
    (hlen : n.filters.length ≠ cfg.nFilters) (chans : List (ChanName × List Frame)) :
    TableOk cfg { n with filters := n.filters ++ [fe], chans := chans } := by
  obtain ⟨hmax, hpair⟩ := h
  refine ⟨by simp; omega, List.pairwise_append.mpr ⟨hpair, List.pairwise_singleton _ _, fun g hg f hf => ?_⟩⟩
  obtain rfl := List.mem_singleton.mp hf
  exact ⟨sameKey_none.mp hkey g hg, hchan g hg⟩

theorem TableOk.filter {cfg : Config} {n : Node} (h : TableOk cfg n) (p : FilterEntry → Bool) (m : Node)
    (hm : m.filters = n.filters.filter p) : TableOk cfg m := by
  obtain ⟨hmax, hpair⟩ := h
  rw [TableOk, hm]
  exact ⟨(List.length_filter_le _ _).trans hmax, hpair.filter p⟩

/-- Two entries of the table with one channel are one entry. -/
theorem TableOk.eq_of_chan_eq {cfg : Config} {n : Node} (h : TableOk cfg n) {f g : FilterEntry} (hf : f ∈ n.filters)
    (hg : g ∈ n.filters) (hchan : f.chan = g.chan) : f = g :=
  List.inj_on_of_nodup_map (List.pairwise_map.mpr (h.2.imp And.right)) hf hg hchan

/-! ## The channels (R39, R44, R110) -/

/-- Binding a name keeps every bound name bound. -/
theorem isSome_chanGet_put {m : List (ChanName × List Frame)} {n : ChanName} {q : List Frame} {n' : ChanName}
    (h : (chanGet m n').isSome = true) : (chanGet (chanPut m n q) n').isSome = true := by
  by_cases hn : n = n'
  · subst hn; simp [chanGet_put_same]
  · rwa [chanGet_put_other _ _ hn]

/-- The channels agree with the table, the held frame waits for one of them, and all their frames are frames. -/
structure ChannelsInv (cfg : Config) (n : Node) : Prop where
  chans : ChansOk cfg n
  held : HeldOk cfg n
  frames : ∀ p ∈ n.chans, ∀ fr ∈ p.2, fr.wf = true
  heldFrame : ∀ p ∈ n.held.toList, p.1.wf = true

theorem ChannelsInv.length_le {cfg : Config} {n : Node} (h : ChannelsInv cfg n) {name : ChanName} {q : List Frame}
    (hget : chanGet n.chans name = some q) : q.length ≤ cfg.chanDepth :=
  h.chans.2.1 _ (mem_of_chanGet hget)

theorem ChannelsInv.wf {cfg : Config} {n : Node} (h : ChannelsInv cfg n) {name : ChanName} {q : List Frame}
    (hget : chanGet n.chans name = some q) : ∀ fr ∈ q, fr.wf = true :=
  h.frames _ (mem_of_chanGet hget)

/-- A bound channel may hold any frames, up to its depth. -/
theorem ChannelsInv.put {cfg : Config} {n : Node} (h : ChannelsInv cfg n) {name : ChanName} {old new : List Frame}
    (hget : chanGet n.chans name = some old) (hlen : new.length ≤ cfg.chanDepth) (hwf : ∀ fr ∈ new, fr.wf = true) :
    ChannelsInv cfg { n with chans := chanPut n.chans name new } := by
  obtain ⟨⟨hsorted, hdepth, hbound, hfilter⟩, hheld, hframes, hheldFrame⟩ := h
  refine ⟨⟨chansSorted_put _ _ hsorted, fun p hp => ?_, fun f hf => isSome_chanGet_put (hbound f hf), fun p hp => ?_⟩,
    fun p hp => ?_, fun p hp => ?_, hheldFrame⟩
  · rcases mem_chanPut hp with rfl | hp
    · exact hlen
    · exact hdepth p hp
  · rcases mem_chanPut hp with rfl | hp
    · exact hfilter (name, old) (mem_of_chanGet hget)
    · exact hfilter p hp
  · obtain ⟨hpolicy, hphase, hsome⟩ := hheld p hp
    exact ⟨hpolicy, hphase, isSome_chanGet_put hsome⟩
  · rcases mem_chanPut hp with rfl | hp
    · exact hwf
    · exact hframes p hp

/-- A frame goes to the end of a bound channel with room (R171, R188). -/
theorem ChannelsInv.append {cfg : Config} {n : Node} (h : ChannelsInv cfg n) {name : ChanName} {q : List Frame}
    {fr : Frame} (hget : chanGet n.chans name = some q) (hroom : q.length < cfg.chanDepth) (hwf : fr.wf = true) :
    ChannelsInv cfg { n with chans := chanPut n.chans name (q ++ [fr]) } := by
  refine h.put hget (by simpa using hroom) fun x hx => ?_
  rcases List.mem_append.mp hx with hx | hx
  · exact h.wf hget x hx
  · exact List.mem_singleton.mp hx ▸ hwf

/-- Without a held frame the phase is free (R44). -/
theorem ChannelsInv.unheld {cfg : Config} {n : Node} (h : ChannelsInv cfg n) (phase : Phase) :
    ChannelsInv cfg { n with held := none, phase := phase } :=
  ⟨h.chans, by simp, h.frames, by simp⟩

/-- A frame is held for a bound channel, at the boundary, under BLOCK (R44, R171). -/
theorem ChannelsInv.hold {cfg : Config} {n : Node} (h : ChannelsInv cfg n) {fr : Frame} {name : ChanName}
    {q : List Frame} (hpolicy : cfg.chanFullPolicy = .block) (hget : chanGet n.chans name = some q)
    (hwf : fr.wf = true) : ChannelsInv cfg { n with held := some (fr, name), phase := .start } := by
  refine ⟨h.chans, ?_, h.frames, ?_⟩
  · simp [hpolicy, hget]
  · simpa using hwf

/-- A new entry of the table has an empty channel (R172). -/
theorem ChannelsInv.addFilter {cfg : Config} {n : Node} (h : ChannelsInv cfg n) (fe : FilterEntry) :
    ChannelsInv cfg { n with filters := n.filters ++ [fe], chans := chanPut n.chans fe.chan [] } := by
  obtain ⟨⟨hsorted, hdepth, hbound, hfilter⟩, hheld, hframes, hheldFrame⟩ := h
  refine ⟨⟨chansSorted_put _ _ hsorted, fun p hp => ?_, fun f hf => ?_, fun p hp => ?_⟩, fun p hp => ?_,
    fun p hp => ?_, hheldFrame⟩
  · rcases mem_chanPut hp with rfl | hp
    · simp
    · exact hdepth p hp
  · rcases List.mem_append.mp hf with hf | hf
    · exact isSome_chanGet_put (hbound f hf)
    · obtain rfl := List.mem_singleton.mp hf
      simp [chanGet_put_same]
  · rcases mem_chanPut hp with rfl | hp
    · exact ⟨fe, by simp, rfl⟩
    · obtain ⟨f, hf, hchan⟩ := hfilter p hp
      exact ⟨f, List.mem_append_left _ hf, hchan⟩
  · obtain ⟨hpolicy, hphase, hsome⟩ := hheld p hp
    exact ⟨hpolicy, hphase, isSome_chanGet_put hsome⟩
  · rcases mem_chanPut hp with rfl | hp
    · simp
    · exact hframes p hp

/-- An entry leaves the table together with its channel (R175). -/
theorem ChannelsInv.removeFilter {cfg : Config} {n : Node} (h : ChannelsInv cfg n) (ht : TableOk cfg n)
    (hheld : n.held = none) {g : FilterEntry} (hg : g ∈ n.filters) :
    ChannelsInv cfg { n with
      filters := n.filters.filter (· ≠ g), chans := chanDel n.chans g.chan, held := discardHeld n.held g.chan } := by
  obtain ⟨⟨hsorted, hdepth, hbound, hfilter⟩, -, hframes, -⟩ := h
  refine ⟨⟨chansSorted_del _ hsorted, fun p hp => ?_, fun f hf => ?_, fun p hp => ?_⟩, by simp [hheld, discardHeld],
    fun p hp => ?_, by simp [hheld, discardHeld]⟩
  · exact hdepth p (List.mem_filter.mp hp).1
  · obtain ⟨hf, hne⟩ := List.mem_filter.mp hf
    have hchan : g.chan ≠ f.chan := fun heq => absurd (ht.eq_of_chan_eq hf hg heq.symm) (by simpa using hne)
    simpa only [chanGet_del_other _ hchan] using hbound f hf
  · obtain ⟨hp, hname⟩ := List.mem_filter.mp hp
    obtain ⟨f, hf, hchan⟩ := hfilter p hp
    have hne : f ≠ g := fun heq => absurd hchan.symm (heq ▸ by simpa using hname)
    exact ⟨f, List.mem_filter.mpr ⟨hf, by simpa using hne⟩, hchan⟩
  · exact hframes p (List.mem_filter.mp hp).1

/-- The reads of a drain keep the channels, and read frames. -/
theorem ChannelsInv.takeFrames {cfg : Config} {n : Node} (h : ChannelsInv cfg n) (k : Nat) (name : ChanName) :
    ChannelsInv cfg { n with chans := (takeFrames k n.chans name).2 } ∧
    ∀ fr ∈ (Machine.takeFrames k n.chans name).1, fr.wf = true := by
  induction k generalizing n with
  | zero => exact ⟨h, by simp [Machine.takeFrames]⟩
  | succ k ih =>
    rcases chanRead_cases n.chans name with ⟨-, hr⟩ | ⟨-, hr⟩ | ⟨fr, q, hget, hr⟩
    · simpa [Machine.takeFrames, hr] using h
    · simpa [Machine.takeFrames, hr] using h
    · have hlen := h.length_le hget
      have hwf := h.wf hget
      have hput : ChannelsInv cfg { n with chans := chanPut n.chans name q } :=
        h.put hget (by simp at hlen; omega) fun x hx => hwf x (.tail _ hx)
      obtain ⟨hchans, hread⟩ := ih hput
      simp only [Machine.takeFrames, hr]
      exact ⟨hchans, List.forall_mem_cons.mpr ⟨hwf fr (.head _), hread⟩⟩

/-! ## The queue and the results (R38, R40, R465) -/

/-- The queue has room for its commands, numbers stand in order, and the queued commands are commands. -/
structure QueueInv (cfg : Config) (n : Node) : Prop where
  queue : QueueOk cfg n
  seq : SeqOk n
  commands : ∀ c ∈ n.cmdq, c.2.wf = true

theorem QueueInv.enqueue {cfg : Config} {n : Node} (h : QueueInv cfg n) {c : Command} (hwf : c.wf = true)
    (hlen : n.cmdq.length ≠ cfg.cmdDepth) :
    QueueInv cfg { n with cmdq := n.cmdq ++ [(n.seq, c)], seq := n.seq + 1 } := by
  obtain ⟨hmax, ⟨horder, hlt⟩, hcommands⟩ := h
  refine ⟨by simp [QueueOk] at hmax ⊢; omega, ⟨?_, ?_⟩, ?_⟩
  · simp only [List.map_append, ← List.append_assoc]
    refine List.pairwise_append.mpr ⟨horder, List.pairwise_singleton _ _, fun q hq p hp => ?_⟩
    obtain rfl := List.mem_singleton.mp hp
    exact hlt q hq
  · simp only [List.map_append, ← List.append_assoc]
    intro q hq
    rcases List.mem_append.mp hq with hq | hq
    · exact (hlt q hq).trans (Nat.lt_succ_self _)
    · obtain rfl := List.mem_singleton.mp hq
      exact Nat.lt_succ_self _
  · intro p hp
    rcases List.mem_append.mp hp with hp | hp
    · exact hcommands p hp
    · obtain rfl := List.mem_singleton.mp hp
      exact hwf

/-- The head command gives up its place in the queue for one among the results (R170). -/
theorem QueueInv.record {cfg : Config} {n m : Node} (h : QueueInv cfg n) {seq : Nat} {c : Command}
    {rest : List (Nat × Command)} (hq : n.cmdq = (seq, c) :: rest) (out : CmdOutcome) (hrest : m.cmdq = rest)
    (hresults : m.results = n.results ++ [(seq, out)]) (hseq : m.seq = n.seq) : QueueInv cfg m := by
  obtain ⟨hmax, horder, hcommands⟩ := h
  have hnumbers : m.results.map Prod.fst ++ m.cmdq.map Prod.fst = n.results.map Prod.fst ++ n.cmdq.map Prod.fst := by
    simp [hq, hrest, hresults]
  refine ⟨?_, ?_, fun p hp => hcommands p ?_⟩
  · rw [QueueOk, hq] at hmax
    rw [QueueOk, hrest]
    exact (Nat.le_succ _).trans hmax
  · rwa [SeqOk, hnumbers, hseq]
  · rw [hrest] at hp
    exact hq ▸ .tail _ hp

theorem QueueInv.clear {cfg : Config} {n m : Node} (h : QueueInv cfg n) (hq : m.cmdq = [])
    (hresults : m.results = n.results) (hseq : m.seq = n.seq) : QueueInv cfg m := by
  obtain ⟨-, ⟨horder, hlt⟩, -⟩ := h
  refine ⟨by simp [hq], ?_, by simp [hq]⟩
  rw [SeqOk, hq, hresults, hseq, List.map_nil, List.append_nil]
  exact ⟨(List.pairwise_append.mp horder).1, fun q hm => hlt q (List.mem_append_left _ hm)⟩

/-! ## The halt (R35, R194) -/

/-- What stays of a running node's halt record under an update that does not halt it. -/
theorem HaltOk.running {n m : Node} (h : HaltOk n) (hrun : n.halted = false) (hhalted : m.halted = n.halted)
    (hopen : m.cmdqOpen = n.cmdqOpen) (hbus : m.busHeld = n.busHeld) : HaltOk m := by
  obtain ⟨ho, hb, -⟩ := h
  rw [hrun] at ho hb
  refine ⟨?_, ?_, ?_⟩ <;> simp [hhalted, hopen, hbus, hrun, ho, hb]

theorem HaltOk.not_halted_of_held {n : Node} (h : HaltOk n) {p : Frame × ChanName} (hheld : n.held = some p) :
    n.halted = false := by
  by_contra hhalted
  have := (h.2.2 (by simpa using hhalted)).2.2.2.2
  simp [hheld] at this

theorem HaltOk.not_halted_of_open {n : Node} (h : HaltOk n) (ho : n.cmdqOpen = true) : n.halted = false := by
  simpa [ho] using h.1

/-! ## The node record -/

theorem nodeInv_iff {cfg : Config} {n : Node} :
    NodeInv cfg n ↔ TableOk cfg n ∧ ChannelsInv cfg n ∧ QueueInv cfg n ∧ HaltOk n := by
  constructor
  · rintro ⟨htable, hchans, hqueue, hseq, hhalt, hheld, hframes, hcommands, hheldFrame⟩
    exact ⟨htable, ⟨hchans, hheld, hframes, hheldFrame⟩, ⟨hqueue, hseq, hcommands⟩, hhalt⟩
  · rintro ⟨htable, ⟨hchans, hheld, hframes, hheldFrame⟩, ⟨hqueue, hseq, hcommands⟩, hhalt⟩
    exact ⟨htable, hchans, hqueue, hseq, hhalt, hheld, hframes, hcommands, hheldFrame⟩

theorem nodeInv_enqueue {cfg : Config} {n : Node} (h : NodeInv cfg n) {c : Command} (hwf : c.wf = true)
    (ho : n.cmdqOpen = true) (hlen : n.cmdq.length ≠ cfg.cmdDepth) :
    NodeInv cfg { n with cmdq := n.cmdq ++ [(n.seq, c)], seq := n.seq + 1 } := by
  obtain ⟨htable, ⟨hchans, hheld, hframes, hheldFrame⟩, hqueue, hhalt⟩ := nodeInv_iff.mp h
  exact nodeInv_iff.mpr ⟨htable, ⟨hchans, hheld, hframes, hheldFrame⟩, hqueue.enqueue hwf hlen,
    hhalt.running (hhalt.not_halted_of_open ho) rfl rfl rfl⟩

theorem nodeInv_stop {cfg : Config} {n : Node} (h : NodeInv cfg n) : NodeInv cfg { n with working := false } := by
  obtain ⟨htable, ⟨hchans, hheld, hframes, hheldFrame⟩, ⟨hqueue, hseq, hcommands⟩, hopen, hbus, hhalted⟩ :=
    nodeInv_iff.mp h
  exact nodeInv_iff.mpr ⟨htable, ⟨hchans, hheld, hframes, hheldFrame⟩, ⟨hqueue, hseq, hcommands⟩, hopen, hbus,
    fun hh => ⟨rfl, (hhalted hh).2⟩⟩

theorem takeFrames_nil (k : Nat) (name : ChanName) : takeFrames k [] name = ([], []) :=
  (takeFrames_spec k [] name).1 rfl

theorem nodeInv_read {cfg : Config} {n : Node} (h : NodeInv cfg n) (k : Nat) (name : ChanName) :
    NodeInv cfg { n with chans := (takeFrames k n.chans name).2 } := by
  obtain ⟨htable, hchannels, ⟨hqueue, hseq, hcommands⟩, hopen, hbus, hhalted⟩ := nodeInv_iff.mp h
  refine nodeInv_iff.mpr ⟨htable, (hchannels.takeFrames k name).1, ⟨hqueue, hseq, hcommands⟩, hopen, hbus, fun hh => ?_⟩
  obtain ⟨hworking, hfilters, hchans, hrest⟩ := hhalted hh
  exact ⟨hworking, hfilters, by simp [hchans, takeFrames_nil], hrest⟩

/-- What the application of a command can change of the node: nothing, a new entry, or an entry gone (R172, R175). -/
theorem applyCommand_node_cases (cfg : Config) (n : Node) (c : Command) (tx : TxAnswer) :
    (applyCommand cfg n c tx).2 = n ∨
    (∃ fe, sameKey n.filters fe = none ∧ (∀ g ∈ n.filters, g.chan ≠ fe.chan) ∧ n.filters.length ≠ cfg.nFilters ∧
      (applyCommand cfg n c tx).2 = { n with filters := n.filters ++ [fe], chans := chanPut n.chans fe.chan [] }) ∨
    (∃ g ∈ n.filters, (applyCommand cfg n c tx).2 = { n with
      filters := n.filters.filter (· ≠ g), chans := chanDel n.chans g.chan, held := discardHeld n.held g.chan }) := by
  cases c with
  | send fr => rcases applySend_cases n fr tx with ⟨-, h⟩ | ⟨-, h⟩ <;> exact .inl (congrArg Prod.snd h)
  | addFilter fe =>
    rcases applyAdd_cases cfg n fe with ⟨_, -, -, h⟩ | ⟨_, -, -, h⟩ | ⟨-, -, h⟩ | ⟨-, -, -, h⟩ | ⟨hkey, hchan, hlen, h⟩
    iterate 4 exact .inl (congrArg Prod.snd h)
    exact .inr (.inl ⟨fe, hkey, hchan, hlen, congrArg Prod.snd h⟩)
  | removeFilter fe =>
    rcases applyRemove_cases n fe with ⟨-, h⟩ | ⟨_, -, -, h⟩ | ⟨g, hkey, -, h⟩
    iterate 2 exact .inl (congrArg Prod.snd h)
    exact .inr (.inr ⟨g, (sameKey_some hkey).1, congrArg Prod.snd h⟩)

theorem nodeInv_applyHead {cfg : Config} {n : Node} (h : NodeInv cfg n) {seq : Nat} {c : Command}
    {rest : List (Nat × Command)} (tx : TxAnswer) (hrun : n.halted = false) (hheld : n.held = none)
    (hq : n.cmdq = (seq, c) :: rest) : NodeInv cfg (applyHead cfg n seq c rest tx) := by
  obtain ⟨htable, hchannels, hqueue, hhalt⟩ := nodeInv_iff.mp h
  rw [nodeInv_iff, applyHead]
  rcases applyCommand_node_cases cfg { n with cmdq := rest } c tx with
    hnode | ⟨fe, hkey, hchan, hlen, hnode⟩ | ⟨g, hg, hnode⟩
  · simp only [hnode]
    exact ⟨htable, ⟨hchannels.chans, hchannels.held, hchannels.frames, hchannels.heldFrame⟩,
      hqueue.record hq _ rfl rfl rfl, hhalt.running hrun rfl rfl rfl⟩
  · simp only [hnode]
    obtain ⟨hchans, hheldOk, hframes, hheldFrame⟩ := hchannels.addFilter fe
    exact ⟨htable.append hkey hchan hlen n.chans, ⟨hchans, hheldOk, hframes, hheldFrame⟩,
      hqueue.record hq _ rfl rfl rfl, hhalt.running hrun rfl rfl rfl⟩
  · simp only [hnode]
    obtain ⟨hchans, hheldOk, hframes, hheldFrame⟩ := hchannels.removeFilter htable hheld hg
    exact ⟨htable.filter _ _ rfl, ⟨hchans, hheldOk, hframes, hheldFrame⟩,
      hqueue.record hq _ rfl rfl rfl, hhalt.running hrun rfl rfl rfl⟩

/-- An update of the channels, the held frame and the phase of a running node reaches nothing else (R171, R188, R191). -/
theorem nodeInv_of_channels {cfg : Config} {n : Node} (h : NodeInv cfg n) (hrun : n.halted = false)
    {chans : List (ChanName × List Frame)} {held : Option (Frame × ChanName)} {phase : Phase}
    (hchannels : ChannelsInv cfg { n with chans := chans, held := held, phase := phase }) :
    NodeInv cfg { n with chans := chans, held := held, phase := phase } := by
  obtain ⟨htable, -, ⟨hqueue, hseq, hcommands⟩, hhalt⟩ := nodeInv_iff.mp h
  exact nodeInv_iff.mpr ⟨htable, hchannels, ⟨hqueue, hseq, hcommands⟩, hhalt.running hrun rfl rfl rfl⟩

/-- Ending an iteration or the drain changes the phase only; no frame is held there (R190, R191). -/
theorem nodeInv_phase {cfg : Config} {n : Node} (h : NodeInv cfg n) (hheld : n.held = none) (phase : Phase) :
    NodeInv cfg { n with phase := phase } := by
  obtain ⟨htable, ⟨hchans, -, hframes, hheldFrame⟩, ⟨hqueue, hseq, hcommands⟩, hhalt⟩ := nodeInv_iff.mp h
  exact nodeInv_iff.mpr ⟨htable, ⟨hchans, by simp [HeldOk, hheld], hframes, hheldFrame⟩, ⟨hqueue, hseq, hcommands⟩, hhalt⟩

theorem nodeInv_dispatch {cfg : Config} {n : Node} (h : NodeInv cfg n) (hrun : n.halted = false) (hheld : n.held = none)
    {fr : Frame} (hwf : fr.wf = true) : NodeInv cfg { dispatch cfg n fr with phase := .start } := by
  obtain ⟨-, hchannels, -, -⟩ := nodeInv_iff.mp h
  have hidle := nodeInv_phase h hheld .start
  rcases dispatch_cases cfg n fr with ⟨-, hd⟩ | ⟨f, -, -, hd⟩ | ⟨f, q, -, hget, hroom, hd⟩ | ⟨f, q, -, -, -, -, hd⟩ |
    ⟨f, q, -, hget, -, hpolicy, hd⟩
  · rwa [hd]
  · rwa [hd]
  · rw [hd]
    have hput := hchannels.append hget hroom hwf
    simpa only [← hheld] using nodeInv_of_channels h hrun (hput.unheld .start)
  · rwa [hd]
  · rw [hd]
    exact nodeInv_of_channels h hrun (hchannels.hold hpolicy hget hwf)

theorem nodeInv_shutdown {cfg : Config} {n : Node} (h : NodeInv cfg n) (hworking : n.working = false) :
    NodeInv cfg (shutdown n) := by
  obtain ⟨-, -, hqueue, -⟩ := nodeInv_iff.mp h
  exact nodeInv_iff.mpr ⟨⟨Nat.zero_le _, .nil⟩,
    ⟨⟨rfl, nofun, nofun, nofun⟩, nofun, nofun, nofun⟩, hqueue.clear rfl rfl rfl, rfl, rfl,
    fun _ => ⟨hworking, rfl, rfl, rfl, rfl⟩⟩

theorem nodeInv_worker {cfg : Config} {n m : Node} (h : NodeInv cfg n) (hm : WorkerMove cfg n m) : NodeInv cfg m := by
  obtain ⟨htable, hchannels, ⟨hqueue, hseq, hcommands⟩, hhalt⟩ := nodeInv_iff.mp h
  cases hm with
  | start hheld => exact nodeInv_phase h hheld .drain
  | shutdown hworking => exact nodeInv_shutdown h hworking
  | apply seq c rest tx hrun hheld hq => exact nodeInv_applyHead h tx hrun hheld hq
  | drainEnd hheld => exact nodeInv_phase h hheld .poll
  | poll ev hrun hheld hwf =>
    cases ev with
    | frame fr => exact nodeInv_dispatch h hrun hheld hwf
    | none => exact nodeInv_phase h hheld .start
    | errorFrame => exact nodeInv_phase h hheld .start
    | invalid => exact nodeInv_phase h hheld .start
  | deliver fr name q hheld hget hroom =>
    have hput := hchannels.append hget hroom (hchannels.heldFrame (fr, name) (by simp [hheld]))
    exact nodeInv_of_channels h (hhalt.not_halted_of_held hheld) (hput.unheld n.phase)
  | fatal hrun =>
    have hidle := nodeInv_of_channels h hrun (hchannels.unheld .start)
    exact nodeInv_stop hidle

end Sys2Proof.Machine
end

section
/-! The invariant of the block (10_state.md, R67 to R71, R211, R274, R309, R469) is kept by every step and holds at
creation; no step restarts the node or forgets (R34, R35, R40, R73). -/

namespace Sys2Proof.Machine

open Sys2Proof

/-! ## The records of a device -/

theorem propMax_setPair (p : EpcProps) (q q' : Quantity) (mx mn : BitVec 16) :
    propMax (setPair p q mx mn) q' = if q' = q then mx else propMax p q' := by
  cases q <;> cases q' <;> rfl

theorem propMin_setPair (p : EpcProps) (q q' : Quantity) (mx mn : BitVec 16) :
    propMin (setPair p q mx mn) q' = if q' = q then mn else propMin p q' := by
  cases q <;> cases q' <;> rfl

theorem epcInv_decodeLimit {cfg : Config} {r : Epc} (h : EpcInv cfg r) (q : Quantity) (fr : Frame) :
    EpcInv cfg (decodeLimit cfg.hwBounds q r fr) := by
  unfold decodeLimit
  split
  next => exact h
  next =>
    dsimp only
    split
    next hwithin =>
      intro q' hq'
      rw [propMax_setPair, propMin_setPair]
      by_cases hq : q' = q
      · simpa [hq] using hwithin
      · simpa [hq] using h q' hq'
    next => exact h

/-- Decoding any frame keeps the properties within the hardware bounds (R274): only the limit frames write them. -/
theorem epcInv_decodeFrame {cfg : Config} {r : Epc} (h : EpcInv cfg r) (fr : Frame) :
    EpcInv cfg (decodeFrame cfg r fr) := by
  unfold decodeFrame
  split
  case h_2 | h_3 | h_4 | h_5 | h_6 => exact epcInv_decodeLimit h _ fr
  case h_1 =>
    unfold decodeMode
    repeat' split
    all_goals exact h
  case h_7 => unfold decodePeriodic; split <;> exact h
  case h_8 => unfold decodeInfo; split <;> exact h
  case h_9 => unfold decodeStatus; split <;> exact h
  case h_10 => unfold decodeElec; split <;> exact h
  case h_11 => exact h
  case h_12 => exact h

theorem epcInv_decodeFrames {cfg : Config} {r : Epc} (h : EpcInv cfg r) (frames : List Frame) :
    EpcInv cfg (frames.foldl (decodeFrame cfg) r) := by
  induction frames generalizing r with
  | nil => exact h
  | cons fr frames ih => exact ih (epcInv_decodeFrame h fr)

theorem firstOutside_eq_none_iff {ok : Int → Bool} {vs : List Int} :
    firstOutside ok vs = none ↔ ∀ v ∈ vs, ok v = true := by
  induction vs with
  | nil => simp [firstOutside]
  | cons v vs ih =>
    cases hv : ok v with
    | false => simp [firstOutside, hv]
    | true => simp [firstOutside, hv, ih]

theorem propsCheck_eq_none_iff {h : HwBounds} {p : EpcProps} {qs : List Quantity} :
    propsCheck h p qs = none ↔ ∀ q ∈ qs, pairWithin h q (propMax p q) (propMin p q) = true := by
  induction qs with
  | nil => simp [propsCheck]
  | cons q qs ih =>
    have hpair : firstOutside (inBounds (h.of q)) [fieldValue q (propMax p q), fieldValue q (propMin p q)] = none ↔
        pairWithin h q (propMax p q) (propMin p q) = true := by
      simp [firstOutside_eq_none_iff, pairWithin]
    rw [propsCheck, List.forall_mem_cons, ← hpair]
    cases firstOutside (inBounds (h.of q)) [fieldValue q (propMax p q), fieldValue q (propMin p q)] with
    | none => simp [ih]
    | some err => simp

/-- A constructed EPC has its properties within the hardware bounds (R226). -/
theorem epcInv_new {cfg : Config} {devId : Nat} {props : EpcProps} (h : newCheck cfg.hwBounds devId props = none)
    (chan : ChanName) : EpcInv cfg (Epc.reset (BitVec.ofNat 6 devId) chan props) := by
  unfold newCheck at h
  split at h
  · cases h
  · exact propsCheck_eq_none_iff.mp h

theorem bmsInv_reset (chan : ChanName) (address mask : CanId) (now : Nat) : BmsInv (Bms.reset chan address mask now) := by
  simp [BmsInv, Bms.reset]

theorem length_pack (buf : List Byte) : (pack buf).length = 19 := by simp [pack]

theorem fragmentIndex_lt (header : Byte) : fragmentIndex header < 16 := by
  simp only [fragmentIndex, bits]
  omega

/-- A frame selects the row of a fragment only with the index expected next (R300, R303). -/
theorem nextIdx_of_selectRow_fragment {b : Bms} {fr : Frame} (h : selectRow b fr = .fragment) :
    b.nextIdx < 16 ∧ 1 ≤ fr.data.length := by
  unfold selectRow at h
  split at h
  next => cases h
  next header data hdata =>
    by_cases hidx : fragmentIndex header = b.nextIdx
    · exact ⟨hidx ▸ fragmentIndex_lt header, by simp [hdata]⟩
    · by_cases hmarker : isMarker fr = true <;> simp [hidx, hmarker] at h

/-- Processing a frame keeps the accumulator bounded (R67, R68): only an in-order fragment makes it longer, by at most
seven bytes, and its index has four bits. -/
theorem bmsInv_processFrame {b : Bms} (h : BmsInv b) {fr : Frame} (hwf : fr.wf = true) (now : Nat) :
    BmsInv (processFrame b fr now) := by
  obtain ⟨hidx, hbuf, hsnap, hcause⟩ := h
  unfold processFrame
  cases hrow : selectRow b fr with
  | empty => exact ⟨hidx, hbuf, hsnap, hcause⟩
  | marker => exact ⟨hidx, hbuf, hsnap, by simp [rxMarker]⟩
  | seqFault => exact ⟨Nat.zero_le _, Nat.zero_le _, hsnap, by simp [rxSeqFault, accReset]⟩
  | fragment =>
    obtain ⟨hnext, hlen⟩ := nextIdx_of_selectRow_fragment hrow
    have hmax : fr.data.length ≤ 8 := by simpa [Frame.wf] using hwf
    refine ⟨hnext, ?_, hsnap, hcause⟩
    simp only [rxFragment, fragmentData, List.length_append, List.length_drop]
    omega
  | last => exact ⟨Nat.zero_le _, Nat.zero_le _, length_pack _, by simp [rxLast, accReset]⟩
  | odd => exact ⟨Nat.zero_le _, Nat.zero_le _, hsnap, by simp [rxOdd, accReset]⟩

theorem bmsInv_processFrames {b : Bms} (h : BmsInv b) {frames : List Frame} (hwf : ∀ fr ∈ frames, fr.wf = true)
    (now : Nat) : BmsInv (frames.foldl (fun x fr => processFrame x fr now) b) := by
  induction frames generalizing b with
  | nil => exact h
  | cons fr frames ih =>
    obtain ⟨hfr, hframes⟩ := List.forall_mem_cons.mp hwf
    exact ih (bmsInv_processFrame h hfr now) hframes

theorem bmsInv_timeoutCheck {cfg : Config} {b : Bms} (h : BmsInv b) (now : Nat) : BmsInv (timeoutCheck cfg b now) := by
  unfold timeoutCheck
  split
  next => exact ⟨Nat.zero_le _, Nat.zero_le _, h.2.2.1, by simp [accReset]⟩
  next => exact h

/-! ## The lists of records -/

/-- Writing one record of a list keeps what holds of all of them. -/
theorem forall_mem_set {α : Type} {p : α → Prop} {l : List α} (h : ∀ x ∈ l, p x) (k : Nat) {y : α} (hy : p y) :
    ∀ x ∈ l.set k y, p x := by
  intro x hx
  rcases List.mem_or_eq_of_mem_set hx with hx | rfl
  · exact h x hx
  · exact hy

theorem forall_mem_modify {α : Type} {p : α → Prop} {l : List α} {f : α → α} (h : ∀ x ∈ l, p x) (k : Nat)
    (hf : ∀ x, p x → p (f x)) : ∀ x ∈ l.modify k f, p x := by
  intro x hx
  rw [List.modify_eq_set_getElem?] at hx
  cases hget : l[k]? with
  | none => simp [hget] at hx; exact h x hx
  | some y =>
    simp [hget] at hx
    exact forall_mem_set h k (hf y (h y (List.mem_of_getElem? hget))) x hx

theorem forall_mem_concat {α : Type} {p : α → Prop} {l : List α} (h : ∀ x ∈ l, p x) {y : α} (hy : p y) :
    ∀ x ∈ l ++ [y], p x := by
  simpa [or_imp, forall_and] using ⟨h, hy⟩

/-! ## Calls held and in progress -/

theorem waitsOk_hold {s : State} (h : WaitsOk s) {n : Node} (hseq : n.seq = s.node.seq + 1) (kind : WaitKind)
    (target : Nat) : WaitsOk ((s.withNode n).hold ⟨s.node.seq, kind, target⟩) := by
  obtain ⟨hnodup, hlt⟩ := h
  refine ⟨?_, forall_mem_concat (fun w hw => ?_) ?_⟩
  · simp only [hold_waits, withNode_waits, List.map_append]
    refine List.Nodup.append hnodup (List.nodup_singleton _) ?_
    simp only [List.map_cons, List.map_nil, List.disjoint_singleton, List.mem_map, not_exists, not_and]
    exact fun w hw heq => absurd (hlt w hw) (by omega)
  · simpa [hseq] using Nat.lt_succ_of_lt (hlt w hw)
  · simp [hseq]

theorem waitsOk_of_seq_le {s t : State} (h : WaitsOk s) (hwaits : t.waits = s.waits) (hseq : s.node.seq ≤ t.node.seq) :
    WaitsOk t := by
  rw [WaitsOk, hwaits]
  exact ⟨h.1, fun w hw => (h.2 w hw).trans_le hseq⟩

theorem waitsOk_release {s : State} (h : WaitsOk s) (w : Wait) : WaitsOk (s.release w) :=
  ⟨h.1.sublist (List.filter_sublist.map _), fun v hv => h.2 v (List.mem_filter.mp hv).1⟩

theorem drainsOk_begin {s : State} (h : DrainsOk s) {x : Drain} (hfree : ∀ y ∈ s.drains, y.device ≠ x.device)
    (hlen : x.frames.length ≤ drainMax s.cfg x.device) (hwf : ∀ fr ∈ x.frames, fr.wf = true) :
    DrainsOk (s.beginDrain x) := by
  obtain ⟨hnodup, hframes⟩ := h
  refine ⟨?_, forall_mem_concat hframes ⟨hlen, hwf⟩⟩
  simp only [beginDrain_drains, List.map_append]
  refine List.Nodup.append hnodup (List.nodup_singleton _) ?_
  simpa using hfree

theorem drainsOk_nextFrame {s : State} (h : DrainsOk s) {d : Device} {x : Drain} {fr : Frame} {q : List Frame}
    (hx : drainOf s d = some x) (hq : x.frames = fr :: q) : DrainsOk (s.putFrames d q) := by
  obtain ⟨hnodup, hframes⟩ := h
  obtain ⟨hmem, hdevice⟩ := drainOf_some hx
  obtain ⟨hlen, hwf⟩ := hframes x hmem
  rw [hq] at hlen hwf
  constructor
  · have hdevices : (s.putFrames d q).drains.map Drain.device = s.drains.map Drain.device := by
      simp only [putFrames_drains, List.map_map]
      refine List.map_congr_left fun y _ => ?_
      simp only [Function.comp_apply]
      split <;> rfl
    rwa [hdevices]
  · intro y hy
    obtain ⟨z, hz, rfl⟩ := List.mem_map.mp hy
    split
    next hzd =>
      refine ⟨?_, fun g hg => hwf g (.tail _ hg)⟩
      simp only [putFrames_cfg, hzd, ← hdevice]
      exact (Nat.le_succ _).trans hlen
    next => exact hframes z hz

theorem drainsOk_end {s : State} (h : DrainsOk s) (d : Device) : DrainsOk (s.endDrain d) :=
  ⟨h.1.sublist (List.filter_sublist.map _), fun x hx => h.2 x (List.mem_filter.mp hx).1⟩

theorem length_takeFrames_le (k : Nat) (m : List (ChanName × List Frame)) (n : ChanName) :
    (takeFrames k m n).1.length ≤ k := by
  obtain ⟨hnone, hsome⟩ := takeFrames_spec k m n
  cases hget : chanGet m n with
  | none => simp [hnone hget]
  | some q => rw [(hsome q hget).1]; exact List.length_take_le _ _

/-! ## What the worker's moves do to the flags and the results -/

/-- The application of a command reaches the filters, the channels and the held frame only (R172, R173, R175). -/
theorem applyCommand_frame (cfg : Config) (n : Node) (c : Command) (tx : TxAnswer) :
    ∃ filters chans held, (applyCommand cfg n c tx).2 = { n with filters := filters, chans := chans, held := held } := by
  rcases applyCommand_node_cases cfg n c tx with h | ⟨_, -, -, -, h⟩ | ⟨_, -, h⟩
  · exact ⟨_, _, _, h⟩
  · exact ⟨_, _, _, h⟩
  · exact ⟨_, _, _, h⟩

/-- Dispatch reaches the channels and the held frame only (R171). -/
theorem dispatch_frame (cfg : Config) (n : Node) (fr : Frame) :
    ∃ chans held, dispatch cfg n fr = { n with chans := chans, held := held } := by
  rcases dispatch_cases cfg n fr with ⟨-, h⟩ | ⟨_, -, -, h⟩ | ⟨_, _, -, -, -, h⟩ | ⟨_, _, -, -, -, -, h⟩ |
    ⟨_, _, -, -, -, -, h⟩
  · exact ⟨_, _, h⟩
  · exact ⟨_, _, h⟩
  · exact ⟨_, _, h⟩
  · exact ⟨_, _, h⟩
  · exact ⟨_, _, h⟩

/-- A poll reaches the channels, the held frame and the phase only (R191). -/
theorem pollStep_frame (cfg : Config) (n : Node) (ev : BusEvent) :
    ∃ chans held, pollStep cfg n ev = { n with chans := chans, held := held, phase := .start } := by
  cases ev with
  | frame fr =>
    obtain ⟨chans, held, h⟩ := dispatch_frame cfg n fr
    exact ⟨chans, held, by simp [pollStep, h]⟩
  | none => exact ⟨_, _, rfl⟩
  | errorFrame => exact ⟨_, _, rfl⟩
  | invalid => exact ⟨_, _, rfl⟩

/-- From `n` to `m` the node is not restarted and forgets nothing (R34, R35, R40). -/
structure NodeLater (n m : Node) : Prop where
  working : n.working = false → m.working = false
  halted : n.halted = true → m.halted = true
  results : n.results <+: m.results
  seq : n.seq ≤ m.seq

theorem nodeLater_of_eq {n m : Node} (hworking : m.working = n.working) (hhalted : m.halted = n.halted)
    (hresults : m.results = n.results) (hseq : n.seq ≤ m.seq) : NodeLater n m :=
  ⟨fun h => hworking.trans h, fun h => hhalted.trans h, hresults ▸ List.prefix_refl _, hseq⟩

theorem nodeLater_worker {cfg : Config} {n m : Node} (h : WorkerMove cfg n m) : NodeLater n m ∧ m.seq = n.seq := by
  cases h with
  | start => exact ⟨nodeLater_of_eq rfl rfl rfl le_rfl, rfl⟩
  | shutdown => exact ⟨⟨id, fun _ => rfl, List.prefix_refl _, le_rfl⟩, rfl⟩
  | apply seq c rest tx =>
    obtain ⟨filters, chans, held, hnode⟩ := applyCommand_frame cfg { n with cmdq := rest } c tx
    simp only [applyHead, hnode]
    exact ⟨⟨id, id, List.prefix_append _ _, le_rfl⟩, trivial⟩
  | drainEnd => exact ⟨nodeLater_of_eq rfl rfl rfl le_rfl, rfl⟩
  | poll ev =>
    obtain ⟨chans, held, hnode⟩ := pollStep_frame cfg n ev
    rw [hnode]
    exact ⟨nodeLater_of_eq rfl rfl rfl le_rfl, rfl⟩
  | deliver => exact ⟨nodeLater_of_eq rfl rfl rfl le_rfl, rfl⟩
  | fatal => exact ⟨⟨fun _ => rfl, id, List.prefix_refl _, le_rfl⟩, rfl⟩

/-! ## Every step -/

/-- Every frame that a drain reads from the node's channels is a frame (R110). -/
theorem wf_of_mem_takeFrames {cfg : Config} {n : Node} (h : NodeInv cfg n) (k : Nat) (name : ChanName) :
    ∀ fr ∈ (takeFrames k n.chans name).1, fr.wf = true :=
  ((nodeInv_iff.mp h).2.1.takeFrames k name).2

theorem blockInv_move {s t : State} (hmove : Move s t) (h : BlockInv s) : BlockInv t := by
  obtain ⟨hnode, hepcs, hbmses, hwaits, hdrains⟩ := h
  cases hmove with
  | answer r => exact ⟨hnode, hepcs, hbmses, hwaits, hdrains⟩
  | enqueue c hwf hacc =>
    exact ⟨nodeInv_enqueue hnode hwf hacc.1 hacc.2, hepcs, hbmses, waitsOk_of_seq_le hwaits rfl (Nat.le_succ _), hdrains⟩
  | issue c kind target hwf hacc =>
    exact ⟨nodeInv_enqueue hnode hwf hacc.1 hacc.2, hepcs, hbmses, waitsOk_hold hwaits rfl kind target, hdrains⟩
  | release w => exact ⟨hnode, hepcs, hbmses, waitsOk_release hwaits w, hdrains⟩
  | stop => exact ⟨nodeInv_stop hnode, hepcs, hbmses, hwaits, hdrains⟩
  | read k name => exact ⟨nodeInv_read hnode k name, hepcs, hbmses, hwaits, hdrains⟩
  | work n hwork =>
    exact ⟨nodeInv_worker hnode hwork, hepcs, hbmses,
      waitsOk_of_seq_le hwaits rfl (le_of_eq (nodeLater_worker hwork).2.symm),
      hdrains⟩
  | decodeFrames e r frames hr =>
    have hdecoded := epcInv_decodeFrames (hepcs r (List.mem_of_getElem? hr)) frames
    exact ⟨hnode, forall_mem_set hepcs e hdecoded, hbmses, hwaits, hdrains⟩
  | addEpc devId chan props hcheck =>
    exact ⟨hnode, forall_mem_concat hepcs (epcInv_new hcheck chan), hbmses, hwaits, hdrains⟩
  | setEpcOpened e v => exact ⟨hnode, forall_mem_modify hepcs e fun _ hr => hr, hbmses, hwaits, hdrains⟩
  | addBms chan address mask now =>
    exact ⟨hnode, hepcs, forall_mem_concat hbmses (bmsInv_reset chan address mask now), hwaits, hdrains⟩
  | setBmsOpened b v => exact ⟨hnode, hepcs, forall_mem_modify hbmses b fun _ hr => hr, hwaits, hdrains⟩
  | processFrame b r fr now hr hwf =>
    have hprocessed := bmsInv_processFrame (hbmses r (List.mem_of_getElem? hr)) hwf now
    exact ⟨hnode, hepcs, forall_mem_set hbmses b hprocessed, hwaits, hdrains⟩
  | drainBms b r now hr =>
    have hread := wf_of_mem_takeFrames hnode s.cfg.bmsDrainMax r.chan
    have hprocessed := bmsInv_processFrames (hbmses r (List.mem_of_getElem? hr)) hread now
    exact ⟨nodeInv_read hnode _ _, hepcs, forall_mem_set hbmses b hprocessed, hwaits, hdrains⟩
  | timeoutCheck b r now hr =>
    have hchecked := bmsInv_timeoutCheck (cfg := s.cfg) (hbmses r (List.mem_of_getElem? hr)) now
    exact ⟨hnode, hepcs, forall_mem_set hbmses b hchecked, hwaits, hdrains⟩
  | startDrain d name now hfree =>
    exact ⟨nodeInv_read hnode _ _, hepcs, hbmses, hwaits,
      drainsOk_begin hdrains hfree (length_takeFrames_le _ _ _) (wf_of_mem_takeFrames hnode _ _)⟩
  | nextFrame d x fr q hx hq => exact ⟨hnode, hepcs, hbmses, hwaits, drainsOk_nextFrame hdrains hx hq⟩
  | endDrain d => exact ⟨hnode, hepcs, hbmses, hwaits, drainsOk_end hdrains d⟩

/-- Settles O56: every step is a sequence of moves, and every move keeps the invariant. -/
theorem everyStepKeepsInvariant : Obligations.EveryStepKeepsInvariant :=
  fun _ _ h hstep => step_keeps (fun _ _ _ hs => hs) (fun _ _ => blockInv_move) hstep h

theorem nodeInv_reset (c : Config) : NodeInv c Node.reset := by
  simp [NodeInv, TableOk, ChansOk, QueueOk, SeqOk, HaltOk, HeldOk, FramesOk, Node.reset, chansSorted]

/-- Settles O57: beside the node record, at creation every list of the state is empty. -/
theorem creationMeetsInvariant : Obligations.CreationMeetsInvariant :=
  fun c => ⟨nodeInv_reset c, List.forall_mem_nil _, List.forall_mem_nil _, ⟨List.nodup_nil, List.forall_mem_nil _⟩,
    List.nodup_nil, List.forall_mem_nil _⟩

/-- Settles O58: each part is the definition of the state at creation. -/
theorem creationLeavesNodeRecord : Obligations.CreationLeavesNodeRecord :=
  ⟨fun _ => rfl, rfl, rfl, rfl, rfl⟩

/-! ## What is never taken back -/

theorem NodeLater.refl (n : Node) : NodeLater n n := nodeLater_of_eq rfl rfl rfl le_rfl

theorem NodeLater.trans {n m k : Node} (h : NodeLater n m) (h' : NodeLater m k) : NodeLater n k :=
  ⟨h'.working ∘ h.working, h'.halted ∘ h.halted, h.results.trans h'.results, h.seq.trans h'.seq⟩

theorem nodeLater_move {s t : State} (h : Move s t) : NodeLater s.node t.node ∧ t.cfg = s.cfg := by
  cases h with
  | enqueue | issue => exact ⟨nodeLater_of_eq rfl rfl rfl (Nat.le_succ _), rfl⟩
  | stop => exact ⟨⟨fun _ => rfl, id, List.prefix_refl _, le_rfl⟩, rfl⟩
  | work n hwork => exact ⟨(nodeLater_worker hwork).1, rfl⟩
  | _ => exact ⟨nodeLater_of_eq rfl rfl rfl le_rfl, rfl⟩

/-- Settles O59: every step is a sequence of moves, and no move takes anything back. -/
theorem stepsNeverRestartOrForget : Obligations.StepsNeverRestartOrForget := by
  intro s t hstep
  have hmove : ∀ u v, Move u v → NodeLater s.node u.node ∧ u.cfg = s.cfg → NodeLater s.node v.node ∧ v.cfg = s.cfg :=
    fun u v huv ⟨hlater, hcfg⟩ =>
      ⟨hlater.trans (nodeLater_move huv).1, (nodeLater_move huv).2.trans hcfg⟩
  obtain ⟨⟨hworking, hhalted, hresults, hseq⟩, hcfg⟩ :=
    step_keeps (P := fun u => NodeLater s.node u.node ∧ u.cfg = s.cfg) (fun _ _ _ h => h) hmove hstep ⟨.refl _, rfl⟩
  exact ⟨hworking, hhalted, hresults, hseq, hcfg⟩

end Sys2Proof.Machine
end

section
/-! Command words and the node's host operations: submit, stop and channel reads (R140, R141, R180, R182, R192). -/

namespace Sys2Proof.Machine

open Sys2Proof

/-! ## The fields of a command word -/

/-- A field of a word, as a number and as bits (R10). -/
theorem bits_toNat {w : Nat} (v : BitVec w) {hi lo len : Nat} (h : hi + 1 = lo + len) :
    bits v.toNat hi lo = (v.extractLsb' lo len).toNat := by
  rw [bits, BitVec.extractLsb'_toNat, Nat.shiftRight_eq_div_pow, show hi + 1 - lo = len by omega]

theorem bits_toNat_eq_iff {w : Nat} (v : BitVec w) {hi lo len : Nat} (h : hi + 1 = lo + len) (x : BitVec len) :
    bits v.toNat hi lo = x.toNat ↔ v.extractLsb' lo len = x := by
  rw [bits_toNat v h, BitVec.toNat_inj]

/-- The payload bytes of a command word (R140). -/
theorem payload_eq_map (w : BitVec 96) :
    toLE 8 (bits w.toNat 95 32) = (List.range 8).map (fun i => w.extractLsb' (32 + 8 * i) 8) := by
  rw [bits_toNat w (len := 64) rfl, toLE_toNat_eq_map_byteOf, List.range_eq_range']
  refine List.map_congr_left fun i hi => ?_
  have hi8 : i < 8 := by simpa using hi
  apply BitVec.eq_of_getLsbD_eq
  intro k hk
  have : 8 * i + k < 64 := by omega
  simp [byteOf, hk, this, Nat.add_assoc]

/-- Data bytes are refused exactly for a DLC above 8 or a nonzero byte at or above it (R141). -/
theorem unpadData_map_eq_none_iff (dlc : Nat) (f : Nat → Byte) :
    unpadData dlc ((List.range 8).map f) = none ↔ 8 < dlc ∨ ∃ i < 8, dlc ≤ i ∧ f i ≠ 0 := by
  have hzero : (((List.range 8).map f).drop dlc).all (· == 0) = true ↔ ∀ i < 8, dlc ≤ i → f i = 0 := by
    rw [List.range_eq_range', ← List.map_drop, List.drop_range', List.all_eq_true]
    simp only [List.forall_mem_map, beq_iff_eq, List.mem_range'_1]
    exact ⟨fun h i hi hle => h i (by omega), fun h i hi => h i (by omega) (by omega)⟩
  simp only [unpadData, hzero]
  by_cases hdlc : dlc ≤ 8 <;> simp [hdlc, Nat.lt_of_not_le]

/-- The bytes of which data were read are the data, padded (R140). -/
theorem padData_of_unpadData {dlc : Nat} {bytes data : List Byte} (hlen : bytes.length = 8)
    (h : unpadData dlc bytes = some data) : data.length = dlc ∧ padData data = bytes := by
  unfold unpadData at h
  split at h
  next hok =>
    obtain ⟨hdlc, hzero⟩ := hok
    cases h
    have hdrop : bytes.drop dlc = List.replicate (8 - dlc) 0 := by
      rw [List.eq_replicate_iff]
      simpa [hlen] using hzero
    have htake : (bytes.take dlc).length = dlc := by simp [hlen, hdlc]
    exact ⟨htake, by rw [padData, htake, ← hdrop, List.take_append_drop]⟩
  next => cases h

/-- The command of a word has that word (R140). -/
theorem commandWord_of_commandOfWord {w : BitVec 96} {c : Command} (h : commandOfWord w = some c) :
    commandWord c = w := by
  have hw := w.isLt
  apply BitVec.eq_of_toNat_eq
  simp only [commandOfWord] at h
  split at h
  next htag =>
    split at h
    next hzero =>
      split at h
      next data hdata =>
        cases h
        obtain ⟨hlen, hpad⟩ := padData_of_unpadData (by simp) hdata
        simp only [commandWord, Frame.dlc, hlen, hpad, leNat_toLE, BitVec.toNat_ofNat]
        simp only [bits] at *
        omega
      next => cases h
    next => cases h
  next htag =>
    split at h
    next hzero =>
      cases h
      simp only [commandWord, BitVec.toNat_ofNat]
      simp only [bits] at *
      omega
    next => cases h
  next htag =>
    split at h
    next hzero =>
      cases h
      simp only [commandWord, BitVec.toNat_ofNat]
      simp only [bits] at *
      omega
    next => cases h
  next => cases h

/-- The words that stand for no command are the malformed ones (R141). -/
theorem commandOfWord_eq_none_iff (w : BitVec 96) : commandOfWord w = none ↔ MalformedWord w := by
  have htag := bits_toNat_eq_iff w (hi := 1) (lo := 0) (len := 2) rfl
  have hsend : bits w.toNat 31 17 = 0 ↔ w.extractLsb' 17 15 = 0 := bits_toNat_eq_iff w (by decide) 0
  have hfilter : bits w.toNat 31 24 = 0 ↔ w.extractLsb' 24 8 = 0 := bits_toNat_eq_iff w (by decide) 0
  have hdata := unpadData_map_eq_none_iff (bits w.toNat 16 13) fun i => w.extractLsb' (32 + 8 * i) 8
  rw [← payload_eq_map] at hdata
  simp only [commandOfWord, MalformedWord, ne_eq, ← hsend, ← hfilter]
  rw [← bits_toNat w (hi := 16) (lo := 13) (len := 4) rfl]
  split
  next h0 =>
    rw [(htag 0).mp h0]
    by_cases hz : bits w.toNat 31 17 = 0
    · cases hu : unpadData (bits w.toNat 16 13) (toLE 8 (bits w.toNat 95 32)) with
      | none => simpa [hz, hu] using hdata
      | some data => simpa [hz, hu] using hdata
    · simp [hz]
  next h1 =>
    rw [(htag 1).mp h1]
    by_cases hz : bits w.toNat 31 24 = 0 <;> simp [hz]
  next h2 =>
    rw [(htag 2).mp h2]
    by_cases hz : bits w.toNat 31 24 = 0 <;> simp [hz]
  next h0 h1 h2 =>
    have h3 : bits w.toNat 1 0 = 3 := by
      have hlt : bits w.toNat 1 0 < 4 := Nat.mod_lt _ (by decide)
      have h0 : bits w.toNat 1 0 ≠ 0 := h0
      have h1 : bits w.toNat 1 0 ≠ 1 := h1
      have h2 : bits w.toNat 1 0 ≠ 2 := h2
      omega
    simp [(htag 3).mp h3]

/-! ## Submit (R180) -/

theorem exec_nodeSubmit_closed {s : State} (w : BitVec 96) (h : s.node.cmdqOpen = false) :
    exec (.nodeSubmit w) s = .next { s with reply := some (.raised .queueClosed) } := by
  simp [exec, execNodeSubmit, submitWord, h]
  rfl

theorem exec_nodeSubmit_malformed {s : State} {w : BitVec 96} (h : s.node.cmdqOpen = true)
    (hw : commandOfWord w = none) :
    exec (.nodeSubmit w) s = .next { s with reply := some (.raised (.frameError w)) } := by
  simp [exec, execNodeSubmit, submitWord, h, hw]
  rfl

theorem exec_nodeSubmit_full {s : State} {w : BitVec 96} {c : Command} (h : s.node.cmdqOpen = true)
    (hw : commandOfWord w = some c) (hfull : s.node.cmdq.length = s.cfg.cmdDepth) :
    exec (.nodeSubmit w) s = .next { s with reply := some (.raised .queueFull) } := by
  simp [exec, execNodeSubmit, submitWord, submit, h, hw, hfull]
  rfl

theorem exec_nodeSubmit_accepted {s : State} {w : BitVec 96} {c : Command} (h : Accepting s)
    (hw : commandOfWord w = some c) :
    exec (.nodeSubmit w) s = .next { enqueued s c with reply := some (.accepted s.node.seq) } := by
  have hword : submitWord s.cfg s.node w = submit s.cfg s.node c := by simp [submitWord, h.1, hw]
  simp only [exec, execNodeSubmit, hword, submit_ok c h.1 h.2]
  rfl

/-- Settles O3: the word of a command stands for that command. -/
theorem submitQueuesEveryCommand : Obligations.SubmitQueuesEveryCommand :=
  fun c _ hwf h => exec_nodeSubmit_accepted h (commandOfWord_commandWord c hwf)

/-- Settles O4: the malformed words are those that stand for no command, and any other word is that of its command. -/
theorem submitOutcomesInOrder : Obligations.SubmitOutcomesInOrder := by
  intro w s
  refine ⟨exec_nodeSubmit_closed w, fun ho hw => exec_nodeSubmit_malformed ho ((commandOfWord_eq_none_iff w).mpr hw),
    fun ho hw hfull => ?_, fun h hw => ?_⟩
  · obtain ⟨c, hc⟩ := Option.ne_none_iff_exists'.mp (mt (commandOfWord_eq_none_iff w).mp hw)
    exact exec_nodeSubmit_full ho hc hfull
  · obtain ⟨c, hc⟩ := Option.ne_none_iff_exists'.mp (mt (commandOfWord_eq_none_iff w).mp hw)
    exact ⟨c, wf_of_commandOfWord hc, commandWord_of_commandOfWord hc, exec_nodeSubmit_accepted h hc⟩

theorem reservedWord_eq_append (rest : BitVec 94) : reservedWord rest = rest ++ 3#2 := by
  apply BitVec.eq_of_toNat_eq
  rw [toNat_reservedWord, toNat_append_eq_add]
  simp only [BitVec.toNat_ofNat]
  omega

theorem commandOfWord_reservedWord (rest : BitVec 94) : commandOfWord (reservedWord rest) = none := by
  have htag : bits (reservedWord rest).toNat 1 0 = 3 := by rw [toNat_reservedWord, bits]; omega
  simp [commandOfWord, htag]

/-- Settles O5: the row is the submit of a word with tag 0b11, which stands for no command. -/
theorem reservedCommandWordIsRefused : Obligations.ReservedCommandWordIsRefused := by
  intro rest s
  refine ⟨fun ho => ?_, fun hc => exec_nodeSubmit_closed (reservedWord rest) hc⟩
  rw [← reservedWord_eq_append]
  exact exec_nodeSubmit_malformed ho (commandOfWord_reservedWord rest)

/-! ## Stop and channel reads (R182, R192) -/

/-- Settles O6: the answer reads `halted`, which stop does not write. -/
theorem stopClearsWorkingAndReturnsWhenHalted : Obligations.StopClearsWorkingAndReturnsWhenHalted := by
  refine fun s => ⟨rfl, fun t h => ?_⟩
  cases h
  rfl

/-- Settles O7: the three results of a channel read. -/
theorem channelReadTakesOldestFrame : Obligations.ChannelReadTakesOldestFrame := by
  refine fun n s => ⟨fun h => ?_, fun h => ?_, fun fr q h => ⟨chanPut s.node.chans n q, ?_, chanGet_put_same _ _ _,
    fun n' hn => chanGet_put_other _ _ hn.symm⟩⟩
  · have hread : chanRead s.node.chans n = (.closed, s.node.chans) := by rw [chanRead, h]
    simp only [exec, execChanRead, hread]
    rfl
  · have hread : chanRead s.node.chans n = (.empty, s.node.chans) := by rw [chanRead, h]
    simp only [exec, execChanRead, hread]
    rfl
  · have hread : chanRead s.node.chans n = (.frame fr, chanPut s.node.chans n q) := by rw [chanRead, h]
    simp only [exec, execChanRead, hread]
    rfl

end Sys2Proof.Machine
end

section
/-! The worker: its steps, the commands it applies and the frames it dispatches (R170 to R175, R188 to R196). -/

namespace Sys2Proof.Machine

open Sys2Proof

/-! ## The boundary and the drain -/

/-- Settles O8: WRK.SHUTDOWN is the branch of WRK.START that a clear `working` selects. -/
theorem startDrainsOrShutsDown : Obligations.StartDrainsOrShutsDown := by
  refine fun s h => ⟨fun hworking => ?_, fun hworking => ⟨_, ?_, ?_, rfl⟩⟩
  · rw [exec, execWrkStart, workerStep_at h, startStep, if_pos hworking]
    rfl
  · rw [exec, execWrkStart, workerStep_at h, startStep, if_neg (by simp [hworking])]
    rfl
  · rw [exec, execWrkShutdown, if_neg (by simp [hworking]), workerStep_at h]
    rfl

/-- Settles O12: WRK.DRAIN_END asks for an empty queue before its phase. -/
theorem drainEndsOnlyOnEmptyQueue : Obligations.DrainEndsOnlyOnEmptyQueue := by
  refine fun s => ⟨fun h hq => ?_, fun hq => ?_⟩
  · rw [exec, execWrkDrainEnd, if_pos (by simp [hq]), workerStep_at h]
    rfl
  · rw [exec, execWrkDrainEnd, if_neg (by simpa using hq)]

/-! ## Applying the head command -/

theorem exec_wrkApply_head {s : State} {q : Nat} {c : Command} {rest : List (Nat × Command)} (tx : TxAnswer)
    (h : WorkerAt s .drain) (hq : s.node.cmdq = (q, c) :: rest) :
    exec (.wrkApply tx) s = .next (s.withNode (applyHead s.cfg s.node q c rest tx)) :=
  applyStep_at h hq rfl

theorem exec_cmdSend_head {s : State} {q : Nat} {fr : Frame} {rest : List (Nat × Command)} (tx : TxAnswer)
    (h : WorkerAt s .drain) (hq : s.node.cmdq = (q, .send fr) :: rest) :
    exec (.cmdSend fr tx) s = .next (s.withNode (applyHead s.cfg s.node q (.send fr) rest tx)) :=
  applyStep_at h hq (decide_eq_true rfl)

theorem exec_cmdAddFilter_head {s : State} {q : Nat} {fe : FilterEntry} {rest : List (Nat × Command)}
    (h : WorkerAt s .drain) (hq : s.node.cmdq = (q, .addFilter fe) :: rest) (tx : TxAnswer) :
    exec (.cmdAddFilter fe) s = .next (s.withNode (applyHead s.cfg s.node q (.addFilter fe) rest tx)) :=
  applyStep_at h hq (decide_eq_true rfl)

theorem exec_cmdRemoveFilter_head {s : State} {q : Nat} {fe : FilterEntry} {rest : List (Nat × Command)}
    (h : WorkerAt s .drain) (hq : s.node.cmdq = (q, .removeFilter fe) :: rest) (tx : TxAnswer) :
    exec (.cmdRemoveFilter fe) s = .next (s.withNode (applyHead s.cfg s.node q (.removeFilter fe) rest tx)) :=
  applyStep_at h hq (decide_eq_true rfl)

/-- Settles O9: the outcome is the bus's answer, and a send changes nothing of the node. -/
theorem applySendRecordsBusAnswer : Obligations.ApplySendRecordsBusAnswer := by
  intro s q fr rest tx h hq
  refine ⟨_, exec_wrkApply_head tx h hq, exec_cmdSend_head tx h hq, ?_⟩
  cases tx <;> rfl

/-! ## The filter table (R172, R175) -/

/-- The table has one entry for a key. -/
theorem sameKey_eq_some_of_mem {cfg : Config} {n : Node} (h : TableOk cfg n) {g fe : FilterEntry} (hg : g ∈ n.filters)
    (hkey : SameKey g fe) : sameKey n.filters fe = some g := by
  cases hfound : sameKey n.filters fe with
  | none => exact absurd hkey (sameKey_none.mp hfound g hg)
  | some g' =>
    obtain ⟨hg', haddress, hmask⟩ := sameKey_some hfound
    have hinj : (n.filters.map fun f => (f.address, f.mask)).Nodup :=
      List.pairwise_map.mpr (h.2.imp fun hne heq => hne.1 (Prod.mk.inj heq))
    have heq : (g'.address, g'.mask) = (g.address, g.mask) := by rw [haddress, hmask, hkey.1, hkey.2]
    rw [List.inj_on_of_nodup_map hinj hg' hg heq]

theorem applyAdd_of_sameKey {cfg : Config} {n : Node} (h : TableOk cfg n) {g fe : FilterEntry} (hg : g ∈ n.filters)
    (hkey : SameKey g fe) :
    applyAdd cfg n fe = if g.chan = fe.chan then (.noop, n) else (.configConflict fe, n) := by
  rw [applyAdd, sameKey_eq_some_of_mem h hg hkey]

theorem applyAdd_of_new_key {cfg : Config} {n : Node} {fe : FilterEntry} (h : ∀ g ∈ n.filters, ¬SameKey g fe) :
    applyAdd cfg n fe =
      if ∃ g ∈ n.filters, g.chan = fe.chan then (.configConflict fe, n)
      else if n.filters.length = cfg.nFilters then (.capacityError fe, n)
      else (.ok, { n with filters := n.filters ++ [fe], chans := chanPut n.chans fe.chan [] }) := by
  rw [applyAdd, sameKey_none.mpr h]
  simp

theorem applyAdd_node_of_ne_ok {cfg : Config} {n : Node} {fe : FilterEntry} (h : (applyAdd cfg n fe).1 ≠ .ok) :
    (applyAdd cfg n fe).2 = n := by
  rcases applyAdd_cases cfg n fe with ⟨_, -, -, hadd⟩ | ⟨_, -, -, hadd⟩ | ⟨-, -, hadd⟩ | ⟨-, -, -, hadd⟩ |
    ⟨-, -, -, hadd⟩
  iterate 4 exact congrArg Prod.snd hadd
  exact absurd (congrArg Prod.fst hadd) h

theorem applyAdd_node_of_ok {cfg : Config} {n : Node} {fe : FilterEntry} (h : (applyAdd cfg n fe).1 = .ok) :
    (applyAdd cfg n fe).2 = { n with filters := n.filters ++ [fe], chans := chanPut n.chans fe.chan [] } := by
  rcases applyAdd_cases cfg n fe with ⟨_, -, -, hadd⟩ | ⟨_, -, -, hadd⟩ | ⟨-, -, hadd⟩ | ⟨-, -, -, hadd⟩ |
    ⟨-, -, -, hadd⟩
  iterate 4 rw [hadd] at h; cases h
  exact congrArg Prod.snd hadd

/-- Settles O10: the clauses are the branches of `ApplyAdd`, whose key is unique in the table. -/
theorem applyAddFilterOutcomes : Obligations.ApplyAddFilterOutcomes := by
  intro s q fe rest tx h hq htable
  obtain ⟨n, hn⟩ : ∃ n, n = { s.node with cmdq := rest } := ⟨_, rfl⟩
  have hnode : TableOk s.cfg n := hn ▸ htable
  have hfilters : s.node.filters = n.filters := by rw [hn]
  refine ⟨_, (applyAdd s.cfg n fe).1, exec_wrkApply_head tx h hq, exec_cmdAddFilter_head h hq tx, ?_⟩
  rw [hfilters, applyHead, applyCommand, ← hn]
  refine ⟨?_, ?_, ?_, ?_, ?_, fun hne => ?_, fun hok => ⟨chanPut n.chans fe.chan [], ?_, ?_, ?_⟩⟩
  · rintro ⟨g, hg, hkey, hchan⟩
    rw [applyAdd_of_sameKey hnode hg hkey, if_pos hchan]
  · rintro ⟨g, hg, hkey, hchan⟩
    rw [applyAdd_of_sameKey hnode hg hkey, if_neg hchan]
  · intro hkey hchan
    rw [applyAdd_of_new_key hkey, if_pos hchan]
  · intro hnew hfull
    rw [applyAdd_of_new_key fun g hg => (hnew g hg).1, if_neg fun ⟨g, hg, hchan⟩ => (hnew g hg).2 hchan, if_pos hfull]
  · intro hnew hroom
    rw [applyAdd_of_new_key fun g hg => (hnew g hg).1, if_neg fun ⟨g, hg, hchan⟩ => (hnew g hg).2 hchan, if_neg hroom]
  · simp only [applyAdd_node_of_ne_ok hne]
    rw [hn]
    rfl
  · exact chanGet_put_same _ _ _
  · intro name hname
    rw [chanGet_put_other _ _ hname.symm, hn]
  · simp only [applyAdd_node_of_ok hok, hok]
    rw [hn]
    rfl

theorem applyRemove_of_sameKey {cfg : Config} {n : Node} (h : TableOk cfg n) {g fe : FilterEntry} (hg : g ∈ n.filters)
    (hkey : SameKey g fe) :
    applyRemove n fe = if g.chan = fe.chan then
        (.ok, { n with
          filters := n.filters.filter (· ≠ g), chans := chanDel n.chans g.chan, held := discardHeld n.held g.chan })
      else (.configConflict fe, n) := by
  rw [applyRemove, sameKey_eq_some_of_mem h hg hkey]

/-- The table without one of its entries keeps the order of the others. -/
theorem TableOk.filter_ne {cfg : Config} {n : Node} (h : TableOk cfg n) {fe : FilterEntry}
    {before after : List FilterEntry} (hsplit : n.filters = before ++ fe :: after) :
    n.filters.filter (· ≠ fe) = before ++ after := by
  have hpair := h.2
  rw [hsplit] at hpair
  obtain ⟨-, hcons, hbefore⟩ := List.pairwise_append.mp hpair
  have hne_before : ∀ f ∈ before, decide (f ≠ fe) = true := fun f hf =>
    decide_eq_true fun heq => (hbefore f hf fe (.head _)).2 (congrArg FilterEntry.chan heq)
  have hne_after : ∀ f ∈ after, decide (f ≠ fe) = true := fun f hf =>
    decide_eq_true fun heq => ((List.pairwise_cons.mp hcons).1 f hf).2 (congrArg FilterEntry.chan heq.symm)
  rw [hsplit, List.filter_append, List.filter_eq_self.mpr hne_before, List.filter_cons_of_neg (by simp),
    List.filter_eq_self.mpr hne_after]

/-- Settles O11: the clauses are the branches of `ApplyRemove`; no frame is held while the worker drains. -/
theorem applyRemoveFilterOutcomes : Obligations.ApplyRemoveFilterOutcomes := by
  intro s q fe rest tx h hq htable
  obtain ⟨n, hn⟩ : ∃ n, n = { s.node with cmdq := rest } := ⟨_, rfl⟩
  have hnode : TableOk s.cfg n := hn ▸ htable
  have hfilters : s.node.filters = n.filters := by rw [hn]
  refine ⟨_, exec_wrkApply_head tx h hq, exec_cmdRemoveFilter_head h hq tx, ?_⟩
  rw [hfilters, applyHead, applyCommand, ← hn]
  refine ⟨fun hkey => ?_, ?_, fun before after hsplit => ⟨chanDel n.chans fe.chan, ?_, ?_, ?_⟩⟩
  · have hremove : applyRemove n fe = (.noop, n) := by rw [applyRemove, sameKey_none.mpr hkey]
    rw [hremove, hn]
    rfl
  · rintro ⟨g, hg, hkey, hchan⟩
    rw [applyRemove_of_sameKey hnode hg hkey, if_neg hchan, hn]
    rfl
  · exact chanGet_del_same _ _
  · intro name hname
    rw [chanGet_del_other _ hname.symm, hn]
  · have hmem : fe ∈ n.filters := by rw [hsplit]; simp
    have hheld : discardHeld n.held fe.chan = s.node.held := by rw [hn, h.2.1]; rfl
    rw [applyRemove_of_sameKey hnode hmem ⟨rfl, rfl⟩, if_pos rfl, hnode.filter_ne hsplit, hheld, hn]
    rfl

/-! ## Polls (R171, R191) -/

theorem exec_wrkPoll_at {s : State} (ev : BusEvent) (h : WorkerAt s .poll) :
    exec (.wrkPoll ev) s = .next (s.withNode (pollStep s.cfg s.node ev)) :=
  workerStep_at (f := fun n => pollStep s.cfg n ev) h

/-- Settles O14: the three events without a frame have one branch of the poll. -/
theorem pollWithoutFrameOnlyEndsIteration : Obligations.PollWithoutFrameOnlyEndsIteration :=
  fun _ h => ⟨_, rfl, exec_wrkPoll_at .none h, exec_wrkPoll_at .none h, exec_wrkPoll_at .errorFrame h,
    exec_wrkPoll_at .errorFrame h, exec_wrkPoll_at .invalid h, exec_wrkPoll_at .invalid h⟩

theorem dispatch_of_match {cfg : Config} {n : Node} {fr : Frame} {f : FilterEntry} {q : List Frame}
    (hmatch : firstMatch n.filters fr.id = some f) (hget : chanGet n.chans f.chan = some q) :
    dispatch cfg n fr =
      if q.length < cfg.chanDepth then { n with chans := chanPut n.chans f.chan (q ++ [fr]) }
      else if cfg.chanFullPolicy = .block then { n with held := some (fr, f.chan) }
      else n := by
  simp only [dispatch, hmatch, hget]
  cases cfg.chanFullPolicy <;> rfl

/-- Settles O13: dispatch goes by the first match of O2 and by the room in its channel. -/
theorem polledFrameGoesToFirstMatch : Obligations.PolledFrameGoesToFirstMatch := by
  intro s fr h
  refine ⟨_, exec_wrkPoll_at (.frame fr) h, exec_wrkPoll_at (.frame fr) h, fun hnone => ?_,
    fun before f after q hsplit hf hbefore hget => ?_⟩
  · have hdispatch : dispatch s.cfg s.node fr = s.node := by
      rw [dispatch, (firstMatch_eq_none_iff s.node.filters fr.id).mpr hnone]
    rw [pollStep, hdispatch]
    rfl
  · have hmatch := (firstMatch_eq_some_iff s.node.filters fr.id f).mpr ⟨before, after, hsplit, hf, hbefore⟩
    rw [pollStep, dispatch_of_match hmatch hget]
    refine ⟨fun hroom => ⟨_, chanGet_put_same _ _ _, fun name hname => chanGet_put_other _ _ hname.symm, ?_⟩,
      fun hfull hpolicy => ?_, fun hfull hpolicy => ?_⟩
    · rw [if_pos hroom]
      rfl
    · rw [if_neg hfull, if_neg (by simp [hpolicy])]
      rfl
    · rw [if_neg hfull, if_pos hpolicy]
      rfl

/-! ## The held frame and the fault (R188, R193) -/

theorem exec_wrkDeliver_held {s : State} {fr : Frame} {name : ChanName} {q : List Frame}
    (hrun : s.node.halted = false) (hheld : s.node.held = some (fr, name)) (hget : chanGet s.node.chans name = some q) :
    exec .wrkDeliver s =
      if q.length < s.cfg.chanDepth then
        .next (s.withNode { s.node with chans := chanPut s.node.chans name (q ++ [fr]), held := none })
      else .refused .notSelected := by
  simp [exec, execWrkDeliver, hheld, hget, hrun]

/-- Settles O15: the channel has room or the step is refused. -/
theorem deliverMovesHeldFrame : Obligations.DeliverMovesHeldFrame := by
  intro s fr name q hrun hheld hget
  rw [exec_wrkDeliver_held hrun hheld hget]
  refine ⟨fun hroom => ⟨_, ?_, chanGet_put_same _ _ _, fun n' hn => chanGet_put_other _ _ hn.symm⟩, fun hfull => ?_⟩
  · rw [if_pos hroom]
    rfl
  · rw [if_neg hfull]

/-- Settles O16: after the fault the node stands at the boundary with `working` clear, where WRK.START shuts it down. -/
theorem fatalLeadsToShutdown : Obligations.FatalLeadsToShutdown := by
  intro s hrun
  have hfatal : exec .wrkFatal s = .next (s.withNode (fatalStep s.node)) := by
    simp [exec, execWrkFatal, hrun]
  have hstart : exec .wrkStart (s.withNode (fatalStep s.node)) =
      .next ((s.withNode (fatalStep s.node)).withNode (startStep (fatalStep s.node))) :=
    workerStep_at ⟨hrun, rfl, rfl⟩
  exact ⟨_, hfatal, rfl, _, hstart, rfl, rfl⟩

/-! ## Where the worker has a step (R195, R196) -/

theorem exists_workerStep_next_iff {p : Phase} {s : State} {f : Node → Node} (hrun : s.node.halted = false) :
    (∃ t, workerStep p s f = .next t) ↔ s.node.held = none ∧ s.node.phase = p := by
  simp only [workerStep_next, exists_and_left, exists_eq, and_true, hrun, true_and]

theorem exists_wrkApply_next_iff {s : State} (tx : TxAnswer) (hrun : s.node.halted = false) :
    (∃ t, exec (.wrkApply tx) s = .next t) ↔ s.node.held = none ∧ s.node.phase = .drain ∧ s.node.cmdq ≠ [] := by
  constructor
  · rintro ⟨t, ht⟩
    obtain ⟨⟨-, hheld, hphase⟩, q, c, rest, hq, -, -⟩ := applyStep_next.mp ht
    exact ⟨hheld, hphase, by simp [hq]⟩
  · rintro ⟨hheld, hphase, hq⟩
    obtain ⟨⟨q, c⟩, rest, hq⟩ := List.exists_cons_of_ne_nil hq
    exact ⟨_, exec_wrkApply_head tx ⟨hrun, hheld, hphase⟩ hq⟩

theorem exists_wrkDrainEnd_next_iff {s : State} (hrun : s.node.halted = false) :
    (∃ t, exec .wrkDrainEnd s = .next t) ↔ s.node.held = none ∧ s.node.phase = .drain ∧ s.node.cmdq = [] := by
  by_cases hq : s.node.cmdq = []
  · have hempty : exec .wrkDrainEnd s = workerStep .drain s (fun n => { n with phase := .poll }) := by
      rw [exec, execWrkDrainEnd, if_pos (by simp [hq])]
    rw [hempty, exists_workerStep_next_iff hrun]
    simp [hq]
  · rw [exec, execWrkDrainEnd, if_neg (by simpa using hq)]
    simp [hq]

theorem exists_wrkDeliver_next_iff {s : State} (hrun : s.node.halted = false) :
    (∃ t, exec .wrkDeliver s = .next t) ↔
      ∃ fr n q, s.node.held = some (fr, n) ∧ chanGet s.node.chans n = some q ∧ q.length < s.cfg.chanDepth := by
  constructor
  · rintro ⟨t, ht⟩
    cases hheld : s.node.held with
    | none => simp [exec, execWrkDeliver, hheld] at ht
    | some p =>
      obtain ⟨fr, name⟩ := p
      cases hget : chanGet s.node.chans name with
      | none => simp [exec, execWrkDeliver, hheld, hget] at ht
      | some q =>
        rw [exec_wrkDeliver_held hrun hheld hget] at ht
        by_cases hroom : q.length < s.cfg.chanDepth
        · exact ⟨fr, name, q, rfl, hget, hroom⟩
        · rw [if_neg hroom] at ht
          cases ht
  · rintro ⟨fr, name, q, hheld, hget, hroom⟩
    exact ⟨_, (exec_wrkDeliver_held hrun hheld hget).trans (if_pos hroom)⟩

/-- Settles O17: each step's selecting condition. -/
theorem workerStepsAreExclusive : Obligations.WorkerStepsAreExclusive := by
  intro s tx ev hrun
  refine ⟨exists_workerStep_next_iff hrun, exists_wrkApply_next_iff tx hrun, exists_wrkDrainEnd_next_iff hrun,
    exists_workerStep_next_iff (f := fun n => pollStep s.cfg n ev) hrun, exists_wrkDeliver_next_iff hrun,
    s.withNode (fatalStep s.node), ?_⟩
  simp [exec, execWrkFatal, hrun]

theorem workerStep_halted {p : Phase} {s : State} (f : Node → Node) (h : s.node.halted = true) :
    workerStep p s f = .refused .notSelected := by
  simp [workerStep, workerAt, h]

theorem applyStep_halted {s : State} (tx : TxAnswer) (sel : Command → Bool) (h : s.node.halted = true) :
    applyStep s tx sel = .refused .notSelected := by
  simp [applyStep, workerAt, h]

/-- Settles O18: a halted node has no worker step, its queue is closed and it has no channel. -/
theorem haltedNodeOnlyRefuses : Obligations.HaltedNodeOnlyRefuses := by
  rintro s w name tx ev fr fe hhalted ⟨hopen, -, hnothing⟩
  obtain ⟨hworking, -, hchans, hcmdq, hheld⟩ := hnothing hhalted
  refine ⟨exec_nodeSubmit_closed w (by simp [hopen, hhalted]), ?_, ?_, ?_⟩
  · exact (channelReadTakesOldestFrame name s).1 (by simp [hchans])
  · have hnode : { s.node with working := false } = s.node := by rw [← hworking]
    rw [(stopClearsWorkingAndReturnsWhenHalted s).1, hnode, if_pos hhalted]
  · simp only [List.forall_mem_cons, List.not_mem_nil, false_implies, implies_true, and_true]
    have hpoll := fun event => workerStep_halted (p := .poll) (fun n => pollStep s.cfg n event) hhalted
    refine ⟨workerStep_halted _ hhalted, applyStep_halted tx _ hhalted, ?_, hpoll ev, ?_, ?_, ?_, hpoll (.frame fr),
      hpoll .none, hpoll .errorFrame, hpoll .invalid, applyStep_halted tx _ hhalted, applyStep_halted .ok _ hhalted,
      applyStep_halted .ok _ hhalted⟩
    · rw [exec, execWrkDrainEnd, if_pos (by simp [hcmdq]), workerStep_halted _ hhalted]
    · rw [exec, execWrkDeliver, hheld]
    · rw [exec, execWrkShutdown, if_neg (by simp [hworking]), workerStep_halted _ hhalted]
    · rw [exec, execWrkFatal, if_pos hhalted]

/-! ## What the worker reaches (R100, R411) -/

theorem node_of_workerStep {p : Phase} {s t : State} {f : Node → Node} (h : workerStep p s f = .next t) :
    ∃ n, t = s.withNode n :=
  ⟨_, (workerStep_next.mp h).2⟩

theorem node_of_applyStep {s t : State} {tx : TxAnswer} {sel : Command → Bool} (h : applyStep s tx sel = .next t) :
    ∃ n, t = s.withNode n := by
  obtain ⟨-, _, _, _, -, -, ht⟩ := applyStep_next.mp h
  exact ⟨_, ht⟩

theorem node_of_wrkDeliver {s t : State} (h : execWrkDeliver s = .next t) : ∃ n, t = s.withNode n := by
  unfold execWrkDeliver at h
  repeat' split at h
  all_goals cases h
  exact ⟨_, rfl⟩

/-- Settles O60: every worker operation ends in an update of the node record. -/
theorem workerNeverTouchesInstances : Obligations.WorkerNeverTouchesInstances := by
  intro s t i tx ev fr fe hi h
  simp only [List.mem_cons, List.not_mem_nil, or_false] at hi
  have hpoll : ∀ event, exec (.wrkPoll event) s = .next t → ∃ n, t = s.withNode n :=
    fun event => node_of_workerStep (f := fun n => pollStep s.cfg n event)
  rcases hi with rfl | rfl | rfl | rfl | rfl | rfl | rfl | rfl | rfl | rfl | rfl | rfl | rfl | rfl
  · exact node_of_workerStep h
  · exact node_of_applyStep h
  · rw [exec, execWrkDrainEnd] at h
    split at h
    next => exact node_of_workerStep h
    next => cases h
  · exact hpoll ev h
  · exact node_of_wrkDeliver h
  · rw [exec, execWrkShutdown] at h
    split at h
    next => cases h
    next => exact node_of_workerStep h
  · rw [exec, execWrkFatal] at h
    split at h
    next => cases h
    next => cases h; exact ⟨_, rfl⟩
  · exact hpoll (.frame fr) h
  · exact hpoll .none h
  · exact hpoll .errorFrame h
  · exact hpoll .invalid h
  · exact node_of_applyStep h
  · exact node_of_applyStep h
  · exact node_of_applyStep h

end Sys2Proof.Machine
end

section
/-! The EPC control surface: the checks, the frames and the submits of the host calls (R210 to R222, R226, R228, R231). -/

namespace Sys2Proof.Machine

open Sys2Proof

/-! ## Calls on an idle device -/

theorem onEpc_idle {s : State} {e : Nat} {r : Epc} (f : Epc → Result) (h : EpcIdle s e r) : onEpc s e f = f r :=
  onEpc_some f h.1 (epcFree_iff.mpr h.2)

theorem onBms_idle {s : State} {k : Nat} {b : Bms} (f : Bms → Result) (h : BmsIdle s k b) : onBms s k f = f b :=
  onBms_some f h.1 (bmsFree_iff.mpr h.2)

theorem sendAndDrain_raise (s : State) (e : Nat) (r : Epc) (err : HostError) (frame : Except HostError Frame) :
    sendAndDrain s e r (some err) frame = s.raise err := rfl

theorem sendAndDrain_accepted {s : State} (e : Nat) (r : Epc) (fr : Frame) (h : Accepting s) :
    sendAndDrain s e r none (.ok fr) = (drainEpc (enqueued s (.send fr)) e r).answer .done := by
  simp only [sendAndDrain, transmit, submit_ok (.send fr) h.1 h.2]
  rfl

theorem sendAndDrain_refused {s : State} (e : Nat) (r : Epc) {fr : Frame} {err : HostError}
    (h : submit s.cfg s.node (.send fr) = .error err) : sendAndDrain s e r none (.ok fr) = s.raise err := by
  simp only [sendAndDrain, transmit, h]

/-! ## The checks -/

theorem inBounds_iff {b : Bounds} {v : Int} : inBounds b v = true ↔ b.min ≤ v ∧ v ≤ b.max := by
  simp [inBounds]

theorem inBounds_limitBounds_iff {p : EpcProps} {lt : LimitType} {v : Int} :
    inBounds (limitBounds p lt) v = true ↔ LimitRefOk p lt v := by
  rw [inBounds_iff]
  cases lt <;> rfl

theorem inBounds_s16_iff {v : Int} : inBounds s16Bounds v = true ↔ FitsS16 v := inBounds_iff

theorem modeCheck_same {p : EpcProps} {q : LimitType} (ref lr : Int) :
    modeCheck p q ref q lr = some (.invalidLimitError q) := by
  rw [modeCheck, if_pos rfl]

theorem modeCheck_ref {p : EpcProps} {q lt : LimitType} {ref : Int} (lr : Int) (hlt : lt ≠ q)
    (href : ¬(LimitRefOk p q ref ∧ FitsS16 ref)) : modeCheck p q ref lt lr = some (.rangeError ref) := by
  rw [← inBounds_limitBounds_iff, ← inBounds_s16_iff, ← Bool.and_eq_true] at href
  rw [modeCheck, if_neg hlt, if_pos (by rw [Bool.eq_false_iff.mpr href]; rfl)]

theorem modeCheck_limitRef {p : EpcProps} {q lt : LimitType} {ref lr : Int} (hlt : lt ≠ q) (href : LimitRefOk p q ref)
    (hfits : FitsS16 ref) (hlr : ¬LimitRefOk p lt lr) : modeCheck p q ref lt lr = some (.rangeError lr) := by
  rw [← inBounds_limitBounds_iff] at href hlr
  rw [← inBounds_s16_iff] at hfits
  simp [modeCheck, hlt, href, hfits, hlr]

theorem modeCheck_ok {p : EpcProps} {q lt : LimitType} {ref lr : Int} (hlt : lt ≠ q) (href : LimitRefOk p q ref)
    (hfits : FitsS16 ref) (hlr : LimitRefOk p lt lr) : modeCheck p q ref lt lr = none := by
  rw [← inBounds_limitBounds_iff] at href hlr
  rw [← inBounds_s16_iff] at hfits
  simp [modeCheck, hlt, href, hfits, hlr]

theorem waitCheck_eq (lr : Int) :
    waitCheck lr = if 0 ≤ lr ∧ lr ≤ 2147483647 then none else some (.rangeError lr) := by
  simp [waitCheck, inBounds]

/-- The first value outside is the library's search for one. -/
theorem firstOutside_eq_find? (ok : Int → Bool) (vs : List Int) :
    firstOutside ok vs = (vs.find? (fun v => !ok v)).map HostError.rangeError := by
  induction vs with
  | nil => rfl
  | cons v vs ih => cases hv : ok v <;> simp [firstOutside, hv, ih]

theorem firstOutside_append {ok : Int → Bool} {before : List Int} {v : Int} (after : List Int)
    (hbefore : ∀ x ∈ before, ok x = true) (hv : ok v = false) :
    firstOutside ok (before ++ v :: after) = some (.rangeError v) := by
  have hfind : (before ++ v :: after).find? (fun x => !ok x) = some v :=
    List.find?_eq_some_iff_append.mpr ⟨by simp [hv], before, after, rfl, by simpa using hbefore⟩
  rw [firstOutside_eq_find?, hfind]
  rfl

theorem inBounds_enable_iff {x : Int} : inBounds ⟨0, 1⟩ x = true ↔ x = 0 ∨ x = 1 := by
  rw [inBounds_iff]
  dsimp only
  omega

theorem inBounds_period_iff {x : Int} : inBounds ⟨0, 32767⟩ x = true ↔ 0 ≤ x ∧ x ≤ 32767 := inBounds_iff

theorem periodicCheck_of_enables {ae ap ee ep te tp : Int} (h : ∀ x ∈ [ae, ee, te], x = 0 ∨ x = 1) :
    periodicCheck ae ap ee ep te tp = firstOutside (inBounds ⟨0, 32767⟩) [ap, ep, tp] := by
  have henables : firstOutside (inBounds ⟨0, 1⟩) [ae, ee, te] = none :=
    firstOutside_eq_none_iff.mpr fun x hx => inBounds_enable_iff.mpr (h x hx)
  rw [periodicCheck, henables]

theorem periodicCheck_ok {ae ap ee ep te tp : Int} (henables : ∀ x ∈ [ae, ee, te], x = 0 ∨ x = 1)
    (hperiods : ∀ p ∈ [ap, ep, tp], 0 ≤ p ∧ p ≤ 32767) : periodicCheck ae ap ee ep te tp = none := by
  rw [periodicCheck_of_enables henables]
  exact firstOutside_eq_none_iff.mpr fun p hp => inBounds_period_iff.mpr (hperiods p hp)

theorem periodicCheck_enable {ae ap ee ep te tp v : Int} {before after : List Int}
    (hsplit : [ae, ee, te] = before ++ v :: after)
    (hbefore : ∀ x ∈ before, x = 0 ∨ x = 1) (hv : ¬(v = 0 ∨ v = 1)) :
    periodicCheck ae ap ee ep te tp = some (.rangeError v) := by
  have hfirst : firstOutside (inBounds ⟨0, 1⟩) [ae, ee, te] = some (.rangeError v) := by
    rw [hsplit]
    exact firstOutside_append after (fun x hx => inBounds_enable_iff.mpr (hbefore x hx))
      (Bool.eq_false_iff.mpr (mt inBounds_enable_iff.mp hv))
  rw [periodicCheck, hfirst]

theorem periodicCheck_period {ae ap ee ep te tp v : Int} {before after : List Int}
    (henables : ∀ x ∈ [ae, ee, te], x = 0 ∨ x = 1) (hsplit : [ap, ep, tp] = before ++ v :: after)
    (hbefore : ∀ p ∈ before, 0 ≤ p ∧ p ≤ 32767) (hv : ¬(0 ≤ v ∧ v ≤ 32767)) :
    periodicCheck ae ap ee ep te tp = some (.rangeError v) := by
  rw [periodicCheck_of_enables henables, hsplit]
  exact firstOutside_append after (fun p hp => inBounds_period_iff.mpr (hbefore p hp))
    (Bool.eq_false_iff.mpr (mt inBounds_period_iff.mp hv))

/-- A limit lies within the hardware bounds of its quantity and within its field (R231). -/
theorem limitValueOk_iff {h : HwBounds} {q : Quantity} {v : Int} :
    limitValueOk h q v = true ↔ (h.of q).min ≤ v ∧ v ≤ (h.of q).max ∧
      (if q = .lsVolt ∨ q = .hsVolt then 0 ≤ v ∧ v ≤ 65535 else FitsS16 v) := by
  rw [limitValueOk, Bool.and_eq_true, inBounds_iff, inBounds_iff, and_assoc]
  cases q <;> simp [signedQuantity, s16Bounds, u16Bounds, FitsS16]

/-! ## The frames -/

/-- The encoder's frame of given bytes: the bytes are those of the word it is given (R110, R113). -/
theorem epcFrame_of_bytes (dev : BitVec 6) (type : BitVec 4) {bytes : List Byte} {dlc w : Nat} (hlen : bytes.length = dlc)
    (hdlc : dlc ≤ 8) (hw : leNat bytes = w) : epcFrame dev type.toNat dlc w = .ok ⟨epcId dev type, bytes⟩ := by
  rw [epcFrame_ok dev w type.isLt hdlc, identifier_eq_epcId, ← hw, toLE_leNat_of_length hlen]

theorem leNat_bytes16 (v : BitVec 16) (rest : List Byte) :
    leNat (byteOf v 0 :: byteOf v 1 :: rest) = v.toNat + 2 ^ 16 * leNat rest := by
  have hbytes : byteOf v 0 :: byteOf v 1 :: rest = toLE 2 v.toNat ++ rest := by
    rw [toLE_toNat_eq_map_byteOf]
    rfl
  rw [hbytes, leNat_append, leNat_toLE_toNat v (by decide), length_toLE]
  norm_num

theorem encodeLimit_eq (dev : BitVec 6) (type : BitVec 4) (mx mn : Int) :
    encodeLimit dev type.toNat mx mn = .ok ⟨epcId dev type, limitBytes mx mn⟩ := by
  refine epcFrame_of_bytes dev type rfl (by decide) ?_
  rw [limitBytes, leNat_bytes16, leNat_bytes16, uMod_eq_toNat_ofInt, uMod_eq_toNat_ofInt]
  rfl

theorem toNat_periodicSlot (en period : Int) : (periodicSlot en period).toNat = uMod 1 en + 2 ^ 1 * uMod 15 period := by
  rw [periodicSlot, toNat_append_eq_add, uMod_eq_toNat_ofInt, uMod_eq_toNat_ofInt, Nat.add_comm]

theorem encodePeriodic_eq (dev : BitVec 6) (ae ap ee ep te tp : Int) :
    encodePeriodic dev ae ap ee ep te tp = .ok ⟨epcId dev 7, periodicBytes ae ap ee ep te tp⟩ := by
  refine epcFrame_of_bytes dev 7 rfl (by decide) ?_
  rw [periodicBytes, leNat_bytes16, leNat_bytes16, leNat_bytes16, toNat_periodicSlot, toNat_periodicSlot,
    toNat_periodicSlot, leNat]
  ring

theorem encodeRequest_eq (dev : BitVec 6) (type : Byte) :
    encodeRequest dev type.toNat = .ok ⟨epcId dev 1, [type]⟩ :=
  epcFrame_of_bytes dev 1 rfl (by decide) (by simp [leNat])

end Sys2Proof.Machine
end

section
/-! The calls that check, submit their frame and drain (R210, R212 to R222, R228, R231, R401). -/

namespace Sys2Proof.Machine

open Sys2Proof

/-! ## Each call on an idle device is one check, one submit and one drain -/

theorem setMode_idle {s : State} {e : Nat} {r : Epc} (h : EpcIdle s e r) (q : LimitType) (m : Mode) (ref : Int)
    (lt : LimitType) (lr : Int) : setMode s e q m ref lt lr =
      .next (sendAndDrain s e r (modeCheck r.props q ref lt lr) (encodeMode s.cfg r.devId 1 m lt ref lr)) :=
  onEpc_idle _ h

theorem setLimit_idle {s : State} {e : Nat} {r : Epc} (h : EpcIdle s e r) (q : Quantity) (type : Nat) (mx mn : Int) :
    setLimit s e q type mx mn =
      .next (sendAndDrain s e r (limitCheck s.cfg.hwBounds q mx mn) (encodeLimit r.devId type mx mn)) :=
  onEpc_idle _ h

theorem exec_setWaitMode_idle {s : State} {e : Nat} {r : Epc} (h : EpcIdle s e r) (lr : Int) :
    exec (.epcSetWaitMode e lr) s =
      .next (sendAndDrain s e r (waitCheck lr) (encodeMode s.cfg r.devId 1 .wait .time 0 lr)) :=
  onEpc_idle _ h

theorem exec_disable_idle {s : State} {e : Nat} {r : Epc} (h : EpcIdle s e r) :
    exec (.epcDisable e) s = .next (sendAndDrain s e r none (encodeMode s.cfg r.devId 0 .wait .time 0 0)) :=
  onEpc_idle _ h

theorem exec_setPeriodic_idle {s : State} {e : Nat} {r : Epc} (h : EpcIdle s e r) (ae ap ee ep te tp : Int) :
    exec (.epcSetPeriodic e ae ap ee ep te tp) s =
      .next (sendAndDrain s e r (periodicCheck ae ap ee ep te tp) (encodePeriodic r.devId ae ap ee ep te tp)) :=
  onEpc_idle _ h

/-- The frame of a call that enables the output (R212 to R215, R229). -/
theorem encodeMode_one (cfg : Config) (dev : BitVec 6) (m : Mode) (lt : LimitType) (ref lr : Int) :
    encodeMode cfg dev 1 m lt ref lr =
      .ok ⟨epcId dev 0, modeBytes 1 (modeCode cfg.modeCode m) (limitCode cfg.limitCode lt) ref lr⟩ :=
  encodeMode_eq cfg dev 1 m lt ref lr

/-- The frame of a call that disables it (R216, R229). -/
theorem encodeMode_zero (cfg : Config) (dev : BitVec 6) (m : Mode) (lt : LimitType) (ref lr : Int) :
    encodeMode cfg dev 0 m lt ref lr =
      .ok ⟨epcId dev 0, modeBytes 0 (modeCode cfg.modeCode m) (limitCode cfg.limitCode lt) ref lr⟩ :=
  encodeMode_eq cfg dev 0 m lt ref lr

/-! ## The calls that pass -/

/-- A call whose check passes and whose frame is `fr` submits it and drains (R210, R211). -/
theorem sendAndDrain_pass {s : State} {r : Epc} {check : Option HostError} {frame : Except HostError Frame} {fr : Frame}
    (e : Nat) (hcheck : check = none) (hframe : frame = .ok fr) (h : Accepting s) :
    sendAndDrain s e r check frame = (drainEpc (enqueued s (.send fr)) e r).answer .done := by
  rw [hcheck, hframe]
  exact sendAndDrain_accepted e r fr h

theorem setMode_pass {s : State} {e : Nat} {r : Epc} {q lt : LimitType} {ref lr : Int} {fr : Frame} (h : EpcIdle s e r)
    (hacc : Accepting s) (m : Mode)
    (hfr : fr = ⟨epcId r.devId 0, modeBytes 1 (modeCode s.cfg.modeCode m) (limitNumber s.cfg.limitCode lt) ref lr⟩)
    (hlt : lt ≠ q) (href : LimitRefOk r.props q ref) (hfits : FitsS16 ref) (hlr : LimitRefOk r.props lt lr) :
    setMode s e q m ref lt lr = .next ((drainEpc (enqueued s (.send fr)) e r).answer .done) := by
  rw [limitNumber_eq_limitCode] at hfr
  rw [setMode_idle h, sendAndDrain_pass e (modeCheck_ok hlt href hfits hlr)
    ((encodeMode_one s.cfg r.devId m lt ref lr).trans (congrArg _ hfr.symm)) hacc]

/-- Settles O19: the three calls are one body, which passes its check and submits the frame of R116. -/
theorem modeCallsSubmitTheirFrame : Obligations.ModeCallsSubmitTheirFrame := by
  intro s e r ref lr lt h hacc hfits hlr frame hframe
  exact ⟨fun hlt href => setMode_pass h hacc .cv (hframe _) hlt href hfits hlr,
    fun hlt href => setMode_pass h hacc .cc (hframe _) hlt href hfits hlr,
    fun hlt href => setMode_pass h hacc .cp (hframe _) hlt href hfits hlr⟩

theorem waitCheck_ok {lr : Int} (hlo : 0 ≤ lr) (hhi : lr ≤ 2147483647) : waitCheck lr = none := by
  rw [waitCheck_eq, if_pos ⟨hlo, hhi⟩]

theorem modeBytes_zero : modeBytes 0 0 0 0 0 = [0, 0, 0, 0, 0, 0, 0, 0] := by
  decide

/-- Settles O21: both calls send a MODE frame of WAIT and TIME; under the decided codes its numbers are all zero. -/
theorem waitAndDisableSubmitTheirFrames : Obligations.WaitAndDisableSubmitTheirFrames := by
  intro s e r lr h hacc frame hframe
  refine ⟨fun hlo hhi => ?_, ?_, ?_⟩
  · rw [exec_setWaitMode_idle h, sendAndDrain_pass e (waitCheck_ok hlo hhi)
      ((encodeMode_one s.cfg r.devId .wait .time 0 lr).trans (congrArg _ (hframe 1 lr).symm)) hacc]
  · rw [exec_disable_idle h, sendAndDrain_pass e rfl
      ((encodeMode_zero s.cfg r.devId .wait .time 0 0).trans (congrArg _ (hframe 0 0).symm)) hacc]
  · rintro ⟨hmodes, hlimits⟩
    rw [hframe, hmodes, hlimits]
    exact modeBytes_zero

/-- Settles O22: enables and periods in range pass the check, and the encoder's frame is that of R120. -/
theorem setPeriodicSubmitsItsFrame : Obligations.SetPeriodicSubmitsItsFrame := by
  intro s e r ae ap ee ep te tp h hacc henables hperiods
  rw [exec_setPeriodic_idle h, sendAndDrain_pass e (periodicCheck_ok henables hperiods) (encodePeriodic_eq ..) hacc]

theorem limitCheck_ok {b : HwBounds} {q : Quantity} {mx mn : Int} (h : ∀ v ∈ [mx, mn], limitValueOk b q v = true) :
    limitCheck b q mx mn = none :=
  firstOutside_eq_none_iff.mpr h

theorem setLimit_pass {s : State} {e : Nat} {r : Epc} {q : Quantity} {mx mn : Int} (type : BitVec 4) (h : EpcIdle s e r)
    (hacc : Accepting s) (hok : ∀ v ∈ [mx, mn], limitValueOk s.cfg.hwBounds q v = true) :
    setLimit s e q type.toNat mx mn =
      .next ((drainEpc (enqueued s (.send ⟨epcId r.devId type, limitBytes mx mn⟩)) e r).answer .done) := by
  rw [setLimit_idle h, sendAndDrain_pass e (limitCheck_ok hok) (encodeLimit_eq ..) hacc]

/-- Settles O23: the five calls are one body under the type of their frame. -/
theorem limitCallsSubmitTheirFrame : Obligations.LimitCallsSubmitTheirFrame := by
  intro s e r mx mn h hacc call hcall hbounds
  have hok : ∀ v ∈ [mx, mn], limitValueOk s.cfg.hwBounds call.1 v = true :=
    fun v hv => limitValueOk_iff.mpr (hbounds v hv)
  simp only [List.mem_cons, List.not_mem_nil, or_false] at hcall
  rcases hcall with rfl | rfl | rfl | rfl | rfl
  · exact setLimit_pass 2#4 h hacc hok
  · exact setLimit_pass 3#4 h hacc hok
  · exact setLimit_pass 4#4 h hacc hok
  · exact setLimit_pass 5#4 h hacc hok
  · exact setLimit_pass 6#4 h hacc hok

/-! ## The calls whose check fails -/

theorem setMode_raise {s : State} {e : Nat} {r : Epc} {q lt : LimitType} {ref lr : Int} {err : HostError}
    (h : EpcIdle s e r) (m : Mode) (hcheck : modeCheck r.props q ref lt lr = some err) :
    setMode s e q m ref lt lr = .next (s.raise err) := by
  rw [setMode_idle h, hcheck, sendAndDrain_raise]

/-- A mode call as the body it runs (R212 to R214). -/
theorem exec_modeCall {s : State} {e : Nat} {ref lr : Int} {lt : LimitType} {call : LimitType × Instr}
    (hcall : call ∈ [(LimitType.voltage, Instr.epcSetCvMode e ref lt lr), (.current, .epcSetCcMode e ref lt lr),
      (.power, .epcSetCpMode e ref lt lr)]) : ∃ m, exec call.2 s = setMode s e call.1 m ref lt lr := by
  simp only [List.mem_cons, List.not_mem_nil, or_false] at hcall
  rcases hcall with rfl | rfl | rfl
  · exact ⟨.cv, rfl⟩
  · exact ⟨.cc, rfl⟩
  · exact ⟨.cp, rfl⟩

/-- Settles O20: the three calls raise what `modeCheck` raises first. -/
theorem modeCallErrorsInOrder : Obligations.ModeCallErrorsInOrder := by
  intro s e r ref lr lt h call hcall
  obtain ⟨m, hexec⟩ := exec_modeCall (s := s) hcall
  rw [hexec]
  refine ⟨?_, ?_, ?_⟩
  · intro hlt
    exact setMode_raise h m (hlt ▸ modeCheck_same ref lr)
  · intro hlt href
    exact setMode_raise h m (modeCheck_ref lr hlt href)
  · intro hlt href hfits hlr
    exact setMode_raise h m (modeCheck_limitRef hlt href hfits hlr)

/-- A limit call as the body it runs (R218 to R222). -/
theorem exec_limitCall {s : State} {e : Nat} {mx mn : Int} {call : Quantity × Instr}
    (hcall : call ∈ [(Quantity.lsVolt, Instr.epcSetLsVoltLimit e mx mn), (.lsCurr, .epcSetLsCurrLimit e mx mn),
      (.hsVolt, .epcSetHsVoltLimit e mx mn), (.lsPwr, .epcSetLsPwrLimit e mx mn),
      (.temp, .epcSetTempLimit e mx mn)]) : ∃ type, exec call.2 s = setLimit s e call.1 type mx mn := by
  simp only [List.mem_cons, List.not_mem_nil, or_false] at hcall
  rcases hcall with rfl | rfl | rfl | rfl | rfl
  · exact ⟨typeLsVoltLim, rfl⟩
  · exact ⟨typeLsCurrLim, rfl⟩
  · exact ⟨typeHsVoltLim, rfl⟩
  · exact ⟨typeLsPwrLim, rfl⟩
  · exact ⟨typeTempLim, rfl⟩

/-- Settles O24: each call raises what its check finds first, the enables before the periods, the max before the
min. -/
theorem configurationCallsRaiseRangeError : Obligations.ConfigurationCallsRaiseRangeError := by
  intro s e r h
  refine ⟨fun lr hlr => ?_, fun ae ap ee ep te tp v before after hv => ?_, fun mx mn call hcall ok hok => ?_⟩
  · rw [exec_setWaitMode_idle h, waitCheck_eq, if_neg hlr, sendAndDrain_raise]
    rfl
  · have hcheck : periodicCheck ae ap ee ep te tp = some (.rangeError v) := by
      rcases hv with ⟨hsplit, hbefore, hout⟩ | ⟨henables, hsplit, hbefore, hout⟩
      · exact periodicCheck_enable hsplit hbefore hout
      · exact periodicCheck_period henables hsplit hbefore hout
    rw [exec_setPeriodic_idle h, hcheck, sendAndDrain_raise]
    rfl
  · obtain ⟨type, hexec⟩ := exec_limitCall (s := s) hcall
    have hiff : ∀ v, limitValueOk s.cfg.hwBounds call.1 v = true ↔ ok v := fun v => limitValueOk_iff.trans (hok v).symm
    rw [hexec, setLimit_idle h]
    refine ⟨fun hmx => ?_, fun hmx hmn => ?_⟩
    · have hcheck : limitCheck s.cfg.hwBounds call.1 mx mn = some (.rangeError mx) :=
        firstOutside_append (before := []) [mn] (by simp) (Bool.eq_false_iff.mpr (mt (hiff mx).mp hmx))
      rw [hcheck, sendAndDrain_raise]
      rfl
    · have hcheck : limitCheck s.cfg.hwBounds call.1 mx mn = some (.rangeError mn) :=
        firstOutside_append (before := [mx]) [] (by simpa using (hiff mx).mpr hmx)
          (Bool.eq_false_iff.mpr (mt (hiff mn).mp hmn))
      rw [hcheck, sendAndDrain_raise]
      rfl

/-! ## The calls whose submit fails -/

/-- The submit of a command fails with `err`: on a closed queue, else on a full one (R180). -/
def SubmitFails (s : State) (err : HostError) : Prop :=
  (s.node.cmdqOpen = false ∧ err = .queueClosed) ∨
    (s.node.cmdqOpen = true ∧ s.node.cmdq.length = s.cfg.cmdDepth ∧ err = .queueFull)

theorem SubmitFails.submit_eq {s : State} {err : HostError} (h : SubmitFails s err) (c : Command) :
    submit s.cfg s.node c = .error err := by
  rcases h with ⟨hclosed, rfl⟩ | ⟨hopen, hfull, rfl⟩
  · simp [submit, hclosed]
  · simp [submit, hopen, hfull]

theorem SubmitFails.issueCall_eq {s : State} {err : HostError} (h : SubmitFails s err) (c : Command) (kind : WaitKind)
    (target : Nat) : issueCall s c kind target = s.raise err := by
  rw [issueCall, h.submit_eq c]

theorem SubmitFails.sendAndDrain_eq {s : State} {err : HostError} (h : SubmitFails s err) {r : Epc} {fr : Frame}
    {check : Option HostError} {frame : Except HostError Frame} (e : Nat) (hcheck : check = none)
    (hframe : frame = .ok fr) : sendAndDrain s e r check frame = s.raise err := by
  rw [hcheck, hframe]
  exact sendAndDrain_refused e r (h.submit_eq _)

theorem SubmitFails.setMode_eq {s : State} {err : HostError} (hsub : SubmitFails s err) {e : Nat} {r : Epc}
    (h : EpcIdle s e r) {q lt : LimitType} {ref lr : Int} (m : Mode) (hcheck : modeCheck r.props q ref lt lr = none) :
    setMode s e q m ref lt lr = .next (s.raise err) := by
  rw [setMode_idle h, hsub.sendAndDrain_eq e hcheck (encodeMode_one s.cfg r.devId m lt ref lr)]

theorem SubmitFails.setLimit_eq {s : State} {err : HostError} (hsub : SubmitFails s err) {e : Nat} {r : Epc}
    (h : EpcIdle s e r) {q : Quantity} {mx mn : Int} (type : BitVec 4)
    (hcheck : limitCheck s.cfg.hwBounds q mx mn = none) :
    setLimit s e q type.toNat mx mn = .next (s.raise err) := by
  rw [setLimit_idle h, hsub.sendAndDrain_eq e hcheck (encodeLimit_eq ..)]

/-- Settles O25: every call that passes its check makes one submit, whose error it raises. -/
theorem callsRaiseSubmitErrors : Obligations.CallsRaiseSubmitErrors := by
  intro s err hsub
  replace hsub : SubmitFails s err := hsub
  refine ⟨?_, ?_, ?_⟩
  · intro e r ref lr mx mn ae ap ee ep te tp lt h call hcall hcheck
    simp only [List.mem_cons, List.not_mem_nil, or_false] at hcall
    rcases hcall with rfl | rfl | rfl | rfl | rfl | rfl | rfl | rfl | rfl | rfl | rfl | rfl | rfl
    · exact hsub.setMode_eq h .cv hcheck
    · exact hsub.setMode_eq h .cc hcheck
    · exact hsub.setMode_eq h .cp hcheck
    · rw [exec_setWaitMode_idle h, hsub.sendAndDrain_eq e hcheck (encodeMode_one s.cfg r.devId .wait .time 0 lr)]
      rfl
    · rw [exec_disable_idle h, hsub.sendAndDrain_eq e rfl (encodeMode_zero s.cfg r.devId .wait .time 0 0)]
      rfl
    · rw [exec_setPeriodic_idle h, hsub.sendAndDrain_eq e hcheck (encodePeriodic_eq ..)]
      rfl
    · exact hsub.setLimit_eq h 2#4 hcheck
    · exact hsub.setLimit_eq h 3#4 hcheck
    · exact hsub.setLimit_eq h 4#4 hcheck
    · exact hsub.setLimit_eq h 5#4 hcheck
    · exact hsub.setLimit_eq h 6#4 hcheck
    · exact (onEpc_idle _ h).trans (congrArg _ (hsub.issueCall_eq ..))
    · exact (onEpc_idle _ h).trans (congrArg _ (hsub.issueCall_eq ..))
  · intro k b h
    exact (onBms_idle _ h).trans (congrArg _ (hsub.issueCall_eq ..))
  · intro ch address mask now
    have hnew : SubmitFails (s.addBms (Bms.reset ch address mask now)) err := hsub
    exact congrArg _ (hnew.issueCall_eq ..)

end Sys2Proof.Machine
end

section
/-! The calls that wait for the worker in two turns, and the constructions (R224 to R226, R308, R311, R452, R453). -/

namespace Sys2Proof.Machine

open Sys2Proof

/-! ## First turns -/

theorem issueCall_accepted {s : State} (h : Accepting s) (c : Command) (kind : WaitKind) (target : Nat) :
    issueCall s c kind target = { enqueued s c with
      waits := s.waits ++ [⟨s.node.seq, kind, target⟩], reply := some (.waiting s.node.seq) } := by
  rw [issueCall, submit_ok c h.1 h.2]
  rfl

theorem epcFilter_eq (r : Epc) : epcFilter r = ⟨epcId r.devId 0, 0x7F0, r.chan⟩ := by
  rw [epcFilter, ← identifier_eq_epcId]
  rfl

/-! ## Second turns, by what the held call finds -/

section
variable {s : State} {seq target : Nat} {kind : WaitKind} {good atHalt : State → State}

theorem resumeCall_pending (hw : ⟨seq, kind, target⟩ ∈ s.waits) (hnone : s.node.results.lookup seq = none)
    (hrun : s.node.halted = false) :
    resumeCall s seq kind target good atHalt = .next { s with reply := some (.waiting seq) } := by
  simp only [resumeCall, if_pos hw, waitView, hnone, hrun]
  rfl

theorem resumeCall_halted (hw : ⟨seq, kind, target⟩ ∈ s.waits) (hnone : s.node.results.lookup seq = none)
    (hhalt : s.node.halted = true) :
    resumeCall s seq kind target good atHalt = .next (atHalt (s.release ⟨seq, kind, target⟩)) := by
  simp only [resumeCall, if_pos hw, waitView, hnone, hhalt, if_true]

theorem resumeCall_good {out : CmdOutcome} (hw : ⟨seq, kind, target⟩ ∈ s.waits)
    (hout : s.node.results.lookup seq = some out) (hgood : outcomeError out = none) :
    resumeCall s seq kind target good atHalt = .next (good (s.release ⟨seq, kind, target⟩)) := by
  simp only [resumeCall, if_pos hw, waitView, hout, hgood]

theorem resumeCall_raise {out : CmdOutcome} {err : HostError} (hw : ⟨seq, kind, target⟩ ∈ s.waits)
    (hout : s.node.results.lookup seq = some out) (herr : outcomeError out = some err) :
    resumeCall s seq kind target good atHalt = .next { s with
      waits := s.waits.filter (· ≠ ⟨seq, kind, target⟩), reply := some (.raised err) } := by
  simp only [resumeCall, if_pos hw, waitView, hout, herr]
  rfl

/-- A call that ends the same way on a good outcome and at a halt (R225, R311). -/
theorem resumeCall_ends (hw : ⟨seq, kind, target⟩ ∈ s.waits)
    (hend : s.node.results.lookup seq = some .ok ∨ s.node.results.lookup seq = some .noop ∨
      (s.node.results.lookup seq = none ∧ s.node.halted = true)) :
    resumeCall s seq kind target good good = .next (good (s.release ⟨seq, kind, target⟩)) := by
  rcases hend with hout | hout | ⟨hnone, hhalt⟩
  · exact resumeCall_good hw hout rfl
  · exact resumeCall_good hw hout rfl
  · exact resumeCall_halted hw hnone hhalt

end

theorem outcomeError_of_good {out : CmdOutcome} (h : out = .ok ∨ out = .noop) : outcomeError out = none := by
  rcases h with rfl | rfl <;> rfl

theorem setEpcOpened_eq {s : State} {e : Nat} {r : Epc} (h : s.epcs[e]? = some r) (v : Bool) :
    s.setEpcOpened e v = { s with epcs := s.epcs.set e { r with opened := v } } := by
  rw [State.setEpcOpened, List.modify_eq_set_getElem?, h]
  rfl

theorem setBmsOpened_eq {s : State} {k : Nat} {b : Bms} (h : s.bmses[k]? = some b) (v : Bool) :
    s.setBmsOpened k v = { s with bmses := s.bmses.set k { b with opened := v } } := by
  rw [State.setBmsOpened, List.modify_eq_set_getElem?, h]
  rfl

theorem exec_epcOpen_resume (s : State) (e q : Nat) : exec (.epcOpen e (.resume q)) s =
    resumeCall s q .epcOpen e (fun t => (t.setEpcOpened e true).answer .done) (fun t => t.raise .queueClosed) := rfl

theorem exec_epcClose_resume (s : State) (e q : Nat) : exec (.epcClose e (.resume q)) s =
    resumeCall s q .epcClose e (fun t => (t.setEpcOpened e false).answer .done)
      (fun t => (t.setEpcOpened e false).answer .done) := rfl

theorem exec_bmsClose_resume (s : State) (k q : Nat) : exec (.bmsClose k (.resume q)) s =
    resumeCall s q .bmsClose k (fun t => (t.setBmsOpened k false).answer .done)
      (fun t => (t.setBmsOpened k false).answer .done) := rfl

/-- Settles O28: the first turn is the submit of the device's filter; the second, on a good outcome, opens it. -/
theorem epcOpenInstallsFilterThenOpens : Obligations.EpcOpenInstallsFilterThenOpens := by
  intro s e r hr
  refine ⟨fun h hacc => ?_, fun q out hw hout hgood => ?_⟩
  · rw [← epcFilter_eq]
    exact (onEpc_idle _ h).trans (congrArg _ (issueCall_accepted hacc ..))
  · rw [exec_epcOpen_resume, resumeCall_good hw hout (outcomeError_of_good hgood),
      setEpcOpened_eq (s := s.release _) hr]
    rfl

/-- Settles O29: the first turn is the submit of the removal; the second closes the device. -/
theorem epcCloseRemovesFilterThenCloses : Obligations.EpcCloseRemovesFilterThenCloses := by
  intro s e r hr
  refine ⟨fun h hacc => ?_, fun q hw hend => ?_⟩
  · rw [← epcFilter_eq]
    exact (onEpc_idle _ h).trans (congrArg _ (issueCall_accepted hacc ..))
  · rw [exec_epcClose_resume, resumeCall_ends hw hend, setEpcOpened_eq (s := s.release _) hr]
    rfl

/-! ## The construction of a BMS unit -/

/-- The wait that the second turn of a construction looks up is its own: waits have distinct sequence numbers. -/
theorem find?_bmsNew {ws : List Wait} {q k : Nat} (hnodup : (ws.map Wait.seq).Nodup) (hw : ⟨q, .bmsNew, k⟩ ∈ ws) :
    ws.find? (fun w => decide (w.seq = q) && decide (w.kind = .bmsNew)) = some ⟨q, .bmsNew, k⟩ := by
  cases hfind : ws.find? (fun w => decide (w.seq = q) && decide (w.kind = .bmsNew)) with
  | none => simpa using List.find?_eq_none.mp hfind _ hw
  | some w =>
    obtain ⟨hseq, -⟩ : w.seq = q ∧ w.kind = .bmsNew := by simpa using List.find?_some hfind
    rw [List.inj_on_of_nodup_map hnodup (List.mem_of_find?_eq_some hfind) hw hseq]

theorem exec_bmsNew_resume {s : State} {q k : Nat} (hnodup : (s.waits.map Wait.seq).Nodup)
    (hw : ⟨q, .bmsNew, k⟩ ∈ s.waits) (ch : ChanName) (address mask : CanId) (now : Nat) :
    exec (.bmsNew ch address mask now (.resume q)) s =
      resumeCall s q .bmsNew k (fun t => (t.setBmsOpened k true).answer (.handle k)) (fun t => t.raise .queueClosed) := by
  simp only [exec, execBmsNew, find?_bmsNew hnodup hw]

/-- Settles O42: the first turn appends the reset record and submits its filter; the second opens the unit. -/
theorem bmsNewInstallsFilterThenOpens : Obligations.BmsNewInstallsFilterThenOpens := by
  intro s ch address mask now
  refine ⟨fun hacc => ?_, fun q k b out hb hw hnodup hout hgood => ?_⟩
  · have hnew : Accepting (s.addBms (Bms.reset ch address mask now)) := hacc
    exact congrArg _ (issueCall_accepted hnew ..)
  · rw [exec_bmsNew_resume hnodup hw, resumeCall_good hw hout (outcomeError_of_good hgood),
      setBmsOpened_eq (s := s.release _) hb]
    rfl

/-- Settles O43: the first turn is the submit of the removal; the second closes the unit. -/
theorem bmsCloseRemovesFilterThenCloses : Obligations.BmsCloseRemovesFilterThenCloses := by
  intro s k b hb
  refine ⟨fun h hacc => (onBms_idle _ h).trans (congrArg _ (issueCall_accepted hacc ..)), fun q hw hend => ?_⟩
  rw [exec_bmsClose_resume, resumeCall_ends hw hend, setBmsOpened_eq (s := s.release _) hb]
  rfl

/-- The second turn of each of the four waiting calls is one body; `open` and the construction raise QueueClosed at a
halt. -/
theorem exec_resume {s : State} {q k : Nat} {ch : ChanName} {address mask : CanId} {now : Nat}
    (hnodup : (s.waits.map Wait.seq).Nodup) {call : WaitKind × Instr}
    (hcall : call ∈ [(WaitKind.epcOpen, Instr.epcOpen k (.resume q)), (.epcClose, .epcClose k (.resume q)),
      (.bmsNew, .bmsNew ch address mask now (.resume q)), (.bmsClose, .bmsClose k (.resume q))])
    (hw : ⟨q, call.1, k⟩ ∈ s.waits) :
    ∃ good atHalt, exec call.2 s = resumeCall s q call.1 k good atHalt ∧
      (call.1 = .epcOpen ∨ call.1 = .bmsNew → atHalt = fun t => t.raise .queueClosed) := by
  simp only [List.mem_cons, List.not_mem_nil, or_false] at hcall
  rcases hcall with rfl | rfl | rfl | rfl
  · exact ⟨_, _, exec_epcOpen_resume s k q, fun _ => rfl⟩
  · exact ⟨_, _, exec_epcClose_resume s k q, fun h => by simp at h⟩
  · exact ⟨_, _, exec_bmsNew_resume hnodup hw .., fun _ => rfl⟩
  · exact ⟨_, _, exec_bmsClose_resume s k q, fun h => by simp at h⟩

/-- Settles O30: the second turn by what the call finds, one body for the four calls. -/
theorem heldCallsWaitOrRaise : Obligations.HeldCallsWaitOrRaise := by
  intro s q k fe ch address mask now hnodup call hcall hw
  obtain ⟨good, atHalt, hexec, hclosed⟩ := exec_resume hnodup hcall hw
  rw [hexec]
  refine ⟨fun hnone hrun => resumeCall_pending hw hnone hrun, fun hout => resumeCall_raise hw hout rfl,
    fun hout => resumeCall_raise hw hout rfl, fun hnone hhalt hkind => ?_⟩
  rw [resumeCall_halted hw hnone hhalt, hclosed hkind]
  rfl

/-! ## The construction of an EPC device -/

/-- The ten limits in the order of R226, each with its quantity: max before min. -/
def propLimits (p : EpcProps) (qs : List Quantity) : List (Quantity × Int) :=
  qs.flatMap fun q => [(q, fieldValue q (propMax p q)), (q, fieldValue q (propMin p q))]

/-- The property checks find the first limit outside the bounds of its quantity (R226). -/
theorem propsCheck_eq_find? (h : HwBounds) (p : EpcProps) (qs : List Quantity) :
    propsCheck h p qs =
      ((propLimits p qs).find? (fun x => !inBounds (h.of x.1) x.2)).map (fun x => .rangeError x.2) := by
  induction qs with
  | nil => rfl
  | cons q qs ih =>
    have hcons : propLimits p (q :: qs) =
        (q, fieldValue q (propMax p q)) :: (q, fieldValue q (propMin p q)) :: propLimits p qs := rfl
    rw [hcons, propsCheck, ih]
    cases hmax : inBounds (h.of q) (fieldValue q (propMax p q)) <;>
      cases hmin : inBounds (h.of q) (fieldValue q (propMin p q)) <;> simp [firstOutside, hmax, hmin]

theorem newCheck_of_devId {d : Nat} (h : HwBounds) (p : EpcProps) (hd : d ≤ 63) :
    newCheck h d p =
      ((propLimits p quantities).find? (fun x => !inBounds (h.of x.1) x.2)).map (fun x => .rangeError x.2) := by
  rw [newCheck, if_neg (by omega), propsCheck_eq_find?]

theorem exec_epcNew_raise {s : State} {d : Nat} {ch : ChanName} {p : EpcProps} {err : HostError}
    (h : newCheck s.cfg.hwBounds d p = some err) :
    exec (.epcNew d ch p) s = .next { s with reply := some (.raised err) } := by
  simp only [exec, execEpcNew, h]
  rfl

theorem exec_epcNew_ok {s : State} {d : Nat} {p : EpcProps} (ch : ChanName)
    (h : newCheck s.cfg.hwBounds d p = none) :
    exec (.epcNew d ch p) s = .next { s with
      epcs := s.epcs ++ [Epc.reset (BitVec.ofNat 6 d) ch p], reply := some (.handle s.epcs.length) } := by
  simp only [exec, execEpcNew, h]
  rfl

/-- Settles O31: the check is the search for the first limit out of bounds, after the device id. -/
theorem epcNewConstructsOrRaisesRangeError : Obligations.EpcNewConstructsOrRaisesRangeError := by
  intro s d ch p limits ok hlimits hok
  have hlist : propLimits p quantities = limits := hlimits.symm
  have hbounds : ∀ x : Quantity × Int, inBounds (s.cfg.hwBounds.of x.1) x.2 = true ↔ ok x :=
    fun x => inBounds_iff.trans (hok x).symm
  refine ⟨fun hd => ?_, fun hd before x after hsplit hbefore hx => ?_, fun hd hall => ?_⟩
  · exact exec_epcNew_raise (if_pos hd)
  · have hfind : limits.find? (fun x => !inBounds (s.cfg.hwBounds.of x.1) x.2) = some x :=
      List.find?_eq_some_iff_append.mpr ⟨by simpa using mt (hbounds x).mp hx, before, after, hsplit,
        fun y hy => by simpa using (hbounds y).mpr (hbefore y hy)⟩
    refine exec_epcNew_raise ?_
    rw [newCheck_of_devId _ p hd, hlist, hfind]
    rfl
  · have hfind : limits.find? (fun x => !inBounds (s.cfg.hwBounds.of x.1) x.2) = none :=
      List.find?_eq_none.mpr fun x hx => by simpa using (hbounds x).mpr (hall x hx)
    refine exec_epcNew_ok ch ?_
    rw [newCheck_of_devId _ p hd, hlist, hfind]
    rfl

end Sys2Proof.Machine
end

section
/-! The monitoring calls of an EPC (R211, R223, R227): the requests that fit, the drain, and the same call in two
transitions (log 8). -/

namespace Sys2Proof.Machine

open Sys2Proof

/-! ## A drain -/

theorem drainEpc_eq (s : State) (e : Nat) (r : Epc) : drainEpc s e r = { s with
    node := { s.node with chans := (drained s r).1 }, epcs := s.epcs.set e (drained s r).2 } := rfl

/-- Writing back the record that stands there changes nothing. -/
theorem epcs_set_self {s : State} {e : Nat} {r : Epc} (h : s.epcs[e]? = some r) : s.epcs.set e r = s.epcs := by
  obtain ⟨he, rfl⟩ := List.getElem?_eq_some_iff.mp h
  exact List.set_getElem_self he

theorem drainEpc_closed {s : State} {e : Nat} {r : Epc} (hr : s.epcs[e]? = some r)
    (h : chanGet s.node.chans r.chan = none) : drainEpc s e r = s := by
  rw [drainEpc_eq, (drained_spec s r).1 h, epcs_set_self hr]

/-- Settles O26: the drain by `drained_spec`, the call in progress by `drainOf_putFrames`, the rows by
`exec_epcRow_next`. -/
theorem epcDrainDecodesOldestFrames : Obligations.EpcDrainDecodesOldestFrames := by
  refine ⟨fun s e r hr => ⟨drainEpc_closed hr, fun q hq => ?_⟩, fun s d q => ?_,
    fun s e r q dev low data row hrow h => exec_epcRow_next hrow h⟩
  · obtain ⟨hrecord, hrest, hother⟩ := (drained_spec s r).2 q hq
    exact ⟨(drained s r).1, by rw [drainEpc_eq, hrecord], hrest, hother⟩
  · refine ⟨_, rfl, List.length_map _, fun x hx => ?_, fun d' hd' => ?_⟩
    · rw [afterRead_eq_putFrames, drainOf_putFrames, if_pos rfl, hx]
      rfl
    · rw [afterRead_eq_putFrames, drainOf_putFrames, if_neg hd']

/-! ## The requests -/

/-- The submit of one REQUEST frame (R126). -/
def requested (dev : BitVec 6) (s : State) (type : Byte) : State := enqueued s (.send ⟨epcId dev 1, [type]⟩)

theorem submitRequests_of_fails {s : State} {err : HostError} (h : SubmitFails s err) (dev : BitVec 6)
    (types : List Nat) : submitRequests s.cfg dev types s.node = s.node := by
  induction types with
  | nil => rfl
  | cons t ts ih =>
    unfold submitRequests
    cases hframe : encodeRequest dev t with
    | error err => exact ih
    | ok fr => simpa only [transmit, h.submit_eq] using ih

/-- On an open queue the requests are queued in order, as many as there is room for (R223, R227). -/
theorem withNode_submitRequests (dev : BitVec 6) (types : List Byte) (s : State) (hopen : s.node.cmdqOpen = true)
    (hroom : s.node.cmdq.length ≤ s.cfg.cmdDepth) :
    s.withNode (submitRequests s.cfg dev (types.map BitVec.toNat) s.node) =
      (types.take (s.cfg.cmdDepth - s.node.cmdq.length)).foldl (requested dev) s := by
  induction types generalizing s with
  | nil => simp [submitRequests, State.withNode]
  | cons t ts ih =>
    by_cases hfull : s.node.cmdq.length = s.cfg.cmdDepth
    · rw [submitRequests_of_fails (.inr ⟨hopen, hfull, rfl⟩), hfull, Nat.sub_self]
      rfl
    · have hnode : submitRequests s.cfg dev ((t :: ts).map BitVec.toNat) s.node =
          submitRequests s.cfg dev (ts.map BitVec.toNat) (requested dev s t).node := by
        simp only [List.map_cons, submitRequests, encodeRequest_eq, transmit, submit_ok _ hopen hfull]
        rfl
      have hlen : (requested dev s t).node.cmdq.length = s.node.cmdq.length + 1 := by simp [requested, enqueued]
      have hsub : s.cfg.cmdDepth - s.node.cmdq.length = s.cfg.cmdDepth - (s.node.cmdq.length + 1) + 1 := by omega
      rw [hnode, hsub, List.take_succ_cons, List.foldl_cons, ← hlen]
      exact ih (requested dev s t) hopen (by rw [hlen]; exact Nat.lt_of_le_of_ne hroom hfull)

theorem requestState_false (s : State) (r : Epc) (types : List Nat) : requestState s r false types = s := rfl

theorem requestState_closed {s : State} (r : Epc) (update : Bool) (types : List Nat) (h : s.node.cmdqOpen = false) :
    requestState s r update types = s := by
  cases update with
  | false => rfl
  | true =>
    rw [requestState, if_pos rfl, submitRequests_of_fails (.inl ⟨h, rfl⟩)]
    rfl

theorem requestState_open {s : State} (r : Epc) (types : List Byte) (hopen : s.node.cmdqOpen = true)
    (hroom : s.node.cmdq.length ≤ s.cfg.cmdDepth) :
    requestState s r true (types.map BitVec.toNat) =
      (types.take (s.cfg.cmdDepth - s.node.cmdq.length)).foldl (requested r.devId) s :=
  withNode_submitRequests r.devId types s hopen hroom

@[simp] theorem requestState_chans (s : State) (r : Epc) (update : Bool) (types : List Nat) :
    (requestState s r update types).node.chans = s.node.chans := by
  cases update with
  | false => rfl
  | true =>
    obtain ⟨q, k, hnode⟩ := submitRequests_frame s.cfg r.devId types s.node
    rw [requestState, if_pos rfl, hnode]
    rfl

/-! ## One device's call among the calls in progress -/

section
variable {s : State} {ds : List Drain} {x : Drain}

theorem drainOf_concat (h : s.drains = ds ++ [x]) (hne : ∀ y ∈ ds, y.device ≠ x.device) :
    drainOf s x.device = some x := by
  have hnone : ds.find? (fun y => decide (y.device = x.device)) = none := by simpa using hne
  rw [drainOf, h, List.find?_append, hnone]
  simp

theorem putFrames_concat (h : s.drains = ds ++ [x]) (hne : ∀ y ∈ ds, y.device ≠ x.device) (q : List Frame) :
    (s.putFrames x.device q).drains = ds ++ [{ x with frames := q }] := by
  have hkeep : ds.map (fun y => if y.device = x.device then { y with frames := q } else y) = ds :=
    (List.map_congr_left fun y hy => if_neg (hne y hy)).trans (List.map_id ds)
  rw [putFrames_drains, h, List.map_append, hkeep]
  simp

theorem endDrain_concat (h : s.drains = ds ++ [x]) (hne : ∀ y ∈ ds, y.device ≠ x.device) :
    (s.endDrain x.device).drains = ds := by
  have hkeep : ds.filter (fun y => decide (y.device ≠ x.device)) = ds :=
    List.filter_eq_self.mpr fun y hy => decide_eq_true (hne y hy)
  rw [endDrain_drains, h, List.filter_append, hkeep]
  simp

end

/-! ## `get_data` in two transitions -/

/-- `get_data` on EPC device `e` is in progress: its drain read `frames` from state `s`, which left the channels `m`;
it has decoded some of them into the record `r` and has the others to decode. -/
def EpcMidway (s : State) (e : Nat) (r : Epc) (frames : List Frame) (m : List (ChanName × List Frame)) (u : State) :
    Prop :=
  ∃ done todo, frames = done ++ todo ∧ u = { s with
    node := { s.node with chans := m }
    epcs := s.epcs.set e (done.foldl (decodeFrame s.cfg) r)
    drains := s.drains ++ [⟨.epc e, todo, 0⟩]
    reply := some (.draining frames.length) }

theorem epcs_set_getElem?_of {s : State} {e : Nat} {r r' : Epc} (h : s.epcs[e]? = some r) :
    (s.epcs.set e r')[e]? = some r' := by
  obtain ⟨he, -⟩ := List.getElem?_eq_some_iff.mp h
  simp [he]

/-- A frame row on the device decodes the next frame of the call. -/
theorem EpcMidway.row {s u t : State} {e : Nat} {r : Epc} {frames : List Frame} {m : List (ChanName × List Frame)}
    (hr : s.epcs[e]? = some r) (hne : ∀ y ∈ s.drains, y.device ≠ .epc e) (h : EpcMidway s e r frames m u)
    (hstep : EpcRowStep e u t) : EpcMidway s e r frames m t := by
  obtain ⟨done, todo, rfl, rfl⟩ := h
  obtain ⟨dev, low, data, row, hrow, hexec⟩ := hstep
  rw [exec_epcRow _ _ _ _ _ _ hrow] at hexec
  obtain ⟨r', x, q, hr', hx, hq, rfl⟩ := epcRx_next.mp hexec
  obtain rfl : (⟨.epc e, todo, 0⟩ : Drain) = x := Option.some.inj ((drainOf_concat rfl hne).symm.trans hx)
  obtain rfl : done.foldl (decodeFrame s.cfg) r = r' := Option.some.inj ((epcs_set_getElem?_of hr).symm.trans hr')
  obtain rfl : todo = ⟨dev ++ row.1, data⟩ :: q := hq
  refine ⟨done ++ [⟨dev ++ row.1, data⟩], q, by simp, ?_⟩
  have hdrains := putFrames_concat (s := { s with drains := s.drains ++ [⟨.epc e, ⟨dev ++ row.1, data⟩ :: q, 0⟩] })
    rfl hne q
  rw [putFrames_drains] at hdrains
  simp only [State.withEpc, State.putFrames, List.set_set, List.foldl_append, List.foldl_cons, List.foldl_nil, hdrains]

theorem EpcMidway.rows {s u t : State} {e : Nat} {r : Epc} {frames : List Frame} {m : List (ChanName × List Frame)}
    (hr : s.epcs[e]? = some r) (hne : ∀ y ∈ s.drains, y.device ≠ .epc e) (h : EpcMidway s e r frames m u)
    (hsteps : Relation.ReflTransGen (EpcRowStep e) u t) : EpcMidway s e r frames m t := by
  induction hsteps with
  | refl => exact h
  | tail _ hstep ih => exact ih.row hr hne hstep

/-- The return that ends the call leaves the drained state and the live data (R211, R223). -/
theorem EpcMidway.finish {s u v : State} {e : Nat} {r : Epc} {frames : List Frame} {m : List (ChanName × List Frame)}
    (hr : s.epcs[e]? = some r) (hne : ∀ y ∈ s.drains, y.device ≠ .epc e) (h : EpcMidway s e r frames m u)
    (hfinish : exec (.epcGetData e .finish) u = .next v) (hdone : drainOf v (.epc e) = none) :
    v = { s with
      node := { s.node with chans := m }
      epcs := s.epcs.set e (frames.foldl (decodeFrame s.cfg) r)
      reply := some (.live (frames.foldl (decodeFrame s.cfg) r).live) } := by
  obtain ⟨done, todo, rfl, rfl⟩ := h
  obtain ⟨r', hr', hcall⟩ := atEpc_next.mp hfinish
  obtain ⟨x, hx, hend⟩ := finishDrain_next.mp hcall
  obtain rfl : (⟨.epc e, todo, 0⟩ : Drain) = x := Option.some.inj ((drainOf_concat rfl hne).symm.trans hx)
  obtain rfl : done.foldl (decodeFrame s.cfg) r = r' := Option.some.inj ((epcs_set_getElem?_of hr).symm.trans hr')
  rcases hend with ⟨rfl, rfl⟩ | ⟨-, rfl⟩
  · have hdrains := endDrain_concat (s := { s with drains := s.drains ++ [⟨.epc e, [], 0⟩] }) rfl hne
    rw [endDrain_drains] at hdrains
    simp only [State.answer, State.endDrain, List.append_nil, hdrains]
  · exact absurd (hx.symm.trans hdone) (by simp)

theorem exec_epcGetData_whole {s : State} {e : Nat} {r : Epc} (h : EpcIdle s e r) (update : Bool) :
    exec (.epcGetData e (.whole update)) s = .next ((drainEpc (requestState s r update dataRequests) e r).answer
      (.live (drained (requestState s r update dataRequests) r).2.live)) :=
  onEpc_idle _ h

theorem exec_epcGetProperties {s : State} {e : Nat} {r : Epc} (h : EpcIdle s e r) (update : Bool) :
    exec (.epcGetProperties e update) s = .next ((drainEpc (requestState s r update propertyRequests) e r).answer
      (.props (drained (requestState s r update propertyRequests) r).2.props)) :=
  onEpc_idle _ h

/-- What the start of `get_data` leaves: the frames of its drain are read and none is decoded yet. -/
theorem epcMidway_startDrain (s : State) {e : Nat} {r : Epc} (hr : s.epcs[e]? = some r) :
    EpcMidway s e r (takeFrames s.cfg.epcDrainMax s.node.chans r.chan).1
      (takeFrames s.cfg.epcDrainMax s.node.chans r.chan).2 (startDrain s (.epc e) r.chan s.cfg.epcDrainMax 0) := by
  refine ⟨[], _, rfl, ?_⟩
  rw [List.foldl_nil, epcs_set_self hr]
  rfl

theorem epcGetData_two_transitions {s t u v : State} {e : Nat} {update : Bool}
    (hstart : exec (.epcGetData e (.start update)) s = .next t) (hrows : Relation.ReflTransGen (EpcRowStep e) t u)
    (hfinish : exec (.epcGetData e .finish) u = .next v) (hdone : drainOf v (.epc e) = none) :
    exec (.epcGetData e (.whole update)) s = .next v := by
  obtain ⟨r, hr, hfree, ht⟩ := onEpc_next.mp hstart
  cases ht
  have hidle : EpcIdle s e r := ⟨hr, epcFree_iff.mp hfree⟩
  have hr' : (requestState s r update dataRequests).epcs[e]? = some r := by rwa [requestState_epcs]
  have hne : ∀ y ∈ (requestState s r update dataRequests).drains, y.device ≠ .epc e := by
    rw [requestState_drains]
    exact hidle.2.2
  have hmid := epcMidway_startDrain (requestState s r update dataRequests) hr'
  rw [requestState_cfg] at hmid
  rw [exec_epcGetData_whole hidle, (hmid.rows hr' hne hrows).finish hr' hne hfinish hdone]
  simp only [drainEpc_eq, drained, State.answer, requestState_cfg]

/-- The state in which a monitoring call drains, by what its requests find (R223). -/
theorem requestState_of_cases {s u : State} {r : Epc} {update : Bool}
    (h : (u = s ∧ (update = false ∨ s.node.cmdqOpen = false)) ∨
      (u = ([0x00, 0x0B, 0x0C, 0x0D].take (s.cfg.cmdDepth - s.node.cmdq.length)).foldl
          (fun t b => enqueued t (.send ⟨epcId r.devId 1, [b]⟩)) s ∧
        update = true ∧ s.node.cmdqOpen = true ∧ s.node.cmdq.length ≤ s.cfg.cmdDepth)) :
    requestState s r update dataRequests = u := by
  rcases h with ⟨rfl, rfl | hclosed⟩ | ⟨rfl, rfl, hopen, hroom⟩
  · rfl
  · exact requestState_closed r update _ hclosed
  · exact requestState_open r [0x00, 0x0B, 0x0C, 0x0D] hopen hroom

/-- The start of `get_data` by name: what its drain has read and what it leaves queued. -/
theorem exec_epcGetData_start {s u : State} {e : Nat} {r : Epc} {update : Bool} (h : EpcIdle s e r)
    (hu : requestState s r update dataRequests = u) :
    ∃ m fs, exec (.epcGetData e (.start update)) s = .next { u with
        node := { u.node with chans := m }
        drains := s.drains ++ [⟨.epc e, fs, 0⟩]
        reply := some (.draining fs.length) } ∧
      (chanGet s.node.chans r.chan = none → m = s.node.chans ∧ fs = []) ∧
      (∀ q, chanGet s.node.chans r.chan = some q →
        fs = q.take s.cfg.epcDrainMax ∧ chanGet m r.chan = some (q.drop s.cfg.epcDrainMax)) ∧
      ∀ n, n ≠ r.chan → chanGet m n = chanGet s.node.chans n := by
  have hchans : u.node.chans = s.node.chans := hu ▸ requestState_chans s r update _
  have hdrains : u.drains = s.drains := hu ▸ requestState_drains s r update _
  obtain ⟨m, fs, hstart, hnone, hsome⟩ := startDrain_spec u (.epc e) r.chan s.cfg.epcDrainMax 0
  rw [hchans] at hnone hsome
  refine ⟨m, fs, ?_, hnone, fun q hq => ⟨(hsome q hq).1, (hsome q hq).2.1⟩, fun n hn => ?_⟩
  · refine (onEpc_idle _ h).trans ?_
    rw [hu, hstart, ← hdrains]
    rfl
  · cases hq : chanGet s.node.chans r.chan with
    | none => rw [(hnone hq).1]
    | some q => exact (hsome q hq).2.2 n hn

/-- A monitoring call in one transition, by what its requests find: `call`, `types` and `view` are its operation, its
request list and its answer. -/
theorem monitoring_cases {s : State} {e : Nat} {r : Epc} {types : List Byte} {requests : List Nat} {call : Bool → Instr}
    {view : Epc → Reply} (hrequests : requests = types.map BitVec.toNat)
    (hcall : ∀ update, exec (call update) s = .next ((drainEpc (requestState s r update requests) e r).answer
      (view (drained (requestState s r update requests) r).2))) :
    exec (call false) s = .next ((drainEpc s e r).answer (view (drained s r).2)) ∧
    (s.node.cmdqOpen = false → exec (call true) s = exec (call false) s) ∧
    (s.node.cmdqOpen = true → s.node.cmdq.length ≤ s.cfg.cmdDepth →
      ∃ u, u = (types.take (s.cfg.cmdDepth - s.node.cmdq.length)).foldl
          (fun t b => enqueued t (.send ⟨epcId r.devId 1, [b]⟩)) s ∧
        exec (call true) s = .next ((drainEpc u e r).answer (view (drained u r).2))) := by
  refine ⟨hcall false, fun hclosed => ?_, fun hopen hroom => ⟨_, rfl, ?_⟩⟩
  · rw [hcall, hcall, requestState_closed r true _ hclosed, requestState_false]
  · rw [hcall, hrequests, requestState_open r types hopen hroom]
    rfl

/-- Settles O27: both calls are one body; the two transitions are followed frame by frame by `EpcMidway`. -/
theorem monitoringCallsAlwaysAnswer : Obligations.MonitoringCallsAlwaysAnswer := by
  refine ⟨fun s e r h types call view hcase => ?_, fun s e r update u h hu => ?_, fun s e r x hr hx => ⟨fun hq => ?_,
    fun hq => ?_⟩, fun s t u v e update => epcGetData_two_transitions⟩
  · rcases hcase with ⟨rfl, rfl, rfl⟩ | ⟨rfl, rfl, rfl⟩
    · exact monitoring_cases (call := fun u => .epcGetData e (.whole u)) (view := fun x => .live x.live) rfl
        (exec_epcGetData_whole h)
    · exact monitoring_cases (call := .epcGetProperties e) (view := fun x => .props x.props) rfl (exec_epcGetProperties h)
  · exact exec_epcGetData_start h (requestState_of_cases hu)
  · exact atEpc_next.mpr ⟨r, hr, finishDrain_next.mpr ⟨x, hx, .inr ⟨hq, rfl⟩⟩⟩
  · exact atEpc_next.mpr ⟨r, hr, finishDrain_next.mpr ⟨x, hx, .inl ⟨hq, rfl⟩⟩⟩

end Sys2Proof.Machine
end

section
/-! The EPC decoder, byte by byte (R261 to R273): the bits of a frame's payload are bits of its bytes, and each frame row
writes what the decoder reads there. -/

namespace Sys2Proof.Machine

open Sys2Proof

/-! ## The bits of a payload -/

/-- Bits that lie within some bytes of a payload are bits of those bytes (R12). -/
theorem bits_leNat_append (before mid rest : List Byte) {hi lo o len : Nat} (hlo : lo = 8 * before.length + o)
    (hhi : hi + 1 = lo + len) (hfit : o + len ≤ 8 * mid.length) :
    bits (leNat (before ++ (mid ++ rest))) hi lo = leNat mid / 2 ^ o % 2 ^ len := by
  have hlen : hi + 1 - lo = len := by omega
  have hpow : ∀ n : Nat, (256 : Nat) ^ n = 2 ^ (8 * n) := fun n => by rw [pow_mul]; rfl
  have hbefore : leNat before < 2 ^ (8 * before.length) := hpow _ ▸ leNat_lt before
  have hsplit : (2 : Nat) ^ (8 * mid.length) = 2 ^ o * (2 ^ len * 2 ^ (8 * mid.length - o - len)) := by
    rw [← pow_add, ← pow_add]
    congr 1
    omega
  rw [bits, hlen, hlo, leNat_append, leNat_append, hpow, hpow, hsplit, pow_add, ← Nat.div_div_eq_div_mul,
    Nat.add_mul_div_left _ _ (by positivity), Nat.div_eq_of_lt hbefore, Nat.zero_add, mul_assoc (2 ^ o),
    Nat.add_mul_div_left _ _ (by positivity), mul_assoc (2 ^ len), Nat.add_mul_mod_self_left]

/-- As `bits_leNat_append`, for the word that the bytes are. -/
theorem bits_bytes {w : Nat} (v : BitVec w) (before mid rest : List Byte) (hv : leNat mid = v.toNat)
    (hw : w = 8 * mid.length) {hi lo o len : Nat} (hlo : lo = 8 * before.length + o) (hhi : hi + 1 = lo + len)
    (hfit : o + len ≤ w) : bits (leNat (before ++ (mid ++ rest))) hi lo = (v.extractLsb' o len).toNat := by
  rw [bits_leNat_append before mid rest hlo hhi (hw ▸ hfit), hv, BitVec.extractLsb'_toNat, Nat.shiftRight_eq_div_pow]

theorem leNat_byte (b : Byte) : leNat [b] = b.toNat := by
  simp [leNat]

theorem leNat_pair (b0 b1 : Byte) : leNat [b0, b1] = (b1 ++ b0).toNat := by
  rw [toNat_append_eq_add, leNat, leNat_byte]
  omega

theorem leNat_quad (b0 b1 b2 b3 : Byte) : leNat [b0, b1, b2, b3] = (b3 ++ b2 ++ b1 ++ b0).toNat := by
  simp only [toNat_append_eq_add, leNat]
  omega

section
variable (before rest : List Byte) (b0 b1 b2 b3 : Byte) {hi lo o len : Nat}

theorem bits_byte (hlo : lo = 8 * before.length + o) (hhi : hi + 1 = lo + len) (hfit : o + len ≤ 8) :
    bits (leNat (before ++ b0 :: rest)) hi lo = (b0.extractLsb' o len).toNat :=
  bits_bytes b0 before [b0] rest (leNat_byte b0) rfl hlo hhi hfit

theorem bits_pair (hlo : lo = 8 * before.length + o) (hhi : hi + 1 = lo + len) (hfit : o + len ≤ 16) :
    bits (leNat (before ++ b0 :: b1 :: rest)) hi lo = ((b1 ++ b0).extractLsb' o len).toNat :=
  bits_bytes (b1 ++ b0) before [b0, b1] rest (leNat_pair b0 b1) rfl hlo hhi hfit

theorem bits_quad (hlo : lo = 8 * before.length + o) (hhi : hi + 1 = lo + len) (hfit : o + len ≤ 32) :
    bits (leNat (before ++ b0 :: b1 :: b2 :: b3 :: rest)) hi lo = ((b3 ++ b2 ++ b1 ++ b0).extractLsb' o len).toNat :=
  bits_bytes (b3 ++ b2 ++ b1 ++ b0) before [b0, b1, b2, b3] rest (leNat_quad b0 b1 b2 b3) rfl hlo hhi hfit

/-- A 16-bit field (R12, R13). -/
theorem bits_word16 (hlo : lo = 8 * before.length) (hhi : hi + 1 = lo + 16) :
    bits (leNat (before ++ b0 :: b1 :: rest)) hi lo = (b1 ++ b0).toNat := by
  rw [bits_pair before rest b0 b1 (o := 0) hlo hhi (by decide), BitVec.extractLsb'_eq_self]

/-- A 32-bit field (R12, R13). -/
theorem bits_word32 (hlo : lo = 8 * before.length) (hhi : hi + 1 = lo + 32) :
    bits (leNat (before ++ b0 :: b1 :: b2 :: b3 :: rest)) hi lo = (b3 ++ b2 ++ b1 ++ b0).toNat := by
  rw [bits_quad before rest b0 b1 b2 b3 (o := 0) hlo hhi (by decide), BitVec.extractLsb'_eq_self]

end

theorem ofNat_of_eq_toNat {w n : Nat} {v : BitVec w} (h : n = v.toNat) : BitVec.ofNat w n = v := by
  rw [h, BitVec.ofNat_toNat, BitVec.setWidth_eq]

/-! ## Rows -/

/-- A row on the next frame of the call writes the record that the drain's decoder gives. -/
theorem exec_epcRow_of_decode {s : State} {e : Nat} {r r' : Epc} {q : List Frame} {dev : BitVec 7} {low : BitVec 1}
    {data : List Byte} {row : BitVec 4 × Instr} (hrow : row ∈ epcRows e dev low data)
    (h : EpcDraining s e r ⟨dev ++ row.1, data⟩ q) (hdecode : decodeFrame s.cfg r ⟨dev ++ row.1, data⟩ = r') :
    exec row.2 s = .next { afterRead s (.epc e) q with epcs := s.epcs.set e r' } := by
  rw [exec_epcRow_next hrow h, hdecode]

/-- A row whose frame changes no record only takes it. -/
theorem exec_epcRow_unchanged {s : State} {e : Nat} {r : Epc} {q : List Frame} {dev : BitVec 7} {low : BitVec 1}
    {data : List Byte} {row : BitVec 4 × Instr} (hrow : row ∈ epcRows e dev low data)
    (h : EpcDraining s e r ⟨dev ++ row.1, data⟩ q) (hdecode : decodeFrame s.cfg r ⟨dev ++ row.1, data⟩ = r) :
    exec row.2 s = .next (afterRead s (.epc e) q) := by
  rw [exec_epcRow_of_decode hrow h hdecode, epcs_set_self h.1]
  rfl

/-- The decoder's choice by the message type (R260). -/
theorem decodeFrame_of_type {cfg : Config} {r : Epc} {dev : BitVec 7} {type : BitVec 4} {data : List Byte}
    {f : Epc → Frame → Epc} (h : ∀ fr, messageType fr.id = type.toNat → decodeFrame cfg r fr = f r fr) :
    decodeFrame cfg r ⟨dev ++ type, data⟩ = f r ⟨dev ++ type, data⟩ :=
  h _ (messageType_append dev type)

/-! ## MODE -/

section
variable (cfg : Config) (r : Epc) (id : CanId) (b0 b1 b2 b3 b4 b5 b6 b7 : Byte)

theorem modeOfCode_reserved (c : ModeCodes) {k : Nat} (h : 5 < k) : modeOfCode c k = none :=
  if_pos h

theorem bits_modeCode_byte : bits (leNat [b0, b1, b2, b3, b4, b5, b6, b7]) 3 1 = (b0.extractLsb' 1 3).toNat :=
  bits_byte [] [b1, b2, b3, b4, b5, b6, b7] b0 rfl rfl (by decide)

theorem decodeMode_reserved (h : 5 < (b0.extractLsb' 1 3).toNat) :
    decodeMode cfg r ⟨id, [b0, b1, b2, b3, b4, b5, b6, b7]⟩ = r := by
  rw [decodeMode, if_neg (by simp [Frame.dlc]), frameWord, bits_modeCode_byte, modeOfCode_reserved _ h]

theorem decodeMode_bytes {m : Mode} {lt : LimitType} (hm : modeOfCode cfg.modeCode (b0.extractLsb' 1 3).toNat = some m)
    (hlt : limitOfCode cfg.limitCode (b0.extractLsb' 4 2).toNat = lt) :
    decodeMode cfg r ⟨id, [b0, b1, b2, b3, b4, b5, b6, b7]⟩ = { r with live := { r.live with
      outputEnable := b0.extractLsb' 0 1, mode := m, limitMode := lt, ref := b3 ++ b2,
      limitRef := b7 ++ b6 ++ b5 ++ b4 } } := by
  have hen : bits (leNat [b0, b1, b2, b3, b4, b5, b6, b7]) 0 0 = (b0.extractLsb' 0 1).toNat :=
    bits_byte [] [b1, b2, b3, b4, b5, b6, b7] b0 rfl rfl (by decide)
  have hlimit : bits (leNat [b0, b1, b2, b3, b4, b5, b6, b7]) 5 4 = (b0.extractLsb' 4 2).toNat :=
    bits_byte [] [b1, b2, b3, b4, b5, b6, b7] b0 rfl rfl (by decide)
  have href : bits (leNat [b0, b1, b2, b3, b4, b5, b6, b7]) 31 16 = (b3 ++ b2).toNat :=
    bits_word16 [b0, b1] [b4, b5, b6, b7] b2 b3 rfl rfl
  have hlr : bits (leNat [b0, b1, b2, b3, b4, b5, b6, b7]) 63 32 = (b7 ++ b6 ++ b5 ++ b4).toNat :=
    bits_word32 [b0, b1, b2, b3] [] b4 b5 b6 b7 rfl rfl
  rw [decodeMode, if_neg (by simp [Frame.dlc])]
  simp only [frameWord, bits_modeCode_byte, hm, hlimit, hlt, ofNat_of_eq_toNat hen, ofNat_of_eq_toNat href,
    ofNat_of_eq_toNat hlr]

end

/-- The decided tables give the numbers written out in R117 and R118. -/
theorem numbers_of_decided {cfg : Config} (h : CodesDecided cfg) {k : BitVec 3} {l : BitVec 2} {m : Mode} {lt : LimitType}
    (hm : (k, m) ∈ [(0#3, Mode.wait), (1#3, .cc), (2#3, .cv), (3#3, .cp), (4#3, .idle), (5#3, .error)])
    (hlt : (l, lt) ∈ [(0#2, LimitType.time), (1#2, .voltage), (2#2, .current), (3#2, .power)]) :
    k = modeNumber cfg.modeCode m ∧ l = limitNumber cfg.limitCode lt := by
  rw [h.1, h.2]
  simp only [List.mem_cons, Prod.mk.injEq, List.not_mem_nil, or_false] at hm hlt
  refine ⟨?_, ?_⟩
  · rcases hm with ⟨rfl, rfl⟩ | ⟨rfl, rfl⟩ | ⟨rfl, rfl⟩ | ⟨rfl, rfl⟩ | ⟨rfl, rfl⟩ | ⟨rfl, rfl⟩ <;> rfl
  · rcases hlt with ⟨rfl, rfl⟩ | ⟨rfl, rfl⟩ | ⟨rfl, rfl⟩ | ⟨rfl, rfl⟩ <;> rfl

/-- Settles O32: the code tables read the numbers back, and the other fields are bits of their bytes. -/
theorem modeFrameUpdatesLiveData : Obligations.ModeFrameUpdatesLiveData := by
  intro s e r q dev b0 b1 b2 b3 b4 b5 b6 b7 h hcodes
  have hrow : (0x0#4, Instr.epcRxMode e dev [b0, b1, b2, b3, b4, b5, b6, b7]) ∈
      epcRows e dev 0 [b0, b1, b2, b3, b4, b5, b6, b7] := by simp [epcRows]
  have hdecode := decodeFrame_of_typeMode s.cfg r (fr := ⟨dev ++ 0#4, [b0, b1, b2, b3, b4, b5, b6, b7]⟩)
    (messageType_append dev 0#4)
  refine ⟨fun m lt hnumbers => ?_, fun hreserved => ?_⟩
  · obtain ⟨hm, hlt⟩ : b0.extractLsb' 1 3 = modeNumber s.cfg.modeCode m ∧
        b0.extractLsb' 4 2 = limitNumber s.cfg.limitCode lt := by
      rcases hnumbers with hgiven | ⟨hdecided, hm, hlt⟩
      · exact hgiven
      · exact numbers_of_decided hdecided hm hlt
    refine exec_epcRow_of_decode hrow h (hdecode.trans (decodeMode_bytes _ _ _ _ _ _ _ _ _ _ _ ?_ ?_))
    · rw [hm, modeNumber_eq_modeCode, modeOfCode_modeCode hcodes.1]
    · rw [hlt, limitNumber_eq_limitCode, limitOfCode_limitCode hcodes.2]
  · exact exec_epcRow_unchanged hrow h (hdecode.trans (decodeMode_reserved _ _ _ _ _ _ _ _ _ _ _ hreserved))

/-! ## The limit frames -/

theorem fieldValue_eq (q : Quantity) :
    fieldValue q = if q = .lsVolt ∨ q = .hsVolt then (fun v => (v.toNat : Int)) else (fun v => v.toInt) := by
  cases q <;> rfl

theorem pairWithin_iff {h : HwBounds} {q : Quantity} {mx mn : BitVec 16} : pairWithin h q mx mn = true ↔
    ∀ v ∈ [mx, mn], (h.of q).min ≤ fieldValue q v ∧ fieldValue q v ≤ (h.of q).max := by
  simp only [pairWithin, Bool.and_eq_true, inBounds_iff, List.forall_mem_cons, List.not_mem_nil, false_implies,
    implies_true, and_true]

/-- What a limit frame's two fields are (R124, R274). -/
theorem decodeLimit_bytes (h : HwBounds) (q : Quantity) (r : Epc) (id : CanId) (b0 b1 b2 b3 : Byte) (rest : List Byte) :
    decodeLimit h q r ⟨id, b0 :: b1 :: b2 :: b3 :: rest⟩ =
      if pairWithin h q (b1 ++ b0) (b3 ++ b2) then { r with props := setPair r.props q (b1 ++ b0) (b3 ++ b2) } else r := by
  have hmax : bits (leNat (b0 :: b1 :: b2 :: b3 :: rest)) 15 0 = (b1 ++ b0).toNat :=
    bits_word16 [] (b2 :: b3 :: rest) b0 b1 rfl rfl
  have hmin : bits (leNat (b0 :: b1 :: b2 :: b3 :: rest)) 31 16 = (b3 ++ b2).toNat :=
    bits_word16 [b0, b1] rest b2 b3 rfl rfl
  rw [decodeLimit, if_neg (by simp [Frame.dlc])]
  simp only [frameWord, ofNat_of_eq_toNat hmax, ofNat_of_eq_toNat hmin]

/-- Each limit row is one of the frame rows, and its frame is decoded as a limit frame of its quantity. -/
theorem limitRow_decode {s : State} {e : Nat} {dev : BitVec 7} {data : List Byte} {q : Quantity} {type : BitVec 4}
    {call : Instr} (hcall : (q, type, call) ∈ [(Quantity.lsVolt, 2#4, Instr.epcRxLsVoltLim e dev data),
        (.lsCurr, 3#4, .epcRxLsCurrLim e dev data), (.hsVolt, 4#4, .epcRxHsVoltLim e dev data),
        (.lsPwr, 5#4, .epcRxLsPwrLim e dev data), (.temp, 6#4, .epcRxTempLim e dev data)]) :
    (type, call) ∈ epcRows e dev 0 data ∧ ∀ r, decodeFrame s.cfg r ⟨dev ++ type, data⟩ =
      decodeLimit s.cfg.hwBounds q r ⟨dev ++ type, data⟩ := by
  simp only [List.mem_cons, Prod.mk.injEq, List.not_mem_nil, or_false] at hcall
  rcases hcall with ⟨rfl, rfl, rfl⟩ | ⟨rfl, rfl, rfl⟩ | ⟨rfl, rfl, rfl⟩ | ⟨rfl, rfl, rfl⟩ | ⟨rfl, rfl, rfl⟩
  · exact ⟨by simp [epcRows], fun r => decodeFrame_of_type fun fr h => by rw [decodeFrame, h]; rfl⟩
  · exact ⟨by simp [epcRows], fun r => decodeFrame_of_type fun fr h => by rw [decodeFrame, h]; rfl⟩
  · exact ⟨by simp [epcRows], fun r => decodeFrame_of_type fun fr h => by rw [decodeFrame, h]; rfl⟩
  · exact ⟨by simp [epcRows], fun r => decodeFrame_of_type fun fr h => by rw [decodeFrame, h]; rfl⟩
  · exact ⟨by simp [epcRows], fun r => decodeFrame_of_type fun fr h => by rw [decodeFrame, h]; rfl⟩

/-- Settles O33: the five rows are one decoder, which writes the pair exactly if both values are in bounds. -/
theorem limitFramesUpdateTheirPair : Obligations.LimitFramesUpdateTheirPair := by
  intro s e r later dev b0 b1 b2 b3 rest q type call hcall h value hvalue mx mn hmx hmn
  subst hvalue hmx hmn
  rw [← fieldValue_eq]
  obtain ⟨hrow, hlimit⟩ := limitRow_decode (s := s) hcall
  have hdecode := (hlimit r).trans (decodeLimit_bytes ..)
  refine ⟨fun hwithin => ?_, fun hout => ?_⟩
  · rw [if_pos (pairWithin_iff.mpr hwithin)] at hdecode
    exact exec_epcRow_of_decode hrow h hdecode
  · have hnot : ¬pairWithin s.cfg.hwBounds q (b1 ++ b0) (b3 ++ b2) = true := by
      rw [pairWithin_iff]
      push Not
      simpa only [not_and, not_le] using hout
    rw [if_neg hnot] at hdecode
    exact exec_epcRow_unchanged hrow h hdecode

/-! ## PERIODIC and INFO -/

theorem decodePeriodic_bytes (r : Epc) (id : CanId) (b0 b1 b2 b3 b4 b5 : Byte) (rest : List Byte) :
    decodePeriodic r ⟨id, b0 :: b1 :: b2 :: b3 :: b4 :: b5 :: rest⟩ = { r with periodic :=
      { ackEn := b0.extractLsb' 0 1, ackPeriod := (b1 ++ b0).extractLsb' 1 15
        electEn := b2.extractLsb' 0 1, electPeriod := (b3 ++ b2).extractLsb' 1 15
        tempEn := b4.extractLsb' 0 1, tempPeriod := (b5 ++ b4).extractLsb' 1 15 } } := by
  have hae : bits (leNat (b0 :: b1 :: b2 :: b3 :: b4 :: b5 :: rest)) 0 0 = (b0.extractLsb' 0 1).toNat :=
    bits_byte [] _ b0 rfl rfl (by decide)
  have hap : bits (leNat (b0 :: b1 :: b2 :: b3 :: b4 :: b5 :: rest)) 15 1 = ((b1 ++ b0).extractLsb' 1 15).toNat :=
    bits_pair [] _ b0 b1 rfl rfl (by decide)
  have hee : bits (leNat (b0 :: b1 :: b2 :: b3 :: b4 :: b5 :: rest)) 16 16 = (b2.extractLsb' 0 1).toNat :=
    bits_byte [b0, b1] _ b2 rfl rfl (by decide)
  have hep : bits (leNat (b0 :: b1 :: b2 :: b3 :: b4 :: b5 :: rest)) 31 17 = ((b3 ++ b2).extractLsb' 1 15).toNat :=
    bits_pair [b0, b1] _ b2 b3 rfl rfl (by decide)
  have hte : bits (leNat (b0 :: b1 :: b2 :: b3 :: b4 :: b5 :: rest)) 32 32 = (b4.extractLsb' 0 1).toNat :=
    bits_byte [b0, b1, b2, b3] _ b4 rfl rfl (by decide)
  have htp : bits (leNat (b0 :: b1 :: b2 :: b3 :: b4 :: b5 :: rest)) 47 33 = ((b5 ++ b4).extractLsb' 1 15).toNat :=
    bits_pair [b0, b1, b2, b3] rest b4 b5 rfl rfl (by decide)
  rw [decodePeriodic, if_neg (by simp [Frame.dlc])]
  simp only [frameWord, ofNat_of_eq_toNat hae, ofNat_of_eq_toNat hap, ofNat_of_eq_toNat hee, ofNat_of_eq_toNat hep,
    ofNat_of_eq_toNat hte, ofNat_of_eq_toNat htp]

/-- Settles O34: each field of the frame is bits of its two bytes. -/
theorem periodicFrameUpdatesPeriods : Obligations.PeriodicFrameUpdatesPeriods := by
  intro s e r q dev b0 b1 b2 b3 b4 b5 rest h
  have hdecode : decodeFrame s.cfg r ⟨dev ++ 7#4, b0 :: b1 :: b2 :: b3 :: b4 :: b5 :: rest⟩ = _ :=
    (decodeFrame_of_type fun fr hid => by rw [decodeFrame, hid]; rfl).trans (decodePeriodic_bytes ..)
  exact exec_epcRow_of_decode (row := (7#4, _)) (low := 0) (by simp [epcRows]) h hdecode

theorem decodeInfo_bytes (r : Epc) (id : CanId) (b0 b1 b2 b3 : Byte) (rest : List Byte) :
    decodeInfo r ⟨id, b0 :: b1 :: b2 :: b3 :: rest⟩ = { r with props := { r.props with
      canId := (b3 ++ b2 ++ b1 ++ b0).extractLsb' 0 6, fwVer := (b3 ++ b2 ++ b1 ++ b0).extractLsb' 6 5
      hwVer := (b3 ++ b2 ++ b1 ++ b0).extractLsb' 11 13, sn := b3 } } := by
  have hid : bits (leNat (b0 :: b1 :: b2 :: b3 :: rest)) 5 0 = ((b3 ++ b2 ++ b1 ++ b0).extractLsb' 0 6).toNat :=
    bits_quad [] rest b0 b1 b2 b3 rfl rfl (by decide)
  have hfw : bits (leNat (b0 :: b1 :: b2 :: b3 :: rest)) 10 6 = ((b3 ++ b2 ++ b1 ++ b0).extractLsb' 6 5).toNat :=
    bits_quad [] rest b0 b1 b2 b3 rfl rfl (by decide)
  have hhw : bits (leNat (b0 :: b1 :: b2 :: b3 :: rest)) 23 11 = ((b3 ++ b2 ++ b1 ++ b0).extractLsb' 11 13).toNat :=
    bits_quad [] rest b0 b1 b2 b3 rfl rfl (by decide)
  have hsn : bits (leNat (b0 :: b1 :: b2 :: b3 :: rest)) 31 24 = (b3.extractLsb' 0 8).toNat :=
    bits_byte [b0, b1, b2] rest b3 rfl rfl (by decide)
  rw [decodeInfo, if_neg (by simp [Frame.dlc])]
  simp only [frameWord, ofNat_of_eq_toNat hid, ofNat_of_eq_toNat hfw, ofNat_of_eq_toNat hhw, ofNat_of_eq_toNat hsn,
    BitVec.extractLsb'_eq_self]

/-- Settles O35: each field of the frame is bits of its first four bytes. -/
theorem infoFrameUpdatesProperties : Obligations.InfoFrameUpdatesProperties := by
  intro s e r q dev b0 b1 b2 b3 rest h
  have hdecode : decodeFrame s.cfg r ⟨dev ++ 10#4, b0 :: b1 :: b2 :: b3 :: rest⟩ = _ :=
    (decodeFrame_of_type fun fr hid => by rw [decodeFrame, hid]; rfl).trans (decodeInfo_bytes ..)
  exact exec_epcRow_of_decode (row := (10#4, _)) (low := 0) (by simp [epcRows]) h hdecode

end Sys2Proof.Machine
end

section
/-! The EPC decoder, the measuring and the ignored frames (R269 to R273). -/

namespace Sys2Proof.Machine

open Sys2Proof

/-! ## STATUS -/

theorem decodeStatus_bytes (r : Epc) (id : CanId) (b0 : Byte) (rest : List Byte) :
    decodeStatus r ⟨id, b0 :: rest⟩ = { r with live := { r.live with
      statusFlags := b0.extractLsb' 0 6, statusKind := statusKindOf (b0.extractLsb' 0 6)
      statusCode := statusCodeOf (b0.extractLsb' 0 6) (leNat (b0 :: rest)) (rest.length + 1) } } := by
  have hflags : bits (leNat (b0 :: rest)) 5 0 = (b0.extractLsb' 0 6).toNat := bits_byte [] rest b0 rfl rfl (by decide)
  rw [decodeStatus, if_neg (by simp [Frame.dlc])]
  simp only [frameWord, ofNat_of_eq_toNat hflags]
  rfl

theorem statusOf_no_flags (w dlc : Nat) : statusKindOf 0 = .ok ∧ statusCodeOf 0 w dlc = 0 := ⟨rfl, rfl⟩

/-- The communication flag is bit 3 of the first byte (R56, R122). -/
theorem statusKindOf_flags {b0 : Byte} (h : b0.extractLsb' 0 6 ≠ 0) :
    statusKindOf (b0.extractLsb' 0 6) = if b0.getLsbD 3 then .commError else .internalError := by
  rw [statusKindOf, if_neg h, commFlag, BitVec.getLsbD_extractLsb']
  rfl

/-- The status code is every payload bit above bit 5 (R122, R269). -/
theorem toNat_statusCodeOf {b0 : Byte} {rest : List Byte} (h : b0.extractLsb' 0 6 ≠ 0) (hlen : rest.length ≤ 7) :
    (statusCodeOf (b0.extractLsb' 0 6) (leNat (b0 :: rest)) (rest.length + 1)).toNat =
      (b0.extractLsb' 6 2).toNat + 4 * leNat rest := by
  have hbyte := b0.isLt
  have hrest : leNat rest < 2 ^ (8 * rest.length) := by
    rw [pow_mul]
    exact leNat_lt rest
  have hmax : (2 : Nat) ^ (8 * rest.length) ≤ 2 ^ 56 := Nat.pow_le_pow_right (by decide) (by omega)
  have hhigh : (b0.extractLsb' 6 2).toNat = b0.toNat / 64 := by
    rw [BitVec.extractLsb'_toNat, Nat.shiftRight_eq_div_pow]
    omega
  have hwidth : 8 * (rest.length + 1) - 1 + 1 - 6 = 8 * rest.length + 2 := by omega
  have hdiv : leNat (b0 :: rest) / 2 ^ 6 = b0.toNat / 64 + 4 * leNat rest := by
    rw [leNat]
    omega
  have hbits : bits (leNat (b0 :: rest)) (8 * (rest.length + 1) - 1) 6 = b0.toNat / 64 + 4 * leNat rest := by
    rw [bits, hwidth, hdiv, pow_add, Nat.mod_eq_of_lt (by omega)]
  rw [statusCodeOf, if_neg h, hbits, hhigh, BitVec.toNat_ofNat, Nat.mod_eq_of_lt (by omega)]

/-- Settles O36: flags, kind and code of the bytes. -/
theorem statusFrameUpdatesStatus : Obligations.StatusFrameUpdatesStatus := by
  intro s e r q dev b0 rest h hlen
  have hdecode : decodeFrame s.cfg r ⟨dev ++ 11#4, b0 :: rest⟩ = _ :=
    (decodeFrame_of_type fun fr hid => by rw [decodeFrame, hid]; rfl).trans (decodeStatus_bytes ..)
  refine ⟨_, _, exec_epcRow_of_decode (row := (11#4, _)) (low := 0) (by simp [epcRows]) h hdecode,
    fun hzero => ?_, fun hflags => ⟨statusKindOf_flags hflags, toNat_statusCodeOf hflags hlen⟩⟩
  rw [hzero]
  exact statusOf_no_flags _ _

/-! ## ELEC_MEAS -/

/-- `sN(v)` is the signed value of the word (R11). -/
theorem sVal_toNat (v : BitVec 16) : sVal 16 v.toNat = v.toInt := by
  rw [sVal, BitVec.toInt_eq_toNat_cond]
  split <;> split <;> omega

/-- The derived power of any 16-bit voltage and current fits its field: no quotient is cut (R270, R275). -/
theorem powerDiv_bounds (rounding : Rounding) (v i : BitVec 16) :
    -32768 ≤ powerDiv rounding (i.toInt * (v.toNat : Int)) ∧ powerDiv rounding (i.toInt * (v.toNat : Int)) < 32768 := by
  have hv : (v.toNat : Int) ≤ 65535 := by have := v.isLt; omega
  have hilo : -32768 ≤ i.toInt := i.le_toInt
  have hihi : i.toInt ≤ 32768 := i.toInt_lt.le
  have hlo : -32768 * (v.toNat : Int) ≤ i.toInt * (v.toNat : Int) :=
    mul_le_mul_of_nonneg_right hilo (Int.natCast_nonneg _)
  have hhi : i.toInt * (v.toNat : Int) ≤ 32768 * (v.toNat : Int) :=
    mul_le_mul_of_nonneg_right hihi (Int.natCast_nonneg _)
  cases rounding with
  | trunc =>
    have habs : (Int.tdiv (i.toInt * (v.toNat : Int)) 100000).natAbs = (i.toInt * (v.toNat : Int)).natAbs / 100000 :=
      Int.natAbs_tdiv _ _
    simp only [powerDiv]
    omega
  | floor =>
    simp only [powerDiv, Int.fdiv_eq_ediv_of_nonneg _ (by decide : (0 : Int) ≤ 100000)]
    omega

theorem toInt_powerDiv (rounding : Rounding) (v i : BitVec 16) :
    (BitVec.ofInt 16 (powerDiv rounding (i.toInt * (v.toNat : Int)))).toInt =
      powerDiv rounding (i.toInt * (v.toNat : Int)) := by
  obtain ⟨hlo, hhi⟩ := powerDiv_bounds rounding v i
  exact BitVec.toInt_ofInt_eq_self (by decide) (by simpa using hlo) (by simpa using hhi)

theorem decodeElec_bytes (rounding : Rounding) (r : Epc) (id : CanId) (b0 b1 b2 b3 b4 b5 : Byte) (rest : List Byte) :
    decodeElec rounding r ⟨id, b0 :: b1 :: b2 :: b3 :: b4 :: b5 :: rest⟩ = { r with live := { r.live with
      lsVolt := b1 ++ b0, lsCurr := b3 ++ b2, hsVolt := b5 ++ b4
      lsPwr := BitVec.ofInt 16 (powerDiv rounding ((b3 ++ b2).toInt * ((b1 ++ b0).toNat : Int))) } } := by
  have hlsVolt : bits (leNat (b0 :: b1 :: b2 :: b3 :: b4 :: b5 :: rest)) 15 0 = (b1 ++ b0).toNat :=
    bits_word16 [] _ b0 b1 rfl rfl
  have hlsCurr : bits (leNat (b0 :: b1 :: b2 :: b3 :: b4 :: b5 :: rest)) 31 16 = (b3 ++ b2).toNat :=
    bits_word16 [b0, b1] _ b2 b3 rfl rfl
  have hhsVolt : bits (leNat (b0 :: b1 :: b2 :: b3 :: b4 :: b5 :: rest)) 47 32 = (b5 ++ b4).toNat :=
    bits_word16 [b0, b1, b2, b3] rest b4 b5 rfl rfl
  have hsigned : sVal 16 (b3 ++ b2).toNat = (b3 ++ b2).toInt := sVal_toNat (b3 ++ b2)
  have hcurr : BitVec.ofInt 16 (b3 ++ b2).toInt = b3 ++ b2 := BitVec.ofInt_toInt
  rw [decodeElec, if_neg (by simp [Frame.dlc])]
  simp only [frameWord, hlsVolt, hlsCurr, ofNat_of_eq_toNat hhsVolt, hsigned, hcurr, BitVec.ofNat_toNat,
    BitVec.setWidth_eq]

/-- Settles O37: the quotient fits its 16 bits, so the stored power is the quotient. -/
theorem elecFrameDerivesPower : Obligations.ElecFrameDerivesPower := by
  intro s e r q dev b0 b1 b2 b3 b4 b5 rest h
  have hdecode : decodeFrame s.cfg r ⟨dev ++ 12#4, b0 :: b1 :: b2 :: b3 :: b4 :: b5 :: rest⟩ = _ :=
    (decodeFrame_of_type fun fr hid => by rw [decodeFrame, hid]; rfl).trans (decodeElec_bytes ..)
  have hpower := toInt_powerDiv s.cfg.powerRounding (b1 ++ b0) (b3 ++ b2)
  refine ⟨_, exec_epcRow_of_decode (row := (12#4, _)) (low := 0) (by simp [epcRows]) h hdecode, fun htrunc => ?_,
    fun hfloor => ?_⟩
  · rw [htrunc] at hpower
    rw [htrunc]
    exact hpower
  · rw [hfloor] at hpower
    rw [hfloor]
    exact hpower

/-! ## TEMP_MEAS -/

/-- A 16-bit field that the payload reaches, whatever its length (R125). -/
theorem bits_word16_getD {data : List Byte} {k hi lo : Nat} (hlen : k + 2 ≤ data.length) (hlo : lo = 8 * k)
    (hhi : hi + 1 = lo + 16) :
    bits (leNat data) hi lo = (data.getD (k + 1) 0 ++ data.getD k 0).toNat := by
  have hsplit : data = data.take k ++ data.getD k 0 :: data.getD (k + 1) 0 :: data.drop (k + 2) := by
    rw [List.getD_eq_getElem _ _ (by omega), List.getD_eq_getElem _ _ (by omega), List.getElem_cons_drop (by omega),
      List.getElem_cons_drop (by omega), List.take_append_drop]
  have hk : (data.take k).length = k := List.length_take_of_le (by omega)
  have hbits := bits_word16 (hi := hi) (lo := lo) (data.take k) (data.drop (k + 2)) (data.getD k 0) (data.getD (k + 1) 0)
    (by rw [hk, hlo]) hhi
  rwa [← hsplit] at hbits

theorem hasAnode_iff (hwVer : BitVec 13) : hasAnode hwVer = true ↔ hwVer.extractLsb' 7 2 ≠ 0 := by
  rw [hasAnode, bne_iff_ne, ne_eq]
  exact not_congr (bits_toNat_eq_iff hwVer (hi := 8) (lo := 7) (len := 2) rfl 0)

/-- One temperature (R271): its field is read exactly if its sensor is present and the payload reaches it. -/
theorem tempField_eq {data : List Byte} {k hi lo : Nat} {present sensor : Prop} [Decidable present] [Decidable sensor]
    (old : BitVec 16) (hpresent : present ↔ sensor) (hlo : lo = 8 * k) (hhi : hi + 1 = lo + 16) :
    (if present ∧ data.length ≥ k + 2 then BitVec.ofNat 16 (bits (leNat data) hi lo) else old) =
      if sensor ∧ k + 2 ≤ data.length then data.getD (k + 1) 0 ++ data.getD k 0 else old := by
  by_cases h : sensor ∧ k + 2 ≤ data.length
  · rw [if_pos (And.intro (hpresent.mpr h.1) h.2), if_pos h, ofNat_of_eq_toNat (bits_word16_getD h.2 hlo hhi)]
  · rw [if_neg fun hp => h ⟨hpresent.mp hp.1, hp.2⟩, if_neg h]

theorem decodeTemp_bytes (r : Epc) (id : CanId) (data : List Byte) :
    decodeTemp r ⟨id, data⟩ = { r with live := { r.live with
      tempBody := if r.props.hwVer.getLsbD 9 = true ∧ 2 ≤ data.length then
        data.getD 1 0 ++ data.getD 0 0 else r.live.tempBody
      tempAnode := if r.props.hwVer.extractLsb' 7 2 ≠ 0 ∧ 4 ≤ data.length then
        data.getD 3 0 ++ data.getD 2 0 else r.live.tempAnode
      tempAmb := if r.props.hwVer.getLsbD 10 = true ∧ 6 ≤ data.length then
        data.getD 5 0 ++ data.getD 4 0 else r.live.tempAmb } } := by
  have hbody := tempField_eq (data := data) (k := 0) r.live.tempBody (Iff.refl (r.props.hwVer.getLsbD 9 = true)) rfl
    (hi := 15) rfl
  have hanode := tempField_eq (data := data) (k := 2) r.live.tempAnode (hasAnode_iff r.props.hwVer) rfl (hi := 31) rfl
  have hamb := tempField_eq (data := data) (k := 4) r.live.tempAmb (Iff.refl (r.props.hwVer.getLsbD 10 = true)) rfl
    (hi := 47) rfl
  rw [← hbody, ← hanode, ← hamb]
  rfl

/-- Settles O38: three fields, each by `tempField_eq`. -/
theorem tempFrameUpdatesPresentSensors : Obligations.TempFrameUpdatesPresentSensors := by
  intro s e r q dev data h
  have hdecode : decodeFrame s.cfg r ⟨dev ++ 13#4, data⟩ = _ :=
    (decodeFrame_of_type fun fr hid => by rw [decodeFrame, hid]; rfl).trans (decodeTemp_bytes ..)
  exact ⟨_, exec_epcRow_of_decode (row := (13#4, _)) (low := 0) (by simp [epcRows]) h hdecode, rfl⟩

/-! ## The frames that change nothing -/

/-- A message type without a decoder (R273). -/
theorem decodeFrame_ignored (cfg : Config) (r : Epc) {dev : BitVec 7} {type : BitVec 4} {data : List Byte}
    (h : type ∈ [1#4, 8#4, 9#4, 14#4, 15#4]) : decodeFrame cfg r ⟨dev ++ type, data⟩ = r := by
  rw [decodeFrame, messageType_append]
  simp only [List.mem_cons, List.not_mem_nil, or_false] at h
  rcases h with rfl | rfl | rfl | rfl | rfl <;> rfl

theorem ignored_types (low : BitVec 1) :
    4#3 ++ low ∈ [1#4, 8#4, 9#4, 14#4, 15#4] ∧ 7#3 ++ low ∈ [1#4, 8#4, 9#4, 14#4, 15#4] := by
  revert low
  decide

/-- Settles O39: the five types have no decoder. -/
theorem ignoredFramesChangeNothing : Obligations.IgnoredFramesChangeNothing := by
  intro s e r q dev low data row hrow
  have hrows : row ∈ epcRows e dev low data ∧ row.1 ∈ [1#4, 8#4, 9#4, 14#4, 15#4] := by
    simp only [List.mem_cons, List.not_mem_nil, or_false] at hrow
    rcases hrow with rfl | rfl | rfl
    · exact ⟨by simp [epcRows], by simp⟩
    · exact ⟨by simp [epcRows], (ignored_types low).1⟩
    · exact ⟨by simp [epcRows], (ignored_types low).2⟩
  have hsame := decodeFrame_ignored s.cfg r (dev := dev) (data := data) hrows.2
  exact ⟨hsame, fun h => exec_epcRow_unchanged hrows.1 h hsame⟩

/-- The minimum length of each message type (R127, R272); a type that is not in the table has none. -/
def minDlc (type : BitVec 4) : Nat :=
  match type.toNat with
  | 0x0 => 8
  | 0x2 => 4
  | 0x3 => 4
  | 0x4 => 4
  | 0x5 => 4
  | 0x6 => 4
  | 0x7 => 6
  | 0xA => 4
  | 0xB => 1
  | 0xC => 6
  | _ => 0

/-- A frame shorter than the minimum of its type is not decoded (R272). -/
theorem decodeFrame_short (cfg : Config) (r : Epc) (dev : BitVec 7) (type : BitVec 4) {data : List Byte}
    (h : data.length < minDlc type) : decodeFrame cfg r ⟨dev ++ type, data⟩ = r := by
  rw [decodeFrame, messageType_append]
  unfold minDlc at h
  split at h
  case h_11 => exact absurd h (Nat.not_lt_zero _)
  all_goals
    next htype =>
      simp only [htype]
      exact if_pos h

/-- Settles O40: the rows of the table are frame rows, and `minDlc` is the table. -/
theorem shortFramesChangeNothing : Obligations.ShortFramesChangeNothing := by
  intro s e r q dev data row hrow hshort
  have hrows : row.2 ∈ epcRows e dev 0 data ∧ row.1 = minDlc row.2.1 := by
    simp only [List.mem_cons, List.not_mem_nil, or_false] at hrow
    rcases hrow with rfl | rfl | rfl | rfl | rfl | rfl | rfl | rfl | rfl | rfl <;> exact ⟨by simp [epcRows], rfl⟩
  have hsame := decodeFrame_short s.cfg r dev row.2.1 (hrows.2 ▸ hshort)
  exact ⟨hsame, fun h => exec_epcRow_unchanged hrows.1 h hsame⟩

end Sys2Proof.Machine
end

section
/-! The BMS reassembler (R300 to R312): what each row of R300 does to the record, a run of fragments, and a message. -/

namespace Sys2Proof.Machine

open Sys2Proof

/-! ## Which row a frame selects -/

theorem isMarker_iff {fr : Frame} : isMarker fr = true ↔ MarkerBytes fr.data := by
  rw [isMarker, Bool.and_eq_true, decide_eq_true_eq, decide_eq_true_eq]
  rfl

/-- The fragment index is the low half of the header (R130). -/
theorem fragmentIndex_eq (h : Byte) : fragmentIndex h = (h.extractLsb' 0 4).toNat :=
  bits_toNat h (len := 4) rfl

/-- The fragment count is its high half (R130). -/
theorem fragmentCount_eq (h : Byte) : fragmentCount h = (h.extractLsb' 4 4).toNat :=
  bits_toNat h (len := 4) rfl

theorem selectRow_marker (b : Bms) {fr : Frame} (h : MarkerBytes fr.data) : selectRow b fr = .marker := by
  obtain ⟨id, data⟩ := fr
  cases data with
  | nil => cases h.1
  | cons x d => exact if_pos (isMarker_iff.mpr h)

section
variable {b : Bms} {id : CanId} {h : Byte} {d : List Byte} (hmarker : ¬MarkerBytes (h :: d))
include hmarker

theorem selectRow_fragment_frame : selectRow b ⟨id, h :: d⟩ =
    if (h.extractLsb' 0 4).toNat ≠ b.nextIdx then .seqFault
    else if (h.extractLsb' 0 4).toNat + 1 ≠ (h.extractLsb' 4 4).toNat then .fragment
    else if (b.buf ++ d).length % 2 = 1 then .odd
    else .last := by
  have hnot : ¬isMarker ⟨id, h :: d⟩ = true := fun hm => hmarker (isMarker_iff.mp hm)
  simp only [selectRow, if_neg hnot, fragmentIndex_eq, fragmentCount_eq]

theorem selectRow_seqFault (hidx : (h.extractLsb' 0 4).toNat ≠ b.nextIdx) : selectRow b ⟨id, h :: d⟩ = .seqFault := by
  rw [selectRow_fragment_frame hmarker, if_pos hidx]

theorem selectRow_fragment (hidx : (h.extractLsb' 0 4).toNat = b.nextIdx)
    (hcount : (h.extractLsb' 4 4).toNat ≠ b.nextIdx + 1) : selectRow b ⟨id, h :: d⟩ = .fragment := by
  rw [selectRow_fragment_frame hmarker, if_neg (not_not.mpr hidx), if_pos (hidx ▸ hcount.symm)]

theorem selectRow_end (hidx : (h.extractLsb' 0 4).toNat = b.nextIdx)
    (hcount : (h.extractLsb' 4 4).toNat = b.nextIdx + 1) :
    selectRow b ⟨id, h :: d⟩ = if (b.buf.length + d.length) % 2 = 1 then .odd else .last := by
  rw [selectRow_fragment_frame hmarker, if_neg (not_not.mpr hidx), if_neg (not_not.mpr (by rw [hidx, hcount])),
    List.length_append]

theorem selectRow_odd (hidx : (h.extractLsb' 0 4).toNat = b.nextIdx)
    (hcount : (h.extractLsb' 4 4).toNat = b.nextIdx + 1) (hodd : (b.buf.length + d.length) % 2 = 1) :
    selectRow b ⟨id, h :: d⟩ = .odd := by
  rw [selectRow_end hmarker hidx hcount, if_pos hodd]

theorem selectRow_last (hidx : (h.extractLsb' 0 4).toNat = b.nextIdx)
    (hcount : (h.extractLsb' 4 4).toNat = b.nextIdx + 1) (heven : (b.buf.length + d.length) % 2 = 0) :
    selectRow b ⟨id, h :: d⟩ = .last := by
  rw [selectRow_end hmarker hidx hcount, if_neg (by omega)]

end

/-! ## What each row does to the record -/

section
variable {b : Bms} {fr : Frame} (now : Nat)

theorem processFrame_seqFault (h : selectRow b fr = .seqFault) :
    processFrame b fr now = { b with status := .commError, cause := .sequence, nextIdx := 0, buf := [] } := by
  rw [processFrame, h]
  rfl

theorem processFrame_odd (h : selectRow b fr = .odd) :
    processFrame b fr now = { b with status := .commError, cause := .oddLength, nextIdx := 0, buf := [] } := by
  rw [processFrame, h]
  rfl

theorem processFrame_marker (h : selectRow b fr = .marker) :
    processFrame b fr now = { b with status := .commError, cause := .marker, errCode := markerCode fr } := by
  rw [processFrame, h]
  rfl

theorem processFrame_fragment (h : selectRow b fr = .fragment) :
    processFrame b fr now = { b with buf := b.buf ++ fr.data.drop 1, nextIdx := b.nextIdx + 1 } := by
  rw [processFrame, h]
  rfl

theorem processFrame_last (h : selectRow b fr = .last) :
    processFrame b fr now = { b with
      snap := pack (b.buf ++ fr.data.drop 1), status := .ok, cause := .none, lastTs := now, nextIdx := 0, buf := [] } := by
  rw [processFrame, h]
  rfl

end

/-! ## Rows -/

/-- A row on the next frame of the call writes the record that the drain's processing gives. -/
theorem exec_bmsRow_of_process {s : State} {k now : Nat} {b b' : Bms} {q : List Frame} {id : CanId} {free code : Byte}
    {fr : Frame} {row : BmsRow × Frame × Instr} (hrow : row ∈ bmsRows k id free code fr now)
    (h : BmsDraining s k b row.2.1 q now) (hsel : selectRow b row.2.1 = row.1)
    (hprocess : processFrame b row.2.1 now = b') :
    exec row.2.2 s = .next { afterRead s (.bms k) q with bmses := s.bmses.set k b' } := by
  rw [exec_bmsRow_of_draining hrow h hsel, hprocess]

theorem bmses_set_self {s : State} {k : Nat} {b : Bms} (h : s.bmses[k]? = some b) : s.bmses.set k b = s.bmses := by
  obtain ⟨hk, rfl⟩ := List.getElem?_eq_some_iff.mp h
  exact List.set_getElem_self hk

/-- Settles O46: a marker writes status, cause and code, an empty frame nothing. -/
theorem markerAndEmptyFramesKeepAccumulator : Obligations.MarkerAndEmptyFramesKeepAccumulator := by
  rintro s k now b b' q id free code rfl
  have hsel : selectRow b ⟨id, [0x10, 0x45, 0x52, 0x52, 0x4F, 0x52, free, code]⟩ = .marker :=
    selectRow_marker b ⟨rfl, rfl⟩
  refine ⟨processFrame_marker now hsel, rfl, fun h => ?_, fun h => ?_⟩
  · exact exec_bmsRow_of_process (row := (.marker, ⟨id, [0x10, 0x45, 0x52, 0x52, 0x4F, 0x52, free, code]⟩, _))
      (id := id) (free := free) (code := code) (fr := ⟨id, []⟩) (by simp [bmsRows]) h hsel (processFrame_marker now hsel)
  · have hexec := exec_bmsRow_of_process (b' := b) (row := (.empty, ⟨id, []⟩, .bmsRxEmpty k id)) (id := id)
      (free := free) (code := code)      (fr := ⟨id, []⟩) (by simp [bmsRows]) h rfl rfl
    rw [bmses_set_self h.1] at hexec
    exact hexec

/-- Settles O47: the row by the index, then by the count and the parity. -/
theorem faultyFragmentsResetAccumulator : Obligations.FaultyFragmentsResetAccumulator := by
  rintro s k now b q id h d hmarker cause instr hcase b' rfl
  rcases hcase with ⟨hidx, rfl, rfl⟩ | ⟨hidx, hcount, hodd, rfl, rfl⟩
  · have hsel := selectRow_seqFault (id := id) hmarker hidx
    refine ⟨processFrame_seqFault now hsel, fun hdrain => ?_⟩
    exact exec_bmsRow_of_process (row := (.seqFault, _, _)) (id := id) (free := 0) (code := 0) (fr := ⟨id, h :: d⟩)
      (by simp [bmsRows]) hdrain
      hsel (processFrame_seqFault now hsel)
  · have hsel := selectRow_odd (id := id) hmarker hidx hcount hodd
    refine ⟨processFrame_odd now hsel, fun hdrain => ?_⟩
    exact exec_bmsRow_of_process (row := (.odd, _, _)) (id := id) (free := 0) (code := 0) (fr := ⟨id, h :: d⟩)
      (by simp [bmsRows]) hdrain
      hsel (processFrame_odd now hsel)

/-! ## A run of fragments -/

/-- In-order fragments none of which ends a message are gathered (R303). -/
theorem foldl_processFrame_gathered (now : Nat) (bodies : List (List Byte)) (b : Bms) (ids : Nat → CanId)
    (header : Nat → Byte)
    (hheader : ∀ i < bodies.length, ((header i).extractLsb' 0 4).toNat = b.nextIdx + i ∧
      ((header i).extractLsb' 4 4).toNat ≠ b.nextIdx + i + 1)
    (hmarker : ∀ fr ∈ bodies.mapIdx (fun i d => (⟨ids i, header i :: d⟩ : Frame)), ¬MarkerBytes fr.data) :
    (bodies.mapIdx (fun i d => (⟨ids i, header i :: d⟩ : Frame))).foldl (fun x fr => processFrame x fr now) b =
      { b with buf := b.buf ++ bodies.flatten, nextIdx := b.nextIdx + bodies.length } := by
  induction bodies generalizing b ids header with
  | nil => simp
  | cons d ds ih =>
    rw [List.mapIdx_cons, List.forall_mem_cons] at hmarker
    obtain ⟨hfirst, hothers⟩ := hmarker
    obtain ⟨hidx, hcount⟩ := hheader 0 (Nat.zero_lt_succ _)
    have hsel : selectRow b ⟨ids 0, header 0 :: d⟩ = .fragment := selectRow_fragment hfirst hidx hcount
    have hgather : processFrame b ⟨ids 0, header 0 :: d⟩ now = { b with buf := b.buf ++ d, nextIdx := b.nextIdx + 1 } :=
      processFrame_fragment now hsel
    rw [List.mapIdx_cons, List.foldl_cons, hgather,
      ih { b with buf := b.buf ++ d, nextIdx := b.nextIdx + 1 } (fun i => ids (i + 1)) (fun i => header (i + 1)) ?_
      hothers]
    · simp [Nat.add_assoc, Nat.add_comm 1]
    · intro i hi
      obtain ⟨hidx, hcount⟩ := hheader (i + 1) (Nat.succ_lt_succ hi)
      dsimp only
      exact ⟨by omega, by omega⟩

/-- A header's halves are read back (R130). -/
theorem header_halves (c i : BitVec 4) : (c ++ i).extractLsb' 0 4 = i ∧ (c ++ i).extractLsb' 4 4 = c := by
  revert c i
  decide

/-- Settles O48: one fragment by its row, a run by `foldl_processFrame_gathered`. -/
theorem inOrderFragmentIsGathered : Obligations.InOrderFragmentIsGathered := by
  refine ⟨?_, ?_⟩
  · rintro s k now b b' q id h d hmarker hidx hcount rfl
    have hsel := selectRow_fragment (id := id) hmarker hidx hcount
    refine ⟨processFrame_fragment now hsel, fun hdrain => ?_⟩
    exact exec_bmsRow_of_process (row := (.fragment, _, _)) (id := id) (free := 0) (code := 0) (fr := ⟨id, h :: d⟩)
      (by simp [bmsRows]) hdrain
      hsel (processFrame_fragment now hsel)
  · rintro b now ids counts bodies frames hbound hcounts rfl hmarker
    refine foldl_processFrame_gathered now bodies b ids (fun i => counts i ++ BitVec.ofNat 4 (b.nextIdx + i))
      (fun i hi => ?_) hmarker
    obtain ⟨hlow, hhigh⟩ := header_halves (counts i) (BitVec.ofNat 4 (b.nextIdx + i))
    rw [hlow, hhigh, BitVec.toNat_ofNat, Nat.mod_eq_of_lt (by omega)]
    exact ⟨rfl, hcounts i hi⟩

/-! ## A message -/

/-- One slot is the little-endian pair at its place, if the body reaches it (R306, R83). -/
theorem packSlot_eq (body : List Byte) (k : Nat) : packSlot body k =
    if 2 * k + 1 < body.length then some (body.getD (2 * k + 1) 0 ++ body.getD (2 * k) 0) else none := by
  unfold packSlot
  split
  next lo hi rest hdrop =>
    have hlen := congrArg List.length hdrop
    have hlo : (body.drop (2 * k))[0]? = some lo := by rw [hdrop]; rfl
    have hhi : (body.drop (2 * k))[1]? = some hi := by rw [hdrop]; rfl
    rw [List.getElem?_drop] at hlo hhi
    rw [List.length_drop, List.length_cons, List.length_cons] at hlen
    rw [if_pos (by omega), List.getD_eq_getElem?_getD, List.getD_eq_getElem?_getD, hhi, ← Nat.add_zero (2 * k), hlo]
    refine congrArg _ (ofNat_of_eq_toNat ?_)
    rw [Option.getD_some, Option.getD_some, toNat_append_eq_add]
    omega
  next hshort =>
    refine (if_neg fun hlt => ?_).symm
    have h0 := List.drop_eq_getElem_cons (i := 2 * k) (l := body) (by omega)
    have h1 := List.drop_eq_getElem_cons (i := 2 * k + 1) (l := body) hlt
    exact hshort _ _ _ (by rw [h0, h1])

theorem snapOf_pack (body : List Byte) : SnapOf body (pack body) := by
  refine ⟨length_pack body, fun k hk => ?_⟩
  rw [← packSlot_eq, pack, List.getElem?_map, List.getElem?_range hk]
  rfl

/-- Settles O49: the last fragment packs the body. -/
theorem lastFragmentCompletesMessage : Obligations.LastFragmentCompletesMessage := by
  intro s k now b q id h d hmarker hidx hcount heven
  have hsel := selectRow_last (id := id) hmarker hidx hcount heven
  have hprocess := processFrame_last now hsel
  refine ⟨_, _, snapOf_pack (b.buf ++ d), rfl, hprocess, fun hdrain => ?_⟩
  exact exec_bmsRow_of_process (row := (.last, _, _)) (id := id) (free := 0) (code := 0) (fr := ⟨id, h :: d⟩)
      (by simp [bmsRows]) hdrain hsel
    hprocess

/-- The header of fragment `i` of `n` (R130). -/
theorem header_of_count {n i : Nat} (hn : n ≤ 15) (hi : i < n) :
    ((BitVec.ofNat 8 (n * 16 + i)).extractLsb' 0 4).toNat = i ∧
    ((BitVec.ofNat 8 (n * 16 + i)).extractLsb' 4 4).toNat = n := by
  simp only [BitVec.extractLsb'_toNat, BitVec.toNat_ofNat, Nat.shiftRight_eq_div_pow]
  omega

/-- The frames of the fragments of one message of `n` (R130). -/
def messageFrames (ids : Nat → CanId) (n : Nat) (bodies : List (List Byte)) : List Frame :=
  bodies.mapIdx fun i d => ⟨ids i, BitVec.ofNat 8 (n * 16 + i) :: d⟩

theorem messageFrames_take (ids : Nat → CanId) (n k : Nat) (bodies : List (List Byte)) (hk : k ≤ bodies.length) :
    (messageFrames ids n bodies).take k = messageFrames ids n (bodies.take k) := by
  conv_lhs => rw [← List.take_append_drop k bodies]
  rw [messageFrames, List.mapIdx_append,
    List.take_left' (List.length_mapIdx.trans (List.length_take_of_le hk))]
  rfl

section
variable {b : Bms} (now : Nat) (ids : Nat → CanId) {n : Nat} (hidx : b.nextIdx = 0) (hbuf : b.buf = []) (hn : n ≤ 15)
include hidx hbuf

/-- An empty accumulator is what a fault or a completed message leaves. -/
theorem accReset_of_empty : accReset b = b := by
  rw [accReset, ← hidx, ← hbuf]

include hn

/-- Fragments `0..k-1` of a message of `n`, none of them its last, are gathered (R312). -/
theorem foldl_messageFrames_part (bodies : List (List Byte)) (hpart : bodies.length < n)
    (hmarker : ∀ fr ∈ messageFrames ids n bodies, ¬MarkerBytes fr.data) :
    (messageFrames ids n bodies).foldl (fun x fr => processFrame x fr now) b =
      { b with buf := bodies.flatten, nextIdx := bodies.length } := by
  rw [messageFrames, foldl_processFrame_gathered now bodies b ids (fun i => BitVec.ofNat 8 (n * 16 + i))
    (fun i hi => ?_) hmarker, hidx, hbuf, List.nil_append, Nat.zero_add]
  obtain ⟨hlow, hhigh⟩ := header_of_count hn (hi.trans hpart)
  rw [hlow, hhigh, hidx]
  exact ⟨(Nat.zero_add i).symm, by omega⟩

/-- A frame out of place after a proper part of a message (R302, R312). -/
theorem processFrame_out_of_place (bodies : List (List Byte)) (hpart : bodies.length < n)
    (hmarker : ∀ fr ∈ messageFrames ids n bodies, ¬MarkerBytes fr.data) (id : CanId) {h : Byte} {d : List Byte}
    (hfault : ¬MarkerBytes (h :: d)) (hout : (h.extractLsb' 0 4).toNat ≠ bodies.length) :
    processFrame ((messageFrames ids n bodies).foldl (fun x fr => processFrame x fr now) b) ⟨id, h :: d⟩ now =
      { b with status := .commError, cause := .sequence } := by
  rw [foldl_messageFrames_part now ids hidx hbuf hn bodies hpart hmarker,
    processFrame_seqFault now (selectRow_seqFault hfault hout)]
  exact accReset_of_empty (b := { b with status := .commError, cause := .sequence }) hidx hbuf

/-- A whole message ends with its last fragment, whose row is selected by the parity (R303, R304, R312). -/
theorem foldl_messageFrames_whole (init : List (List Byte)) (last : List Byte) (hlen : init.length + 1 = n)
    (hmarker : ∀ fr ∈ messageFrames ids n (init ++ [last]), ¬MarkerBytes fr.data) :
    (messageFrames ids n (init ++ [last])).foldl (fun x fr => processFrame x fr now) b =
      if (init ++ [last]).flatten.length % 2 = 1 then { b with status := .commError, cause := .oddLength }
      else { b with snap := pack (init ++ [last]).flatten, status := .ok, cause := .none, lastTs := now } := by
  have hconcat : messageFrames ids n (init ++ [last]) =
      messageFrames ids n init ++ [⟨ids init.length, BitVec.ofNat 8 (n * 16 + init.length) :: last⟩] :=
    List.mapIdx_concat
  rw [hconcat] at hmarker
  have hlast := hmarker _ (List.mem_append_right _ (List.mem_singleton_self _))
  obtain ⟨hlow, hhigh⟩ := header_of_count (i := init.length) hn (by omega)
  have hbody : (init ++ [last]).flatten = init.flatten ++ last := by simp
  rw [hconcat, List.foldl_append, foldl_messageFrames_part now ids hidx hbuf hn init (by omega)
    fun fr hfr => hmarker fr (List.mem_append_left _ hfr), hbody, List.length_append]
  split
  next hodd =>
    refine (processFrame_odd now (selectRow_odd hlast hlow (hhigh.trans hlen.symm) hodd)).trans ?_
    exact accReset_of_empty (b := { b with status := .commError, cause := .oddLength }) hidx hbuf
  next heven =>
    refine (processFrame_last now
      (selectRow_last hlast hlow (hhigh.trans hlen.symm) (Nat.mod_two_ne_one.mp heven))).trans ?_
    exact accReset_of_empty
      (b := { b with snap := pack (init.flatten ++ last), status := .ok, cause := .none, lastTs := now }) hidx hbuf

end

/-- Settles O50: a message is its part without the last fragment, then that fragment. -/
theorem inOrderMessageIsReassembled : Obligations.InOrderMessageIsReassembled := by
  intro b now ids bodies frames hidx hbuf hpos hmax _ hframes hmarker
  replace hframes : frames = messageFrames ids bodies.length bodies := hframes
  subst hframes
  have hne : bodies ≠ [] := List.ne_nil_of_length_pos hpos
  have hsplit := List.dropLast_concat_getLast hne
  have hlen : bodies.dropLast.length + 1 = bodies.length := by rw [List.length_dropLast]; omega
  have hwhole := foldl_messageFrames_whole now ids hidx hbuf hmax bodies.dropLast (bodies.getLast hne) hlen
    (hsplit.symm ▸ hmarker)
  rw [hsplit] at hwhole
  refine ⟨fun heven => ⟨_, snapOf_pack _, ?_⟩, fun hodd => ?_, fun k hk id h d hfault hout => ?_⟩
  · rw [hwhole, if_neg (by omega)]
  · rw [hwhole, if_pos hodd]
  · have htake : (bodies.take k).length = k := List.length_take_of_le hk.le
    have hpart := messageFrames_take ids bodies.length k bodies hk.le
    rw [hpart]
    exact processFrame_out_of_place now ids hidx hbuf hmax (bodies.take k) (htake.symm ▸ hk)
      (fun fr hfr => hmarker fr (List.mem_of_mem_take (hpart.symm ▸ hfr))) id hfault (htake.symm ▸ hout)

end Sys2Proof.Machine
end

section
/-! `get_data` of a BMS unit (R309, R310), in one transition and in two (log 8). -/

namespace Sys2Proof.Machine

open Sys2Proof

/-! ## The timeout check and the answer -/

theorem timeoutChecked_timeoutCheck (cfg : Config) (b : Bms) (now : Nat) :
    TimeoutChecked cfg now b (timeoutCheck cfg b now) := by
  have hiff : b.lastTs + cfg.bmsTimeoutMs < now ∧ b.status = .ok ↔
      now - b.lastTs > cfg.bmsTimeoutMs ∧ b.status = .ok := and_congr_left' (by omega)
  refine ⟨fun h => ?_, fun h => ?_⟩
  · rw [timeoutCheck, if_pos (hiff.mp h)]
    rfl
  · rw [timeoutCheck, if_neg (mt hiff.mpr h)]

theorem answerBms_eq (s : State) (k : Nat) (b : Bms) (now : Nat) : answerBms s k b now = { s with
    bmses := s.bmses.set k (timeoutCheck s.cfg b now)
    reply := some (.snapshot (timeoutCheck s.cfg b now).snap (timeoutCheck s.cfg b now).status) } := rfl

theorem exec_bmsGetData_whole {s : State} {k : Nat} {b : Bms} (h : BmsIdle s k b) (now : Nat) :
    exec (.bmsGetData k (.whole now)) s = .next (answerBms
      { s with node := { s.node with chans := (bmsDrained s b now).1 } } k (bmsDrained s b now).2 now) :=
  onBms_idle _ h

theorem exec_bmsGetData_start {s : State} {k : Nat} {b : Bms} (h : BmsIdle s k b) (now : Nat) :
    exec (.bmsGetData k (.start now)) s = .next (startDrain s (.bms k) b.chan s.cfg.bmsDrainMax now) :=
  onBms_idle _ h

theorem exec_bmsGetData_finish {s : State} {k : Nat} {b : Bms} (h : s.bmses[k]? = some b) :
    exec (.bmsGetData k .finish) s = finishDrain s (.bms k) (fun now t => answerBms t k b now) :=
  atBms_some _ h

/-- What the reads of a drain leave at every name (R182, R309). -/
theorem takeFrames_chans (k : Nat) (m : List (ChanName × List Frame)) (name : ChanName) :
    (chanGet m name = none → (takeFrames k m name).2 = m ∧ (takeFrames k m name).1 = []) ∧
    (∀ q, chanGet m name = some q →
      (takeFrames k m name).1 = q.take k ∧ chanGet (takeFrames k m name).2 name = some (q.drop k)) ∧
    ∀ n, n ≠ name → chanGet (takeFrames k m name).2 n = chanGet m n := by
  obtain ⟨hnone, hsome⟩ := takeFrames_spec k m name
  refine ⟨fun h => by rw [hnone h]; exact ⟨rfl, rfl⟩, fun q hq => ⟨(hsome q hq).1, (hsome q hq).2.1⟩, fun n hn => ?_⟩
  cases hq : chanGet m name with
  | none => rw [hnone hq]
  | some q => exact (hsome q hq).2.2 n hn

/-! ## `get_data` in two transitions -/

/-- `get_data` with time `now` on BMS unit `k` is in progress: its drain read `frames` from state `s`, which left the
channels `m`; it has processed some of them into the record `b` and has the others to process. -/
def BmsMidway (s : State) (k now : Nat) (b : Bms) (frames : List Frame) (m : List (ChanName × List Frame)) (u : State) :
    Prop :=
  ∃ done todo, frames = done ++ todo ∧ u = { s with
    node := { s.node with chans := m }
    bmses := s.bmses.set k (done.foldl (fun x fr => processFrame x fr now) b)
    drains := s.drains ++ [⟨.bms k, todo, now⟩]
    reply := some (.draining frames.length) }

theorem bmses_set_getElem?_of {s : State} {k : Nat} {b b' : Bms} (h : s.bmses[k]? = some b) :
    (s.bmses.set k b')[k]? = some b' :=
  withBms_bmses_self h b'

/-- What the start of `get_data` leaves: the frames of its drain are read and none is processed yet. -/
theorem bmsMidway_startDrain (s : State) {k : Nat} {b : Bms} (h : s.bmses[k]? = some b) (now : Nat) :
    BmsMidway s k now b (takeFrames s.cfg.bmsDrainMax s.node.chans b.chan).1
      (takeFrames s.cfg.bmsDrainMax s.node.chans b.chan).2
      (startDrain s (.bms k) b.chan s.cfg.bmsDrainMax now) := by
  refine ⟨[], _, rfl, ?_⟩
  rw [List.foldl_nil, bmses_set_self h]
  rfl

section
variable {s u t v : State} {k now : Nat} {b : Bms} {frames : List Frame} {m : List (ChanName × List Frame)}

/-- A frame row on the unit processes the next frame of the call, at the time of the call. -/
theorem BmsMidway.row (hb : s.bmses[k]? = some b) (hne : ∀ y ∈ s.drains, y.device ≠ .bms k)
    (h : BmsMidway s k now b frames m u) (hstep : BmsRowStep k u t) : BmsMidway s k now b frames m t := by
  obtain ⟨done, todo, rfl, rfl⟩ := h
  obtain ⟨id, free, code, fr, now', row, hrow, hexec⟩ := hstep
  obtain ⟨b', x, q, hb', hx, hq, -, -, rfl⟩ := (exec_bmsRow_next hrow).mp hexec
  obtain rfl : (⟨.bms k, todo, now⟩ : Drain) = x := Option.some.inj ((drainOf_concat rfl hne).symm.trans hx)
  obtain rfl : done.foldl (fun x fr => processFrame x fr now) b = b' :=
    Option.some.inj ((bmses_set_getElem?_of hb).symm.trans hb')
  obtain rfl : todo = row.2.1 :: q := hq
  refine ⟨done ++ [row.2.1], q, by simp, ?_⟩
  have hdrains := putFrames_concat (s := { s with drains := s.drains ++ [⟨.bms k, row.2.1 :: q, now⟩] }) rfl hne q
  rw [putFrames_drains] at hdrains
  simp only [State.withBms, State.putFrames, List.set_set, List.foldl_append, List.foldl_cons, List.foldl_nil, hdrains]

theorem BmsMidway.rows (hb : s.bmses[k]? = some b) (hne : ∀ y ∈ s.drains, y.device ≠ .bms k)
    (h : BmsMidway s k now b frames m u) (hsteps : Relation.ReflTransGen (BmsRowStep k) u t) :
    BmsMidway s k now b frames m t := by
  induction hsteps with
  | refl => exact h
  | tail _ hstep ih => exact ih.row hb hne hstep

/-- The return that ends the call checks the timeout on the record drained, and answers (R309, R310). -/
theorem BmsMidway.finish (hb : s.bmses[k]? = some b) (hne : ∀ y ∈ s.drains, y.device ≠ .bms k)
    (h : BmsMidway s k now b frames m u) (hfinish : exec (.bmsGetData k .finish) u = .next v)
    (hdone : drainOf v (.bms k) = none) :
    v = answerBms { s with node := { s.node with chans := m } } k
      (frames.foldl (fun x fr => processFrame x fr now) b) now := by
  obtain ⟨done, todo, rfl, rfl⟩ := h
  rw [exec_bmsGetData_finish (bmses_set_getElem?_of hb)] at hfinish
  obtain ⟨x, hx, hend⟩ := finishDrain_next.mp hfinish
  obtain rfl : (⟨.bms k, todo, now⟩ : Drain) = x := Option.some.inj ((drainOf_concat rfl hne).symm.trans hx)
  rcases hend with ⟨rfl, rfl⟩ | ⟨-, rfl⟩
  · have hdrains := endDrain_concat (s := { s with drains := s.drains ++ [⟨.bms k, [], now⟩] }) rfl hne
    rw [endDrain_drains] at hdrains
    simp only [answerBms_eq, State.endDrain, List.append_nil, List.set_set, hdrains]
  · exact absurd (hx.symm.trans hdone) (by simp)

end

theorem bmsGetData_two_transitions {s t u v : State} {k now : Nat}
    (hstart : exec (.bmsGetData k (.start now)) s = .next t) (hrows : Relation.ReflTransGen (BmsRowStep k) t u)
    (hfinish : exec (.bmsGetData k .finish) u = .next v) (hdone : drainOf v (.bms k) = none) :
    exec (.bmsGetData k (.whole now)) s = .next v := by
  obtain ⟨b, hb, hfree, ht⟩ := onBms_next.mp hstart
  cases ht
  have hidle : BmsIdle s k b := ⟨hb, bmsFree_iff.mp hfree⟩
  have hne := hidle.2.2
  rw [exec_bmsGetData_whole hidle,
    ((bmsMidway_startDrain s hb now).rows hb hne hrows).finish hb hne hfinish hdone]
  rfl

/-- Settles O44: one transition drains, checks and answers; two are followed frame by frame by `BmsMidway`. -/
theorem bmsGetDataDrainsThenChecksTimeout : Obligations.BmsGetDataDrainsThenChecksTimeout := by
  refine ⟨fun s k now b h => ?_, fun s k b x hb hx => ⟨fun hq => ?_, fun hq => ?_⟩,
    fun s t u v k now => bmsGetData_two_transitions⟩
  · obtain ⟨hclosed, hread, hother⟩ := takeFrames_chans s.cfg.bmsDrainMax s.node.chans b.chan
    exact ⟨_, _, _, exec_bmsGetData_whole h now, exec_bmsGetData_start h now, hclosed, hread, hother,
      timeoutChecked_timeoutCheck s.cfg _ now⟩
  · rw [exec_bmsGetData_finish hb]
    exact finishDrain_next.mpr ⟨x, hx, .inr ⟨hq, rfl⟩⟩
  · refine ⟨_, timeoutChecked_timeoutCheck s.cfg b x.now, ?_⟩
    rw [exec_bmsGetData_finish hb]
    exact finishDrain_next.mpr ⟨x, hx, .inl ⟨hq, rfl⟩⟩

/-! ## A timeout without new frames -/

theorem takeFrames_of_no_frames {m : List (ChanName × List Frame)} {name : ChanName}
    (h : chanGet m name = none ∨ chanGet m name = some []) (k : Nat) : takeFrames k m name = ([], m) := by
  cases k with
  | zero => rfl
  | succ k => rcases h with h | h <;> simp [takeFrames, chanRead, h]

/-- Without frames `get_data` only checks the timeout. -/
theorem exec_bmsGetData_whole_no_frames {s : State} {k : Nat} {b : Bms} (h : BmsIdle s k b) (now : Nat)
    (hchan : chanGet s.node.chans b.chan = none ∨ chanGet s.node.chans b.chan = some []) :
    exec (.bmsGetData k (.whole now)) s = .next (answerBms s k b now) := by
  rw [exec_bmsGetData_whole h, bmsDrained, takeFrames_of_no_frames hchan]
  rfl

/-- The record after a timeout (R310). -/
def timedOut (b : Bms) : Bms := { b with status := .commError, cause := .timeout, nextIdx := 0, buf := [] }

theorem timeoutCheck_late {cfg : Config} {b : Bms} {now : Nat} (hlate : b.lastTs + cfg.bmsTimeoutMs < now)
    (hok : b.status = .ok) : timeoutCheck cfg b now = timedOut b :=
  (timeoutChecked_timeoutCheck cfg b now).1 ⟨hlate, hok⟩

theorem timeoutCheck_timedOut (cfg : Config) (b : Bms) (now : Nat) : timeoutCheck cfg (timedOut b) now = timedOut b :=
  (timeoutChecked_timeoutCheck cfg (timedOut b) now).2 fun h => by cases h.2

/-- Settles O45: the flip leaves COMM_ERROR, on which the check does nothing. -/
theorem bmsTimeoutFlipsOnce : Obligations.BmsTimeoutFlipsOnce := by
  intro s t u k now later b h hok hlate hchan hfirst hsecond
  rw [exec_bmsGetData_whole_no_frames h now hchan, answerBms_eq, timeoutCheck_late hlate hok] at hfirst
  have ht := (Host.Outcome.next.inj hfirst).symm
  have hrecord : t.bmses[k]? = some (timedOut b) := by
    rw [ht]
    exact bmses_set_getElem?_of h.1
  have hidle : BmsIdle t k (timedOut b) := by
    refine ⟨hrecord, ?_⟩
    rw [ht]
    exact h.2
  have hempty : chanGet t.node.chans (timedOut b).chan = none ∨ chanGet t.node.chans (timedOut b).chan = some [] := by
    rw [ht]
    exact hchan
  rw [exec_bmsGetData_whole_no_frames hidle later hempty, answerBms_eq, timeoutCheck_timedOut, bmses_set_self hrecord]
    at hsecond
  refine ⟨by rw [hrecord]; rfl, (Host.Outcome.next.inj hsecond).symm.trans ?_⟩
  rw [ht]

end Sys2Proof.Machine
end

section
/-! Steps, and the operations out of place (log 1, 4, 5, 7, 8, 17; R100, R144, R300, R469). -/

namespace Sys2Proof.Machine

open Sys2Proof

/-- Settles O51: with an entry at its head the agenda is what a fetch takes (log 1). -/
theorem stepRunsDecodedOperation : Obligations.StepRunsDecodedOperation := by
  intro s m rest hagenda
  have hfetch : fetch s = (m, { s with agenda := rest }) := by rw [fetch, hagenda]
  refine ⟨fun i hi => ?_, fun hnone => ?_⟩
  · simp only [step, hfetch, hi]
  · simp only [step, hfetch, hnone]

/-! ## What is refused, by the shared operations -/

theorem workerStep_refused {p : Phase} {s : State} (f : Node → Node) (h : ¬WorkerAt s p) :
    workerStep p s f = .refused .notSelected :=
  if_neg (mt (workerAt_iff s.node p).mp h)

theorem applyStep_refused {s : State} (tx : TxAnswer) {sel : Command → Bool}
    (h : ¬WorkerAt s .drain ∨ ∀ n c rest, s.node.cmdq = (n, c) :: rest → sel c = false) :
    applyStep s tx sel = .refused .notSelected := by
  unfold applyStep
  split
  next hat =>
    split
    next seq c rest hq =>
      have hsel := (h.resolve_left (not_not.mpr ((workerAt_iff s.node .drain).mp hat))) seq c rest hq
      rw [hsel]
      rfl
    next => rfl
  next => rfl

/-- A row for the command `c` is refused where another command, or none, is at the head (R170, log 9). -/
theorem applyStep_refused_of_head {s : State} (tx : TxAnswer) {c : Command}
    (h : ¬WorkerAt s .drain ∨ ∀ n rest, s.node.cmdq ≠ (n, c) :: rest) :
    applyStep s tx (fun x => decide (x = c)) = .refused .notSelected :=
  applyStep_refused tx (h.imp_right fun hhead n _ rest hq =>
    decide_eq_false fun hx => hhead n rest (hx ▸ hq))

theorem resumeCall_refused {s : State} {q target : Nat} {kind : WaitKind} (good atHalt : State → State)
    (h : ∀ w ∈ s.waits, w.seq ≠ q) : resumeCall s q kind target good atHalt = .refused .noSuchCall :=
  if_neg fun hw => h _ hw rfl

theorem exec_bmsNew_resume_refused {s : State} {q : Nat} (h : ∀ w ∈ s.waits, w.seq ≠ q) (ch : ChanName)
    (address mask : CanId) (now : Nat) : exec (.bmsNew ch address mask now (.resume q)) s = .refused .noSuchCall := by
  have hnone : s.waits.find? (fun w => decide (w.seq = q) && decide (w.kind = .bmsNew)) = none := by
    simpa using fun w hw hseq => absurd hseq (h w hw)
  simp only [exec, execBmsNew, hnone]

/-! ## EPC devices -/

theorem epcFree_eq_false {s : State} {k : Nat}
    (h : (∃ w ∈ s.waits, w.target = k ∧ (w.kind = .epcOpen ∨ w.kind = .epcClose)) ∨
      (∃ x ∈ s.drains, x.device = .epc k)) : epcFree s k = false := by
  rw [Bool.eq_false_iff, ne_eq, epcFree_iff]
  rintro ⟨hwaits, hdrains⟩
  rcases h with ⟨w, hw, htarget, hkind⟩ | ⟨x, hx, hdevice⟩
  · obtain ⟨hopen, hclose⟩ := hwaits w hw htarget
    exact hkind.elim hopen hclose
  · exact hdrains x hx hdevice

/-- The new host calls on EPC device `k`. -/
def epcCalls (k : Nat) (a b c d e f : Int) (lt : LimitType) (u : Bool) : List Instr :=
  [.epcSetCvMode k a lt b, .epcSetCcMode k a lt b, .epcSetCpMode k a lt b, .epcSetWaitMode k a,
    .epcDisable k, .epcSetPeriodic k a b c d e f, .epcSetLsVoltLimit k a b, .epcSetLsCurrLimit k a b,
    .epcSetHsVoltLimit k a b, .epcSetLsPwrLimit k a b, .epcSetTempLimit k a b, .epcGetData k (.whole u),
    .epcGetData k (.start u), .epcGetProperties k u, .epcOpen k .issue, .epcClose k .issue]

/-- Each of them first asks for the device and that it is free. -/
theorem exec_epcCall {s : State} {k : Nat} {a b c d e f : Int} {lt : LimitType} {u : Bool} {i : Instr}
    (hi : i ∈ epcCalls k a b c d e f lt u) : ∃ g, exec i s = onEpc s k g := by
  simp only [epcCalls, List.mem_cons, List.not_mem_nil, or_false] at hi
  rcases hi with rfl | rfl | rfl | rfl | rfl | rfl | rfl | rfl | rfl | rfl | rfl | rfl | rfl | rfl | rfl | rfl <;>
    exact ⟨_, rfl⟩

theorem epcRx_none {s : State} {k : Nat} (fr : Frame) (f : Epc → Frame → Epc) (h : s.epcs[k]? = none) :
    epcRx s k fr f = .refused .noSuchInstance :=
  atEpc_none _ h

theorem epcRx_other {s : State} {k : Nat} {r : Epc} {fr : Frame} (f : Epc → Frame → Epc) (h : s.epcs[k]? = some r)
    (hother : ∀ x later, drainOf s (.epc k) = some x → x.frames ≠ fr :: later) :
    epcRx s k fr f = .refused .notSelected :=
  (atEpc_some _ h).trans (onFrame_other _ hother)

theorem epc_operations_refused (s : State) (k : Nat) (a b c d e f : Int) (lt : LimitType) (u : Bool) (dev : BitVec 7)
    (low : BitVec 1) (data : List Byte) :
    (s.epcs[k]? = none →
      ∀ i ∈ epcCalls k a b c d e f lt u ++ .epcGetData k .finish :: (epcRows k dev low data).map Prod.snd,
        exec i s = .refused .noSuchInstance) ∧
    (s.epcs[k]? ≠ none →
      (∃ w ∈ s.waits, w.target = k ∧ (w.kind = .epcOpen ∨ w.kind = .epcClose)) ∨
        (∃ x ∈ s.drains, x.device = .epc k) →
      ∀ i ∈ epcCalls k a b c d e f lt u, exec i s = .refused .overlappingCall) ∧
    (s.epcs[k]? ≠ none → (∀ x ∈ s.drains, x.device ≠ .epc k) →
      exec (.epcGetData k .finish) s = .refused .noSuchCall) ∧
    (s.epcs[k]? ≠ none → ∀ row ∈ epcRows k dev low data,
      (∀ x later, drainOf s (.epc k) = some x → x.frames ≠ ⟨dev ++ row.1, data⟩ :: later) →
      exec row.2 s = .refused .notSelected) := by
  refine ⟨fun hnone i hi => ?_, fun hsome hbusy i hi => ?_, fun hsome hidle => ?_, fun hsome row hrow hother => ?_⟩
  · rcases List.mem_append.mp hi with hcall | hrest
    · obtain ⟨g, hexec⟩ := exec_epcCall (s := s) hcall
      rw [hexec, onEpc_none g hnone]
    · rcases List.mem_cons.mp hrest with rfl | hmap
      · exact atEpc_none _ hnone
      · obtain ⟨row, hrow, rfl⟩ := List.mem_map.mp hmap
        rw [exec_epcRow s k dev low data row hrow, epcRx_none _ _ hnone]
  · obtain ⟨r, hr⟩ := Option.ne_none_iff_exists'.mp hsome
    obtain ⟨g, hexec⟩ := exec_epcCall (s := s) hi
    rw [hexec, onEpc_busy g hr (epcFree_eq_false hbusy)]
  · obtain ⟨r, hr⟩ := Option.ne_none_iff_exists'.mp hsome
    exact (atEpc_some _ hr).trans (finishDrain_none _ (drainOf_none.mpr hidle))
  · obtain ⟨r, hr⟩ := Option.ne_none_iff_exists'.mp hsome
    rw [exec_epcRow s k dev low data row hrow, epcRx_other _ hr hother]

/-! ## BMS units -/

theorem bmsFree_eq_false {s : State} {k : Nat}
    (h : (∃ w ∈ s.waits, w.target = k ∧ (w.kind = .bmsNew ∨ w.kind = .bmsClose)) ∨
      (∃ x ∈ s.drains, x.device = .bms k)) : bmsFree s k = false := by
  rw [Bool.eq_false_iff, ne_eq, bmsFree_iff]
  rintro ⟨hwaits, hdrains⟩
  rcases h with ⟨w, hw, htarget, hkind⟩ | ⟨x, hx, hdevice⟩
  · obtain ⟨hnew, hclose⟩ := hwaits w hw htarget
    exact hkind.elim hnew hclose
  · exact hdrains x hx hdevice

theorem exec_bmsCall {s : State} {k now : Nat} {i : Instr}
    (hi : i ∈ [Instr.bmsGetData k (.whole now), .bmsGetData k (.start now), .bmsClose k .issue]) :
    ∃ g, exec i s = onBms s k g := by
  simp only [List.mem_cons, List.not_mem_nil, or_false] at hi
  rcases hi with rfl | rfl | rfl <;> exact ⟨_, rfl⟩

/-- Each frame row of a unit is the shared body of the rows, with a function of its own. -/
theorem exec_bmsRow {s : State} {k now : Nat} {id : CanId} {free code : Byte} {fr : Frame}
    {row : BmsRow × Frame × Instr} (hrow : row ∈ bmsRows k id free code fr now) :
    ∃ g, exec row.2.2 s = bmsRx s k row.2.1 row.1 g := by
  simp only [bmsRows, List.mem_cons, List.not_mem_nil, or_false] at hrow
  rcases hrow with rfl | rfl | rfl | rfl | rfl | rfl
  · exact ⟨fun _ r => some (rxEmpty r), rfl⟩
  · exact ⟨fun _ r => some (rxMarker r (markerCode (markerFrame id free code))), rfl⟩
  · exact ⟨fun _ r => some (rxSeqFault r), rfl⟩
  · exact ⟨fun _ r => some (rxFragment r fr), rfl⟩
  · exact ⟨fun callNow r => if callNow = now then some (rxLast r fr now) else none, rfl⟩
  · exact ⟨fun _ r => some (rxOdd r), rfl⟩

theorem bmsRx_none {s : State} {k : Nat} (fr : Frame) (row : BmsRow) (f : Nat → Bms → Option Bms)
    (h : s.bmses[k]? = none) : bmsRx s k fr row f = .refused .noSuchInstance :=
  atBms_none _ h

/-- A frame row is refused where its frame is not the next one, the record does not select the row, or the row's own
function gives no record. -/
theorem bmsRx_refused {s : State} {k : Nat} {b : Bms} {fr : Frame} {row : BmsRow} {f : Nat → Bms → Option Bms}
    (h : s.bmses[k]? = some b)
    (hout : (∀ x later, drainOf s (.bms k) = some x → x.frames ≠ fr :: later) ∨ selectRow b fr ≠ row ∨
      ∀ x, drainOf s (.bms k) = some x → f x.now b = none) :
    bmsRx s k fr row f = .refused .notSelected := by
  rw [bmsRx, atBms_some _ h]
  by_cases hnext : ∀ x later, drainOf s (.bms k) = some x → x.frames ≠ fr :: later
  · exact onFrame_other _ hnext
  · push Not at hnext
    obtain ⟨x, later, hx, hframes⟩ := hnext
    rw [onFrame_head _ hx hframes]
    rcases hout with hother | hrow | hnone
    · exact absurd hframes (hother x later hx)
    · exact if_neg hrow
    · simp [hnone x hx]

theorem bms_operations_refused (s : State) (k now : Nat) (id : CanId) (free code : Byte) (fr : Frame) {calls : List Instr}
    (hcalls : calls = [.bmsGetData k (.whole now), .bmsGetData k (.start now), .bmsClose k .issue]) :
    (s.bmses[k]? = none →
      ∀ i ∈ calls ++ .bmsGetData k .finish :: (bmsRows k id free code fr now).map (fun row => row.2.2),
        exec i s = .refused .noSuchInstance) ∧
    (s.bmses[k]? ≠ none →
      (∃ w ∈ s.waits, w.target = k ∧ (w.kind = .bmsNew ∨ w.kind = .bmsClose)) ∨
        (∃ x ∈ s.drains, x.device = .bms k) →
      ∀ i ∈ calls, exec i s = .refused .overlappingCall) ∧
    (s.bmses[k]? ≠ none → (∀ x ∈ s.drains, x.device ≠ .bms k) →
      exec (.bmsGetData k .finish) s = .refused .noSuchCall) ∧
    (∀ b, s.bmses[k]? = some b → ∀ row ∈ bmsRows k id free code fr now,
      (∀ x later, drainOf s (.bms k) = some x → x.frames ≠ row.2.1 :: later) ∨ selectRow b row.2.1 ≠ row.1 →
      exec row.2.2 s = .refused .notSelected) ∧
    (s.bmses[k]? ≠ none → (∀ x, drainOf s (.bms k) = some x → x.now ≠ now) →
      exec (.bmsRxLast k fr now) s = .refused .notSelected) := by
  subst hcalls
  refine ⟨fun hnone i hi => ?_, fun hsome hbusy i hi => ?_, fun hsome hidle => ?_, fun b hb row hrow hout => ?_,
    fun hsome htime => ?_⟩
  · rcases List.mem_append.mp hi with hcall | hrest
    · obtain ⟨g, hexec⟩ := exec_bmsCall (s := s) hcall
      rw [hexec, onBms_none g hnone]
    · rcases List.mem_cons.mp hrest with rfl | hmap
      · exact atBms_none _ hnone
      · obtain ⟨row, hrow, rfl⟩ := List.mem_map.mp hmap
        obtain ⟨g, hexec⟩ := exec_bmsRow (s := s) hrow
        rw [hexec, bmsRx_none _ _ _ hnone]
  · obtain ⟨b, hb⟩ := Option.ne_none_iff_exists'.mp hsome
    obtain ⟨g, hexec⟩ := exec_bmsCall (s := s) hi
    rw [hexec, onBms_busy g hb (bmsFree_eq_false hbusy)]
  · obtain ⟨b, hb⟩ := Option.ne_none_iff_exists'.mp hsome
    exact (atBms_some _ hb).trans (finishDrain_none _ (drainOf_none.mpr hidle))
  · obtain ⟨g, hexec⟩ := exec_bmsRow (s := s) hrow
    rw [hexec, bmsRx_refused hb (hout.imp_right .inl)]
  · obtain ⟨b, hb⟩ := Option.ne_none_iff_exists'.mp hsome
    exact bmsRx_refused hb (.inr (.inr fun x hx => if_neg (htime x hx)))

/-! ## The worker's rows -/

theorem busRow_refused {s : State} (h : ¬WorkerAt s .poll) (fr : Frame) :
    ∀ i ∈ [Instr.rxData fr, .rxNone, .rxErrorFrame, .rxInvalid], exec i s = .refused .notSelected := by
  simp only [List.forall_mem_cons, List.not_mem_nil, false_implies, implies_true, and_true]
  exact ⟨workerStep_refused (fun n => pollStep s.cfg n (.frame fr)) h,
    workerStep_refused (fun n => pollStep s.cfg n .none) h,
    workerStep_refused (fun n => pollStep s.cfg n .errorFrame) h,
    workerStep_refused (fun n => pollStep s.cfg n .invalid) h⟩

theorem exec_wrkShutdown_refused {s : State} (h : ¬WorkerAt s .start ∨ s.node.working = true) :
    exec .wrkShutdown s = .refused .notSelected := by
  simp only [exec, execWrkShutdown]
  split
  next => rfl
  next hstopped => exact workerStep_refused _ (h.resolve_right hstopped)

theorem resume_refused {s : State} {q : Nat} (h : ∀ w ∈ s.waits, w.seq ≠ q) (k : Nat) (ch : ChanName)
    (address mask : CanId) (now : Nat) :
    ∀ i ∈ [Instr.epcOpen k (.resume q), .epcClose k (.resume q), .bmsNew ch address mask now (.resume q),
        .bmsClose k (.resume q)], exec i s = .refused .noSuchCall := by
  simp only [List.forall_mem_cons, List.not_mem_nil, false_implies, implies_true, and_true]
  refine ⟨?_, ?_, exec_bmsNew_resume_refused h ch address mask now, ?_⟩
  · rw [exec_epcOpen_resume, resumeCall_refused _ _ h]
  · rw [exec_epcClose_resume, resumeCall_refused _ _ h]
  · rw [exec_bmsClose_resume, resumeCall_refused _ _ h]

/-- Settles O52: each operation is a shared body, which refuses by name what is not in its place. -/
theorem operationsOutOfPlaceAreRefused : Obligations.OperationsOutOfPlaceAreRefused := by
  intro s k q
  refine ⟨?_, ?_, fun h => resume_refused h k, fun c tx h => ?_, busRow_refused, exec_wrkShutdown_refused⟩
  · rintro a b c d e f lt u dev low data calls rfl
    exact epc_operations_refused s k a b c d e f lt u dev low data
  · intro now id free code fr calls hcalls
    exact bms_operations_refused s k now id free code fr hcalls
  · cases c with
    | send fr => exact applyStep_refused_of_head tx h
    | addFilter fe => exact applyStep_refused_of_head .ok h
    | removeFilter fe => exact applyStep_refused_of_head .ok h

end Sys2Proof.Machine
end
